-- ==== Sys2Proof/Word.lean ====
section
/-! DEFINITION. The byte, the 32-bit register word, byte sequences and the 16-byte block
(spec 00_scope.md rules R6, R8, R9). -/

namespace Sys2Proof

/-- One 8-bit value. -/
abbrev Byte := BitVec 8

/-- A 32-bit control register or command word (00_scope.md R7, 10_state.md R23). -/
abbrev Word := BitVec 32

/-- The spec's `Bytes`: a finite sequence of 8-bit values, index 0 first (00_scope.md R9). -/
abbrev Bytes := List Byte

/-- The spec's `Bytes16`: a `Bytes` of length exactly 16, the fixed block size (00_scope.md R6, R9). -/
structure Block where
  bytes : Bytes
  size_eq : bytes.length = 16
  deriving DecidableEq, Repr

/-- Sixteen zero bytes. -/
def Block.zero : Block := ⟨List.replicate 16 0, rfl⟩

end Sys2Proof
end

