-- ==== Sys2Proof/Syntax.lean ====
section
/-! DEFINITION. The commands (one constructor per row of spec/opcode_table.json), the fields of the
command word, the control registers, the host's bus transactions and the moves of the agents. -/

namespace Sys2Proof

/-- The ENC field's legal values: the encoding of every operand and of the output of an XOR-family
command (30_encoding.md R92, 42_xor.md R220). -/
inductive Enc where
  | raw   -- 0: bytes as they are
  | hex   -- 1: HexString text
  | b64   -- 2: Base64String text
  deriving DecidableEq, Repr

/-- The 13 commands of the opcode map (30_encoding.md R95). `validate` is the V bit (R93). -/
inductive Instr where
  | hexEnc
  | hexDec
  | b64Enc
  | b64Dec
  | hexToB64
  | b64ToHex
  | pad
  | unpad (validate : Bool)
  | xorFixed (enc : Enc)
  | xorRepeat (enc : Enc)
  | hamming (enc : Enc)
  | cbcEnc
  | cbcDec (validate : Bool)
  deriving DecidableEq, Repr

/-- The fields of a 32-bit command word as it is written to CMD, legal or not (30_encoding.md R90). -/
structure CmdWord where
  /-- Bits 7:0. -/
  op : BitVec 8
  /-- Bits 9:8. -/
  enc : BitVec 2
  /-- Bits 11:10, reserved. -/
  low : BitVec 2
  /-- Bit 12. -/
  v : Bool
  /-- Bits 31:13, reserved. -/
  high : BitVec 19
  deriving DecidableEq, Repr

/-- The width of a host access in bytes: 1, 2 or 4 (40_host_and_command.md R121). -/
inductive Width where
  | one
  | two
  | four
  deriving DecidableEq, Repr

/-- The word slots of the CSR aperture (10_state.md R23, R43). -/
inductive Csr where
  | id | ctrl | status | cmd
  | srcAddr | srcLen | auxAddr | auxLen | dstAddr | dstCap | param
  | outLen | result | errinfo
  | iv0 | iv1 | iv2 | iv3
  | chain0 | chain1 | chain2 | chain3
  | reserved
  deriving DecidableEq, Repr

/-- The host's four bus transactions (40_host_and_command.md R121). Offsets are unbounded naturals
(00_scope.md R8); a write of a narrow width uses the low bits of its value. -/
inductive HostOp where
  | csrRead (off : Nat) (w : Width)
  | csrWrite (off : Nat) (w : Width) (v : Word)
  | bufRead (off : Nat) (w : Width)
  | bufWrite (off : Nat) (w : Width) (v : Word)
  deriving DecidableEq, Repr

/-- One move of one agent: the host, the engine, the block-cipher port (40_host_and_command.md
R120), or the platform's reset input (70_reset_and_hazards.md R330). -/
inductive Event where
  | host (t : HostOp)
  | engine
  | bcp
  | reset
  deriving DecidableEq, Repr

end Sys2Proof
end

