-- ==== Sys2Proof/WellFormed.lean ====
section
/-! DEFINITION. Which command words are legal, column by column of the opcode map (30_encoding.md
R91 to R95). A legal `CmdWord` is what `Instr` can say; an `Instr` has no illegal field value, since
`Enc` leaves out the value 3 and only the rows with a V column carry a V. -/

namespace Sys2Proof

/-- OP is one of the 13 of the opcode map (R91, R95). -/
def CmdWord.opKnown (c : CmdWord) : Bool :=
  [0x01#8, 0x02, 0x03, 0x04, 0x05, 0x06, 0x07, 0x08, 0x10, 0x11, 0x12, 0x20, 0x21].contains c.op

/-- OP is a command of the XOR family, the only ones with an ENC other than 0 (R92). -/
def CmdWord.isXor (c : CmdWord) : Bool := [0x10#8, 0x11, 0x12].contains c.op

/-- OP is UNPAD or CBC_DEC, the only ones whose V may be 1 (R93). -/
def CmdWord.hasV (c : CmdWord) : Bool := [0x08#8, 0x21].contains c.op

/-- Reserved bits are 0 (R94), OP is known (R91), ENC is legal for OP (R92) and V is legal for OP (R93). -/
def CmdWord.wellFormed (c : CmdWord) : Bool :=
  c.low == 0 && c.high == 0 && c.opKnown && (c.enc == 0 || (c.isXor && c.enc != 3)) && (!c.v || c.hasV)

/-- Every instruction is well-formed: its type holds only what the opcode map allows. -/
def Instr.wellFormed : Instr → Bool
  | .hexEnc | .hexDec | .b64Enc | .b64Dec | .hexToB64 | .b64ToHex | .pad | .cbcEnc => true
  | .unpad _ | .cbcDec _ => true
  | .xorFixed _ | .xorRepeat _ | .hamming _ => true

end Sys2Proof
end

