-- ==== Sys2Proof/Decode.lean ====
section
/-! DEFINITION. The decoder of the 32-bit command word (30_encoding.md R90 to R100), total and
rejecting by name, and the encoder. -/

namespace Sys2Proof

/-- Why a word is no command. The hardware reports all of them as IllegalCommand (R97, R98). -/
inductive DecodeError where
  | reservedBits   -- a bit of 11:10 or 31:13 is set
  | unknownOp      -- OP is not in the opcode map
  | encThree       -- ENC = 3
  | encNotXor      -- ENC is not 0 on a command outside the XOR family
  | vNotAllowed    -- V = 1 on a command other than UNPAD and CBC_DEC
  deriving DecidableEq, Repr

/-- Cut a word into the fields of R90. -/
def CmdWord.ofWord (w : Word) : CmdWord where
  op := w.extractLsb' 0 8
  enc := w.extractLsb' 8 2
  low := w.extractLsb' 10 2
  v := w.getLsbD 12
  high := w.extractLsb' 13 19

/-- Put the fields of R90 together again, bit 31 first. -/
def CmdWord.toWord (c : CmdWord) : Word :=
  c.high ++ BitVec.ofBool c.v ++ c.low ++ c.enc ++ c.op

/-- ENC as a number to its meaning; 3 has none (R92). -/
def Enc.ofBits (e : BitVec 2) : Option Enc :=
  if e = 0 then some .raw
  else if e = 1 then some .hex
  else if e = 2 then some .b64
  else none

/-- The ENC field of an encoding (R92). -/
def Enc.bits : Enc → BitVec 2
  | .raw => 0
  | .hex => 1
  | .b64 => 2

/-- A command outside the XOR family that has no V column: ENC and V must be 0. -/
def decodePlain (i : Instr) (c : CmdWord) : Except DecodeError Instr :=
  if c.enc = 3 then .error .encThree
  else if c.enc ≠ 0 then .error .encNotXor
  else if c.v then .error .vNotAllowed
  else .ok i

/-- A command with a V bit: ENC must be 0. -/
def decodeV (i : Bool → Instr) (c : CmdWord) : Except DecodeError Instr :=
  if c.enc = 3 then .error .encThree
  else if c.enc ≠ 0 then .error .encNotXor
  else .ok (i c.v)

/-- A command of the XOR family: ENC is 0, 1 or 2, V must be 0. -/
def decodeXor (i : Enc → Instr) (c : CmdWord) : Except DecodeError Instr :=
  match Enc.ofBits c.enc with
  | none => .error .encThree
  | some e => if c.v then .error .vNotAllowed else .ok (i e)

/-- R97 on the fields: reserved bits first, then OP, then ENC, then V. -/
def decodeFields (c : CmdWord) : Except DecodeError Instr :=
  if c.low ≠ 0 ∨ c.high ≠ 0 then .error .reservedBits
  else if c.op = 0x01 then decodePlain .hexEnc c
  else if c.op = 0x02 then decodePlain .hexDec c
  else if c.op = 0x03 then decodePlain .b64Enc c
  else if c.op = 0x04 then decodePlain .b64Dec c
  else if c.op = 0x05 then decodePlain .hexToB64 c
  else if c.op = 0x06 then decodePlain .b64ToHex c
  else if c.op = 0x07 then decodePlain .pad c
  else if c.op = 0x08 then decodeV .unpad c
  else if c.op = 0x10 then decodeXor .xorFixed c
  else if c.op = 0x11 then decodeXor .xorRepeat c
  else if c.op = 0x12 then decodeXor .hamming c
  else if c.op = 0x20 then decodePlain .cbcEnc c
  else if c.op = 0x21 then decodeV .cbcDec c
  else .error .unknownOp

/-- The command a 32-bit word stands for (R97, R100). -/
def decode (w : Word) : Except DecodeError Instr := decodeFields (CmdWord.ofWord w)

/-- The OP number of a command (R95). -/
def Instr.opcode : Instr → BitVec 8
  | .hexEnc => 0x01
  | .hexDec => 0x02
  | .b64Enc => 0x03
  | .b64Dec => 0x04
  | .hexToB64 => 0x05
  | .b64ToHex => 0x06
  | .pad => 0x07
  | .unpad _ => 0x08
  | .xorFixed _ => 0x10
  | .xorRepeat _ => 0x11
  | .hamming _ => 0x12
  | .cbcEnc => 0x20
  | .cbcDec _ => 0x21

/-- The fields of a command's word (R90, R95). -/
def Instr.fields (i : Instr) : CmdWord where
  op := i.opcode
  enc :=
    match i with
    | .xorFixed e | .xorRepeat e | .hamming e => e.bits
    | .hexEnc | .hexDec | .b64Enc | .b64Dec | .hexToB64 | .b64ToHex | .pad => 0
    | .unpad _ | .cbcEnc | .cbcDec _ => 0
  low := 0
  v :=
    match i with
    | .unpad v | .cbcDec v => v
    | .hexEnc | .hexDec | .b64Enc | .b64Dec | .hexToB64 | .b64ToHex | .pad => false
    | .xorFixed _ | .xorRepeat _ | .hamming _ | .cbcEnc => false
  high := 0

/-- The word of a command (R90, R95, R101). -/
def encode (i : Instr) : Word := i.fields.toWord

/-- The instruction the decoder reads from a table word of `nbits` bits, the bits above being 0. A
command is always one 32-bit word (R90, R100). -/
def decodeTableWord (nbits w : Nat) : Option Instr :=
  (decode (BitVec.ofNat 32 (w % 2 ^ nbits))).toOption

end Sys2Proof
end

