-- ==== Sys2Proof/Config.lean ====
section
/-! DEFINITION. The parameters the spec leaves open (00_scope.md R7; 93_implementation_defined.md
P1 to P3) and the free values (U1 to U3). None has a body: nothing in Lean can evaluate one, so
whatever is proved holds for every value. -/

namespace Sys2Proof

/-- `MEM_SIZE - 16`; the type carries the constraint 16 <= MEM_SIZE <= 2^28 (R7; log entry 1). -/
opaque Config.memExtra : Fin (268435440 + 1)

/-- `MEM_SIZE`, the size of BUF in bytes (R7, P1). -/
def Config.memSize : Nat := Config.memExtra.val + 16

/-- Which key lengths the external primitive accepts, apart from the bound that R7 puts on them: any
predicate on the naturals (R7, R252, P3; log entry 1). -/
opaque Config.keyLenAccepted : Nat → Bool

/-- The accepted key lengths of a platform as plain data: those of the open parameter, or a list, for a
platform whose primitive is known (log entry 1). -/
inductive KeyLens where
  /-- The open parameter: the lengths that `Config.keyLenAccepted` says. -/
  | parameter
  /-- Exactly these lengths, of those that are at least 16. -/
  | listed (lens : List Nat)
  deriving DecidableEq, Repr

/-- `BlockKeyOK(n)`: it implies n >= 16 (R7, 43_cbc.md R252). -/
def KeyLens.accepts (lens : KeyLens) (n : Nat) : Bool :=
  decide (16 ≤ n) &&
    match lens with
    | .parameter => Config.keyLenAccepted n
    | .listed l => l.contains n

/-- For each key a permutation of the 16-byte blocks. On a finite set of blocks BCP_INVERSE says of an
accepted key just this: E is a permutation and D its inverse (R7, R250, P2; log entry 2). -/
opaque Config.blockPerm : Bytes → Equiv.Perm Block

/-- The bytes of E(k, x) for a key of a length that is not accepted: nothing is assumed of them (R250). -/
opaque Config.unacceptedEncrypt : Bytes → Block → Fin 16 → BitVec 8

/-- The bytes of D(k, y) for a key of a length that is not accepted: nothing is assumed of them (R250). -/
opaque Config.unacceptedDecrypt : Bytes → Block → Fin 16 → BitVec 8

/-- `E(k, x)` = blockEncrypt(k, x) (R250). -/
def Config.blockEncrypt (lens : KeyLens) (k : Bytes) (x : Block) : Block :=
  if lens.accepts k.length then Config.blockPerm k x
  else ⟨List.ofFn (Config.unacceptedEncrypt k x), List.length_ofFn⟩

/-- `D(k, y)` = blockDecrypt(k, y) (R250). -/
def Config.blockDecrypt (lens : KeyLens) (k : Bytes) (y : Block) : Block :=
  if lens.accepts k.length then (Config.blockPerm k).symm y
  else ⟨List.ofFn (Config.unacceptedDecrypt k y), List.length_ofFn⟩

/-- The n-th free byte: what a read of a BUF byte that nothing has written draws (R50, U1), what a
BUF read while Busy returns (R126, U2), what a read of a byte that an error's havoc left unspecified
draws (R132, R295, U3). Log entry 3. -/
opaque Config.freeByte : Nat → BitVec 8

/-- The n-th free register word: what a read of an unwritten IV or CHAIN register draws (R50, U1),
and what a CHAIN read while Busy returns (R122, U2). Log entry 3. -/
opaque Config.freeWord : Nat → BitVec 32

end Sys2Proof
end

