-- ==== Sys2Proof/Machine/State.lean ====
section
/-! DEFINITION. The state of the engine as plain data (10_state.md), the reasons a step could stop,
and the state after reset (10_state.md R49). -/

namespace Sys2Proof.Machine

/-- No step of this hardware faults: an error is a result of a command, reported in STATUS, and there
are no traps, aborts or machine checks (60_exceptions.md R290). So the type has no constructor. -/
inductive Fault
  deriving DecidableEq, Repr

/-- Why the model gives a command no meaning. -/
inductive Refusal where
  /-- Raised by a refused arm of `exec`, for a command not modelled yet (safe). No arm raises it now. -/
  | notModelled (mnemonic : String)
  deriving DecidableEq, Repr

/-- What the platform fixes when the device is built (00_scope.md R7): the size of BUF and the key
lengths the external primitive accepts. No step changes them (log entry 1). -/
structure Platform where
  memSize : Nat
  keyLens : KeyLens
  deriving DecidableEq, Repr

/-- A register whose value after reset is unspecified: while `written` is false a read draws a free
value and `value` is not looked at (10_state.md R50; log entry 3). -/
structure DataReg where
  value : Word
  written : Bool
  deriving DecidableEq, Repr

/-- BUF: (offset, byte) pairs with offsets strictly rising. An offset that is not listed is unspecified,
never written since reset or made so by a failed CBC_DEC and not written since, and each read of it draws
a fresh free byte (R44, R50; 60_exceptions.md R295; log entries 3 and 7). -/
abbrev Memory := List Host.Cell

/-- The latched command `lat` (10_state.md R46). -/
structure Latched where
  word : Word
  srcAddr : Word
  srcLen : Word
  auxAddr : Word
  auxLen : Word
  dstAddr : Word
  dstCap : Word
  param : Word
  iv : Block
  deriving DecidableEq, Repr

/-- The two operations of the block-cipher port (R45, R251). -/
inductive BcpOp where
  | enc
  | dec
  deriving DecidableEq, Repr

/-- A request to the block-cipher port: (op, key, block) of 10_state.md R45. -/
structure BcpRequest where
  op : BcpOp
  key : Bytes
  block : Block
  deriving DecidableEq, Repr

/-- A CBC command under way, after its pre-checks (43_cbc.md R255, R256; the block index i of
10_state.md R21). The chaining value itself is the CHAIN register (R253). -/
structure CbcRun where
  op : BcpOp
  /-- The V bit of CBC_DEC (false for CBC_ENC). -/
  validate : Bool
  /-- The whole AUX buffer, the key of every request (R252). -/
  key : Bytes
  /-- The m blocks of the padded plaintext or of the ciphertext. -/
  blocks : List Block
  /-- The block index i. -/
  index : Nat
  /-- What the loop has appended to its output. -/
  out : Bytes
  deriving DecidableEq, Repr

/-- How far a running command has come (10_state.md R22; 40_host_and_command.md R135). -/
inductive Progress where
  /-- Started by the CMD write; the engine has taken no step for it yet. -/
  | started
  /-- A CBC command that has passed its pre-checks. -/
  | cbc (run : CbcRun)
  deriving DecidableEq, Repr

/-- The engine phase (10_state.md R22). Busy holds the latched command and its progress. -/
inductive Phase where
  | idle
  | busy (lat : Latched) (progress : Progress)
  deriving DecidableEq, Repr

/-- The error codes a command can produce (60_exceptions.md R291). Code 5, NoCandidateFound, is
reserved and never produced, so it has no constructor. -/
inductive ErrCode where
  | malformedInput
  | lengthMismatch
  | emptyKey
  | invalidLength
  | invalidPadding
  | illegalCommand
  | addressRange
  | bufferOverlap
  | dstOverflow
  deriving DecidableEq, Repr

/-- The operand an error is charged to (60_exceptions.md R292). -/
inductive Operand where
  | command
  | src
  | aux
  | dst
  | param
  deriving DecidableEq, Repr

/-- `Err(code, info)` of the pseudocode's `raise` (00_scope.md R10). -/
structure CmdError where
  code : ErrCode
  info : Operand
  deriving DecidableEq, Repr

/-- What a successful command function returns: the output bytes, the RESULT value and the new
chaining value if the command sets one (R140). -/
structure CmdOk where
  out : Bytes
  result : Nat
  chain : Option Block
  deriving DecidableEq, Repr

/-- The outcome of a command function (40_host_and_command.md R140). -/
inductive CmdOutcome where
  | ok (r : CmdOk)
  | err (e : CmdError) (havoc : Option (Nat × Nat)) (chain : Option Block)
  deriving DecidableEq, Repr

/-- The whole state: what the spec gives the engine (10_state.md), then what the model adds. -/
structure State where
  /-- The parameters of R7, fixed for the device. -/
  platform : Platform
  /-- CTRL.IE (R25). -/
  ie : Bool
  /-- STATUS.DONE (R28). STATUS.BUSY is `phase`, its one home (R22, R27). -/
  done : Bool
  /-- STATUS.ERR (R29). -/
  err : Bool
  /-- STATUS.HAZ (R30). -/
  haz : Bool
  /-- STATUS.BERR (R31). -/
  berr : Bool
  /-- STATUS.ERRCODE (R32). -/
  errcode : Byte
  /-- CMD (R33). -/
  cmd : Word
  /-- SRC_ADDR, SRC_LEN (R34). -/
  srcAddr : Word
  srcLen : Word
  /-- AUX_ADDR, AUX_LEN (R35). -/
  auxAddr : Word
  auxLen : Word
  /-- DST_ADDR, DST_CAP (R36). -/
  dstAddr : Word
  dstCap : Word
  /-- PARAM (R37). -/
  param : Word
  /-- OUT_LEN (R38). -/
  outLen : Word
  /-- RESULT (R39). -/
  result : Word
  /-- ERRINFO bits 2:0; bits 31:3 read 0 (R40). -/
  errinfo : BitVec 3
  /-- IV0 to IV3 (R41). -/
  iv0 : DataReg
  iv1 : DataReg
  iv2 : DataReg
  iv3 : DataReg
  /-- CHAIN0 to CHAIN3 as the 16 bytes of the chaining value (R42). -/
  chain : Block
  /-- Whether a CBC command has written CHAIN since reset (R50). -/
  chainWritten : Bool
  /-- BUF (R44). -/
  buf : Memory
  /-- The phase, with `lat` (R46) while Busy (R22). -/
  phase : Phase
  /-- The request in flight at the block-cipher port (R45). -/
  bcpReq : Option BcpRequest
  /-- The port's answer that the engine has not taken yet (R251). -/
  bcpAnswer : Option Block
  /-- The model's own: the moves of the agents still to come, next first (log entry 4). -/
  agenda : List Event
  /-- The model's own: what the host's last transaction returned, none for a write (log entry 6). -/
  reply : Option Word
  /-- The model's own: how many free values have been drawn (log entry 3). -/
  draws : Nat
  deriving DecidableEq, Repr

/-- The state after reset (10_state.md R49). The values under IV and CHAIN are placeholders that no
read returns while their `written` flag is false (log entry 8). -/
def State.reset : State where
  platform := ⟨Config.memSize, .parameter⟩
  ie := false
  done := false
  err := false
  haz := false
  berr := false
  errcode := 0
  cmd := 0
  srcAddr := 0
  srcLen := 0
  auxAddr := 0
  auxLen := 0
  dstAddr := 0
  dstCap := 0
  param := 0
  outLen := 0
  result := 0
  errinfo := 0
  iv0 := ⟨0, false⟩
  iv1 := ⟨0, false⟩
  iv2 := ⟨0, false⟩
  iv3 := ⟨0, false⟩
  chain := Block.zero
  chainWritten := false
  buf := []
  phase := .idle
  bcpReq := none
  bcpAnswer := none
  agenda := []
  reply := none
  draws := 0

end Sys2Proof.Machine
end

