-- ==== Sys2Proof/Machine/Flags.lean ====
section
/-! DEFINITION. The flags: STATUS as the host reads it and clears it, the numbers of the error codes
and of ERRINFO, and the interrupt line. There are no arithmetic condition codes (10_state.md R48). -/

namespace Sys2Proof.Machine

/-- STATUS.BUSY: the phase is Busy (10_state.md R22, R27). -/
def State.busy (s : State) : Bool :=
  match s.phase with
  | .idle => false
  | .busy _ _ => true

/-- STATUS as a word (10_state.md R26), bit 31 first: reserved, ERRCODE, reserved, BERR, HAZ, ERR,
DONE, BUSY. -/
def State.statusWord (s : State) : Word :=
  0#16 ++ s.errcode ++ 0#3 ++ BitVec.ofBool s.berr ++ BitVec.ofBool s.haz ++ BitVec.ofBool s.err
    ++ BitVec.ofBool s.done ++ BitVec.ofBool s.busy

/-- CTRL as a word: IE in bit 0, the rest reads 0 (10_state.md R25). -/
def State.ctrlWord (s : State) : Word := 0#31 ++ BitVec.ofBool s.ie

/-- A host write of `w` to STATUS while Idle: write-1-to-clear of DONE, ERR, HAZ and BERR, every other
bit ignored (10_state.md R26). It is also the return from an error (60_exceptions.md R298). -/
def State.clearStatus (w : Word) (s : State) : State :=
  { s with
    done := s.done && !w.getLsbD 1
    err := s.err && !w.getLsbD 2
    haz := s.haz && !w.getLsbD 3
    berr := s.berr && !w.getLsbD 4 }

/-- The interrupt output (10_state.md R47, 60_exceptions.md R300). -/
def State.irq (s : State) : Bool := s.ie && s.done

/-- ERRCODE numbers (60_exceptions.md R291). -/
def ErrCode.number : ErrCode → Byte
  | .malformedInput => 1
  | .lengthMismatch => 2
  | .emptyKey => 3
  | .invalidLength => 4
  | .invalidPadding => 6
  | .illegalCommand => 0x10
  | .addressRange => 0x11
  | .bufferOverlap => 0x12
  | .dstOverflow => 0x13

/-- ERRINFO numbers (60_exceptions.md R292). -/
def Operand.number : Operand → BitVec 3
  | .command => 0
  | .src => 1
  | .aux => 2
  | .dst => 3
  | .param => 4

end Sys2Proof.Machine
end

