-- ==== Sys2Proof/Machine/Ops.lean ====
section
/-! DEFINITION. The named operations over memory and registers: byte packing, BUF, the free values,
the control registers, the start of a command, its completion and the error entry, and reset. -/

namespace Sys2Proof.Machine

/-! ### Bytes, words and blocks -/

/-- The four bytes of a word, little-endian (20_memory.md R65, 10_state.md R41). -/
def wordBytes (w : Word) : Bytes :=
  [w.extractLsb' 0 8, w.extractLsb' 8 8, w.extractLsb' 16 8, w.extractLsb' 24 8]

/-- The little-endian word of the first four bytes of a list, zero-extended if there are fewer
(20_memory.md R65). -/
def bytesWord (b : Bytes) : Word := b.getD 3 0 ++ b.getD 2 0 ++ b.getD 1 0 ++ b.getD 0 0

/-- The block of the first 16 bytes of a list (00_scope.md R9); every use gives it 16. -/
def blockOfBytes (b : Bytes) : Block :=
  ⟨(b ++ List.replicate 16 0).take 16, by simp⟩

/-- The 16 bytes of four registers: byte j is in register j div 4, little-endian (10_state.md R41). -/
def blockOfWords (w0 w1 w2 w3 : Word) : Block :=
  ⟨wordBytes w0 ++ wordBytes w1 ++ wordBytes w2 ++ wordBytes w3, rfl⟩

/-- Register r of the four that hold a block (10_state.md R41, R42). -/
def blockWord (b : Block) (r : Nat) : Word := bytesWord (b.bytes.drop (4 * r))

/-! ### BUF and the free values -/

/-- Offsets strictly rising: the one form a memory has. -/
abbrev Memory.wf (m : Memory) : Prop := m.Pairwise (fun x y => x.1 < y.1)

/-- The byte at an offset, none if it is unspecified (10_state.md R50, 60_exceptions.md R295). -/
def Memory.byte? (m : Memory) (a : Nat) : Option Byte :=
  match m with
  | [] => none
  | (k, b) :: rest => if k = a then some b else Memory.byte? rest a

/-- Write one byte, keeping the offsets rising. -/
def Memory.write (m : Memory) (a : Nat) (b : Byte) : Memory :=
  match m with
  | [] => [(a, b)]
  | (k, c) :: rest =>
    if a < k then (a, b) :: (k, c) :: rest
    else if a = k then (a, b) :: rest
    else (k, c) :: Memory.write rest a b

/-- `MemWrite(addr, n, v)`: byte i of the sequence goes to offset addr + i (00_scope.md R10, 20_memory.md R64). -/
def Memory.writeBytes (m : Memory) (a : Nat) (bs : Bytes) : Memory :=
  match bs with
  | [] => m
  | b :: rest => Memory.writeBytes (m.write a b) (a + 1) rest

/-- `MemRead(addr, n)` (00_scope.md R10, 20_memory.md R64). An unspecified byte at addr + i reads as
the free byte number d + i (10_state.md R50). -/
def Memory.readBytes (m : Memory) (d a n : Nat) : Bytes :=
  (List.range n).map fun i => (m.byte? (a + i)).getD (Config.freeByte (d + i))

/-- The next n free bytes. -/
def freeBytes (d n : Nat) : Bytes := (List.range n).map fun i => Config.freeByte (d + i)

/-- What a register whose reset value is unspecified reads as: the free word number d until it has
been written (10_state.md R50). -/
def DataReg.read (r : DataReg) (d : Nat) : Word := if r.written then r.value else Config.freeWord d

/-- Make the n bytes at offset a unspecified: they are no longer listed, so that each read of one is a
fresh draw. -/
def Memory.forget (m : Memory) (a n : Nat) : Memory := m.filter fun c => !(decide (a ≤ c.1) && decide (c.1 < a + n))

/-- Make every byte of the range unspecified until it is next written; no range leaves BUF as it is
(40_host_and_command.md R132, 60_exceptions.md R295, U3; log entry 7). -/
def State.havoc (range : Option (Nat × Nat)) (s : State) : State :=
  { s with
    buf :=
      match range with
      | none => s.buf
      | some (a, n) => s.buf.forget a n }

/-! ### Start, completion and the error entry -/

/-- The latched command of a start with command word w; register IVr, if unwritten, is the free word
number draws + r (10_state.md R46, R50; 40_host_and_command.md R130). -/
def State.latch (w : Word) (s : State) : Latched where
  word := w
  srcAddr := s.srcAddr
  srcLen := s.srcLen
  auxAddr := s.auxAddr
  auxLen := s.auxLen
  dstAddr := s.dstAddr
  dstCap := s.dstCap
  param := s.param
  iv := blockOfWords (s.iv0.read s.draws) (s.iv1.read (s.draws + 1)) (s.iv2.read (s.draws + 2))
    (s.iv3.read (s.draws + 3))

/-- The start step (40_host_and_command.md R129). -/
def State.start (w : Word) (s : State) : State :=
  { s with
    cmd := w
    phase := .busy (s.latch w) .started
    done := false
    err := false
    errcode := 0
    outLen := 0
    result := 0
    errinfo := 0
    draws := s.draws + 4 }

/-- The completion step of a successful command (40_host_and_command.md R132). -/
def State.succeed (lat : Latched) (r : CmdOk) (s : State) : State :=
  { s with
    buf := s.buf.writeBytes lat.dstAddr.toNat r.out
    outLen := BitVec.ofNat 32 r.out.length
    result := BitVec.ofNat 32 r.result
    chain := r.chain.getD s.chain
    chainWritten := s.chainWritten || r.chain.isSome
    err := false
    errcode := 0
    errinfo := 0
    done := true
    phase := .idle }

/-- The error entry, the one operation by which a command ends with an error: the flags, the code and
the operand charged. It saves nothing and transfers no control (60_exceptions.md R297). -/
def State.errorEntry (e : CmdError) (s : State) : State :=
  { s with
    err := true
    errcode := e.code.number
    errinfo := e.info.number
    done := true
    phase := .idle }

/-- CHAIN <- chain' if the outcome has one (40_host_and_command.md R132). -/
def State.setChain (c : Option Block) (s : State) : State :=
  { s with chain := c.getD s.chain, chainWritten := s.chainWritten || c.isSome }

/-- The completion step (40_host_and_command.md R132). -/
def State.complete (lat : Latched) (o : CmdOutcome) (s : State) : State :=
  match o with
  | .ok r => s.succeed lat r
  | .err e havoc c => ((s.havoc havoc).setChain c).errorEntry e

/-- Count the draws of reading the SRC buffer of a command, and its AUX buffer if it uses one (log
entry 3). -/
def State.drawOperands (usesAux : Bool) (lat : Latched) (s : State) : State :=
  { s with draws := s.draws + lat.srcLen.toNat + if usesAux then lat.auxLen.toNat else 0 }

/-- A command that runs to its outcome in one engine step (40_host_and_command.md R135, R140). An Idle
engine takes no step (R120). -/
def runCommand (usesAux : Bool) (f : State → Latched → CmdOutcome) (s : State) :
    Host.Outcome State Fault Refusal :=
  match s.phase with
  | .idle => .next s
  | .busy lat _ => .next ((s.drawOperands usesAux lat).complete lat (f s lat))

/-- A command word that `decode` rejects completes with IllegalCommand, charged to the command word
(30_encoding.md R97, R98). -/
def State.illegalCommand (lat : Latched) (s : State) : State :=
  s.complete lat (.err ⟨.illegalCommand, .command⟩ none none)

/-! ### Control registers -/

/-- The word slot at a well-formed CSR offset (10_state.md R23, R43). -/
def csrAt (off : Nat) : Csr :=
  if off = 0x00 then .id
  else if off = 0x04 then .ctrl
  else if off = 0x08 then .status
  else if off = 0x0C then .cmd
  else if off = 0x10 then .srcAddr
  else if off = 0x14 then .srcLen
  else if off = 0x18 then .auxAddr
  else if off = 0x1C then .auxLen
  else if off = 0x20 then .dstAddr
  else if off = 0x24 then .dstCap
  else if off = 0x28 then .param
  else if off = 0x2C then .outLen
  else if off = 0x30 then .result
  else if off = 0x34 then .errinfo
  else if off = 0x40 then .iv0
  else if off = 0x44 then .iv1
  else if off = 0x48 then .iv2
  else if off = 0x4C then .iv3
  else if off = 0x50 then .chain0
  else if off = 0x54 then .chain1
  else if off = 0x58 then .chain2
  else if off = 0x5C then .chain3
  else .reserved

/-- CHAINr as the host reads it: arbitrary while Busy and before the first write, else the bytes of
the chaining value (10_state.md R42, R50; 40_host_and_command.md R122). -/
def State.chainWord (r : Nat) (s : State) : Word :=
  if s.busy || !s.chainWritten then Config.freeWord s.draws else blockWord s.chain r

/-- The value of a register as a well-formed host read returns it (10_state.md R23 to R43). -/
def State.csrValue (c : Csr) (s : State) : Word :=
  match c with
  | .id => 0x43424307
  | .ctrl => s.ctrlWord
  | .status => s.statusWord
  | .cmd => s.cmd
  | .srcAddr => s.srcAddr
  | .srcLen => s.srcLen
  | .auxAddr => s.auxAddr
  | .auxLen => s.auxLen
  | .dstAddr => s.dstAddr
  | .dstCap => s.dstCap
  | .param => s.param
  | .outLen => s.outLen
  | .result => s.result
  | .errinfo => s.errinfo.setWidth 32
  | .iv0 => s.iv0.read s.draws
  | .iv1 => s.iv1.read s.draws
  | .iv2 => s.iv2.read s.draws
  | .iv3 => s.iv3.read s.draws
  | .chain0 => s.chainWord 0
  | .chain1 => s.chainWord 1
  | .chain2 => s.chainWord 2
  | .chain3 => s.chainWord 3
  | .reserved => 0

/-- A well-formed host write of v while Idle (40_host_and_command.md R123). Read-only and reserved
slots ignore it (10_state.md R23, R43). -/
def State.csrStore (c : Csr) (v : Word) (s : State) : State :=
  match c with
  | .ctrl => { s with ie := v.getLsbD 0 }
  | .status => s.clearStatus v
  | .cmd => s.start v
  | .srcAddr => { s with srcAddr := v }
  | .srcLen => { s with srcLen := v }
  | .auxAddr => { s with auxAddr := v }
  | .auxLen => { s with auxLen := v }
  | .dstAddr => { s with dstAddr := v }
  | .dstCap => { s with dstCap := v }
  | .param => { s with param := v }
  | .iv0 => { s with iv0 := ⟨v, true⟩ }
  | .iv1 => { s with iv1 := ⟨v, true⟩ }
  | .iv2 => { s with iv2 := ⟨v, true⟩ }
  | .iv3 => { s with iv3 := ⟨v, true⟩ }
  | .id | .outLen | .result | .errinfo | .chain0 | .chain1 | .chain2 | .chain3 | .reserved => s

/-! ### Reset and loading a command -/

/-- The reset input (70_reset_and_hazards.md R330, R331): every piece of the spec's state goes to its
value after reset, in either phase. The platform's parameters, the moves still to come and the count
of free values drawn are not the device's and stay (log entry 10). -/
def State.applyReset (s : State) : State :=
  { State.reset with platform := s.platform, agenda := s.agenda, draws := s.draws }

/-- The state in which the command word w has just been written to CMD and the engine moves next: the
start step of R129 on an engine with no request in flight (log entry 9). -/
def State.placeCommand (w : Word) (s : State) : State :=
  let s' := { s with bcpReq := none, bcpAnswer := none }.start w
  { s' with agenda := if s.agenda = [] then [] else .engine :: s.agenda }

end Sys2Proof.Machine
end

