-- ==== Sys2Proof/Machine/Bus.lean ====
section
/-! DEFINITION. The host's bus transactions (40_host_and_command.md R121 to R128; 20_memory.md R65 to
R72). A malformed access is found first and sets BERR only; then the busy lockout applies (R125). -/

namespace Sys2Proof.Machine

/-- A width in bytes. -/
def widthBytes : Width → Nat
  | .one => 1
  | .two => 2
  | .four => 4

/-- A CSR access is well-formed when it is 32 bits wide at a 4-byte-aligned offset in 0x00 to 0xFC
(20_memory.md R67). -/
def csrAccessOk (off : Nat) (w : Width) : Bool := w == .four && off % 4 == 0 && decide (off ≤ 0xFC)

/-- A BUF access is well-formed when it is naturally aligned and ends inside BUF (20_memory.md R66). -/
def bufAccessOk (memSize off : Nat) (w : Width) : Bool :=
  off % widthBytes w == 0 && decide (off + widthBytes w ≤ memSize)

/-- `CsrRead(off, w)` (40_host_and_command.md R122). -/
def State.csrRead (off : Nat) (w : Width) (s : State) : State :=
  if csrAccessOk off w then { s with reply := some (s.csrValue (csrAt off)), draws := s.draws + 1 }
  else { s with berr := true, reply := some 0 }

/-- `CsrWrite(off, w, v)` (40_host_and_command.md R123 while Idle, R124 while Busy). -/
def State.csrWrite (off : Nat) (w : Width) (v : Word) (s : State) : State :=
  if csrAccessOk off w then
    if s.busy then { s with haz := true, reply := none }
    else { s.csrStore (csrAt off) v with reply := none }
  else { s with berr := true, reply := none }

/-- `BufRead(off, w)` (40_host_and_command.md R126, R128; little-endian, 20_memory.md R65). -/
def State.bufRead (off : Nat) (w : Width) (s : State) : State :=
  let n := widthBytes w
  if bufAccessOk s.platform.memSize off w then
    if s.busy then
      { s with haz := true, reply := some (bytesWord (freeBytes s.draws n)), draws := s.draws + n }
    else
      { s with reply := some (bytesWord (s.buf.readBytes s.draws off n)), draws := s.draws + n }
  else { s with berr := true, reply := some 0 }

/-- `BufWrite(off, w, v)` (40_host_and_command.md R127, R128; little-endian, 20_memory.md R65). -/
def State.bufWrite (off : Nat) (w : Width) (v : Word) (s : State) : State :=
  let n := widthBytes w
  if bufAccessOk s.platform.memSize off w then
    if s.busy then { s with haz := true, reply := none }
    else { s with buf := s.buf.writeBytes off ((wordBytes v).take n), reply := none }
  else { s with berr := true, reply := none }

/-- One host transaction, one atomic step (R121). -/
def hostStep (t : HostOp) (s : State) : State :=
  match t with
  | .csrRead off w => s.csrRead off w
  | .csrWrite off w v => s.csrWrite off w v
  | .bufRead off w => s.bufRead off w
  | .bufWrite off w v => s.bufWrite off w v

end Sys2Proof.Machine
end

