-- ==== Sys2Proof/Machine/Operands.lean ====
section
/-! DEFINITION. The operand forms of a command and their checks (30_encoding.md R96;
40_host_and_command.md R131, R137 to R139; 20_memory.md R62, R63). Sums are on unbounded naturals. -/

namespace Sys2Proof.Machine

/-- The pseudocode's `Result<T>` (00_scope.md R10). -/
abbrev Res (α : Type) := Except CmdError α

/-- `raise Err(code, info)` (00_scope.md R10). -/
def raise {α : Type} (code : ErrCode) (info : Operand) : Res α := .error ⟨code, info⟩

/-- Go on only if the condition for the error does not hold. -/
def failIf (bad : Prop) [Decidable bad] (code : ErrCode) (info : Operand) : Res Unit :=
  if bad then raise code info else .ok ()

/-- The SRC buffer as the command reads it: unwritten bytes draw from number draws on (R130). -/
def srcBytes (s : State) (lat : Latched) : Bytes :=
  s.buf.readBytes s.draws lat.srcAddr.toNat lat.srcLen.toNat

/-- The AUX buffer as the command reads it: its draws come after those of SRC (R130). -/
def auxBytes (s : State) (lat : Latched) : Bytes :=
  s.buf.readBytes (s.draws + lat.srcLen.toNat) lat.auxAddr.toNat lat.auxLen.toNat

/-- `src_buf()` (R137). -/
def srcBuf (s : State) (lat : Latched) : Res Bytes := do
  failIf (lat.srcAddr.toNat + lat.srcLen.toNat > s.platform.memSize) .addressRange .src
  return srcBytes s lat

/-- `aux_buf()` (R137). -/
def auxBuf (s : State) (lat : Latched) : Res Bytes := do
  failIf (lat.auxAddr.toNat + lat.auxLen.toNat > s.platform.memSize) .addressRange .aux
  return auxBytes s lat

/-- `dst_check()` (R137). -/
def dstCheck (s : State) (lat : Latched) : Res Unit :=
  failIf (lat.dstAddr.toNat + lat.dstCap.toNat > s.platform.memSize) .addressRange .dst

/-- Two buffers overlap (20_memory.md R63). -/
def overlaps (a1 l1 a2 l2 : Nat) : Bool :=
  decide (l1 > 0) && decide (l2 > 0) && decide (a1 < a2 + l2) && decide (a2 < a1 + l1)

/-- DST's whole capacity range overlaps SRC (R138). -/
def dstOverlapsSrc (lat : Latched) : Bool :=
  overlaps lat.dstAddr.toNat lat.dstCap.toNat lat.srcAddr.toNat lat.srcLen.toNat

/-- DST's whole capacity range overlaps AUX (R138). -/
def dstOverlapsAux (lat : Latched) : Bool :=
  overlaps lat.dstAddr.toNat lat.dstCap.toNat lat.auxAddr.toNat lat.auxLen.toNat

/-- `overlap_check(uses_aux)` (R138). -/
def overlapCheck (lat : Latched) (usesAux : Bool) : Res Unit := do
  failIf (dstOverlapsSrc lat = true) .bufferOverlap .src
  failIf (usesAux = true ∧ dstOverlapsAux lat = true) .bufferOverlap .aux

/-- `cap_check(n)` (R139). -/
def capCheck (lat : Latched) (n : Nat) : Res Unit :=
  failIf (n > lat.dstCap.toNat) .dstOverflow .dst

/-- `BlockKeyOK(n)` of this platform's primitive (00_scope.md R7, 43_cbc.md R252). -/
def blockKeyOk (s : State) (n : Nat) : Bool := s.platform.keyLens.accepts n

/-- An error raised inside a command function becomes `Err(code, info, None, None)` (R140). -/
def outcomeOf (r : Res CmdOk) : CmdOutcome :=
  match r with
  | .ok r => .ok r
  | .error e => .err e none none

end Sys2Proof.Machine
end

