-- ==== Sys2Proof/Machine/Codec.lean ====
section
/-! DEFINITION. The byte-encoding codec: its functions (41_codec.md R160 to R169) and the meanings of
its eight commands (R170 to R177). -/

namespace Sys2Proof.Machine

/-! ### Hexadecimal text -/

/-- R160. -/
def hexVal (c : Byte) : Option Nat :=
  let n := c.toNat
  if 0x30 ≤ n ∧ n ≤ 0x39 then some (n - 0x30)
  else if 0x61 ≤ n ∧ n ≤ 0x66 then some (n - 0x61 + 10)
  else if 0x41 ≤ n ∧ n ≤ 0x46 then some (n - 0x41 + 10)
  else none

/-- R161. -/
def hexChar (d : Nat) : Byte :=
  if d ≤ 9 then BitVec.ofNat 8 (0x30 + d) else BitVec.ofNat 8 (0x61 + d - 10)

/-- R163: each byte becomes two characters, high nibble first. -/
def hexEncode (b : Bytes) : Bytes :=
  b.flatMap fun (x : Byte) => [hexChar (x >>> 4).toNat, hexChar (x &&& 0x0F).toNat]

/-- The bytes of a text of hex digits, two digits a byte (R164's last line). -/
def hexPairs (s : Bytes) : Bytes :=
  match s with
  | hi :: lo :: rest =>
    BitVec.ofNat 8 ((((hexVal hi).getD 0) <<< 4) ||| ((hexVal lo).getD 0)) :: hexPairs rest
  | _ => []

/-- R164. -/
def hexDecode (s : Bytes) (id : Operand) : Res Bytes := do
  failIf (s.length % 2 = 1) .malformedInput id
  failIf (s.any (fun c => (hexVal c).isNone) = true) .malformedInput id
  return hexPairs s

/-! ### Base64 text -/

/-- The padding character '='. -/
def b64Pad : Byte := 0x3D

/-- R162. -/
def b64Char (i : Nat) : Byte :=
  if i ≤ 25 then BitVec.ofNat 8 (0x41 + i)
  else if i ≤ 51 then BitVec.ofNat 8 (0x61 + (i - 26))
  else if i ≤ 61 then BitVec.ofNat 8 (0x30 + (i - 52))
  else if i = 62 then 0x2B
  else 0x2F

/-- R162: the inverse of `b64Char` on the 64 characters. -/
def b64Val (c : Byte) : Option Nat :=
  let n := c.toNat
  if 0x41 ≤ n ∧ n ≤ 0x5A then some (n - 0x41)
  else if 0x61 ≤ n ∧ n ≤ 0x7A then some (n - 0x61 + 26)
  else if 0x30 ≤ n ∧ n ≤ 0x39 then some (n - 0x30 + 52)
  else if n = 0x2B then some 62
  else if n = 0x2F then some 63
  else none

/-- The 6-bit group of a 24-bit accumulator with low bit `lo`. -/
def sextet (acc : BitVec 24) (lo : Nat) : Nat := (acc.extractLsb' lo 6).toNat

/-- R165: three bytes to four characters, first byte most significant; a last partial group is
zero-extended and padded with '='. -/
def b64Encode (b : Bytes) : Bytes :=
  match b with
  | [] => []
  | [x] =>
    let acc : BitVec 24 := x ++ 0#8 ++ 0#8
    [b64Char (sextet acc 18), b64Char (sextet acc 12), b64Pad, b64Pad]
  | [x, y] =>
    let acc : BitVec 24 := x ++ y ++ 0#8
    [b64Char (sextet acc 18), b64Char (sextet acc 12), b64Char (sextet acc 6), b64Pad]
  | x :: y :: z :: rest =>
    let acc : BitVec 24 := x ++ y ++ z
    b64Char (sextet acc 18) :: b64Char (sextet acc 12) :: b64Char (sextet acc 6)
      :: b64Char (sextet acc 0) :: b64Encode rest

/-- The number of consecutive '=' at the end of a text (R166). -/
def b64PadCount (s : Bytes) : Nat := (s.reverse.takeWhile (fun c => c == b64Pad)).length

/-- Four 6-bit values to three bytes, again and again (R166's loop). -/
def b64Quads (vals : List Nat) : Bytes :=
  match vals with
  | g0 :: g1 :: g2 :: g3 :: rest =>
    let acc : BitVec 24 :=
      BitVec.ofNat 24 ((g0 <<< 18) ||| (g1 <<< 12) ||| (g2 <<< 6) ||| g3)
    acc.extractLsb' 16 8 :: acc.extractLsb' 8 8 :: acc.extractLsb' 0 8 :: b64Quads rest
  | _ => []

/-- The value of the character at position j of a text, 0 where it has none. -/
def b64ValAt (s : Bytes) (j : Nat) : Nat := (b64Val (s.getD j b64Pad)).getD 0

/-- R166. -/
def b64Decode (s : Bytes) (id : Operand) : Res Bytes := do
  let l := s.length
  let pad := b64PadCount s
  failIf (l % 4 ≠ 0) .malformedInput id
  failIf (pad > 2) .malformedInput id
  failIf ((s.take (l - pad)).any (fun c => (b64Val c).isNone) = true) .malformedInput id
  failIf (pad = 2 ∧ b64ValAt s (l - 3) &&& 0x0F ≠ 0) .malformedInput id
  failIf (pad = 1 ∧ b64ValAt s (l - 2) &&& 0x03 ≠ 0) .malformedInput id
  return (b64Quads ((List.range l).map fun j => if j < l - pad then b64ValAt s j else 0)).take
    (3 * l / 4 - pad)

/-! ### Padding -/

/-- R168. -/
def padBlock (b : Bytes) (t : Nat) (id : Operand) : Res Bytes := do
  failIf (t < b.length) .invalidLength id
  let k := t - b.length
  failIf (k > 255) .invalidLength id
  return b ++ List.replicate k (BitVec.ofNat 8 k)

/-- The last byte of a sequence as a number, 0 if there is none. -/
def lastByte (b : Bytes) : Nat := (b.getLastD 0).toNat

/-- R169: V = 0 removes as many bytes as the last byte says, V = 1 checks them first. -/
def unpad (b : Bytes) (v : Bool) (limit : Nat) (id : Operand) : Res Bytes := do
  let n := b.length
  let p := lastByte b
  if v then
    failIf (n = 0) .invalidPadding id
    failIf (p = 0 ∨ p > n ∨ p > limit) .invalidPadding id
    failIf ((b.drop (n - p)).any (fun x => x.toNat != p) = true) .invalidPadding id
    return b.take (n - p)
  else
    failIf (p > n) .invalidLength id
    return b.take (n - p)

/-! ### The commands -/

/-- `f_HEX_ENC` (R170). -/
def hexEncF (s : State) (lat : Latched) : CmdOutcome := outcomeOf do
  let b ← srcBuf s lat
  dstCheck s lat
  overlapCheck lat false
  let out := hexEncode b
  capCheck lat out.length
  return ⟨out, 0, none⟩

/-- `f_HEX_DEC` (R171). -/
def hexDecF (s : State) (lat : Latched) : CmdOutcome := outcomeOf do
  let t ← srcBuf s lat
  dstCheck s lat
  overlapCheck lat false
  let out ← hexDecode t .src
  capCheck lat out.length
  return ⟨out, 0, none⟩

/-- `f_B64_ENC` (R172). -/
def b64EncF (s : State) (lat : Latched) : CmdOutcome := outcomeOf do
  let b ← srcBuf s lat
  dstCheck s lat
  overlapCheck lat false
  let out := b64Encode b
  capCheck lat out.length
  return ⟨out, 0, none⟩

/-- `f_B64_DEC` (R173). -/
def b64DecF (s : State) (lat : Latched) : CmdOutcome := outcomeOf do
  let t ← srcBuf s lat
  dstCheck s lat
  overlapCheck lat false
  let out ← b64Decode t .src
  capCheck lat out.length
  return ⟨out, 0, none⟩

/-- `f_HEX_TO_B64` (R174): composed through bytes that are never written to BUF. -/
def hexToB64F (s : State) (lat : Latched) : CmdOutcome := outcomeOf do
  let t ← srcBuf s lat
  dstCheck s lat
  overlapCheck lat false
  let b ← hexDecode t .src
  let out := b64Encode b
  capCheck lat out.length
  return ⟨out, 0, none⟩

/-- `f_B64_TO_HEX` (R175). -/
def b64ToHexF (s : State) (lat : Latched) : CmdOutcome := outcomeOf do
  let t ← srcBuf s lat
  dstCheck s lat
  overlapCheck lat false
  let b ← b64Decode t .src
  let out := hexEncode b
  capCheck lat out.length
  return ⟨out, 0, none⟩

/-- `f_PAD` (R176): an InvalidLength is charged to PARAM. -/
def padF (s : State) (lat : Latched) : CmdOutcome := outcomeOf do
  let b ← srcBuf s lat
  dstCheck s lat
  overlapCheck lat false
  let out ← padBlock b lat.param.toNat .param
  capCheck lat out.length
  return ⟨out, 0, none⟩

/-- `f_UNPAD` (R177): the limit of a validated pad is 255. -/
def unpadF (v : Bool) (s : State) (lat : Latched) : CmdOutcome := outcomeOf do
  let b ← srcBuf s lat
  dstCheck s lat
  overlapCheck lat false
  let out ← unpad b v 255 .src
  capCheck lat out.length
  return ⟨out, 0, none⟩

/-- HEX_ENC (R170). -/
def execHexEnc (s : State) : Host.Outcome State Fault Refusal := runCommand false hexEncF s

/-- HEX_DEC (R171). -/
def execHexDec (s : State) : Host.Outcome State Fault Refusal := runCommand false hexDecF s

/-- B64_ENC (R172). -/
def execB64Enc (s : State) : Host.Outcome State Fault Refusal := runCommand false b64EncF s

/-- B64_DEC (R173). -/
def execB64Dec (s : State) : Host.Outcome State Fault Refusal := runCommand false b64DecF s

/-- HEX_TO_B64 (R174). -/
def execHexToB64 (s : State) : Host.Outcome State Fault Refusal := runCommand false hexToB64F s

/-- B64_TO_HEX (R175). -/
def execB64ToHex (s : State) : Host.Outcome State Fault Refusal := runCommand false b64ToHexF s

/-- PAD (R176). -/
def execPad (s : State) : Host.Outcome State Fault Refusal := runCommand false padF s

/-- UNPAD (R177). -/
def execUnpad (v : Bool) (s : State) : Host.Outcome State Fault Refusal := runCommand false (unpadF v) s

end Sys2Proof.Machine
end

