-- ==== Sys2Proof/Machine/Xor.lean ====
section
/-! DEFINITION. The XOR datapath: its functions (42_xor.md R220 to R223) and the meanings of XOR_FIXED,
XOR_REPEAT and HAMMING (R224 to R226). -/

namespace Sys2Proof.Machine

/-- `decodeAs` (R220). -/
def decodeAs (enc : Enc) (s : Bytes) (id : Operand) : Res Bytes :=
  match enc with
  | .raw => .ok s
  | .hex => hexDecode s id
  | .b64 => b64Decode s id

/-- `encodeAs` (R220). -/
def encodeAs (enc : Enc) (b : Bytes) : Bytes :=
  match enc with
  | .raw => b
  | .hex => hexEncode b
  | .b64 => b64Encode b

/-- Byte by byte exclusive-or of two sequences of one length (R221's second line). -/
def xorBytes (a b : Bytes) : Bytes := List.zipWith (· ^^^ ·) a b

/-- R221. -/
def fixedXor (a b : Bytes) (id : Operand) : Res Bytes := do
  failIf (a.length ≠ b.length) .lengthMismatch id
  return xorBytes a b

/-- R222: byte i of the text against byte i mod len(k) of the key. -/
def repeatingKeyXor (t k : Bytes) (id : Operand) : Res Bytes := do
  failIf (k.length = 0) .emptyKey id
  return (List.range t.length).map fun i => t.getD i 0 ^^^ k.getD (i % k.length) 0

/-- The number of 1 bits of a byte (00_scope.md R8). -/
def popcount (b : Byte) : Nat := (List.range 8).countP fun i => b.getLsbD i

/-- R223. -/
def hamming (a b : Bytes) (id : Operand) : Res Nat := do
  let x ← fixedXor a b id
  return (x.map popcount).sum

/-- `f_XOR_FIXED` (R224). -/
def xorFixedF (enc : Enc) (s : State) (lat : Latched) : CmdOutcome := outcomeOf do
  let b ← srcBuf s lat
  let a ← auxBuf s lat
  dstCheck s lat
  overlapCheck lat true
  let x ← decodeAs enc b .src
  let y ← decodeAs enc a .aux
  let r ← fixedXor x y .aux
  let out := encodeAs enc r
  capCheck lat out.length
  return ⟨out, 0, none⟩

/-- `f_XOR_REPEAT` (R225). -/
def xorRepeatF (enc : Enc) (s : State) (lat : Latched) : CmdOutcome := outcomeOf do
  let b ← srcBuf s lat
  let a ← auxBuf s lat
  dstCheck s lat
  overlapCheck lat true
  let t ← decodeAs enc b .src
  let k ← decodeAs enc a .aux
  let r ← repeatingKeyXor t k .aux
  let out := encodeAs enc r
  capCheck lat out.length
  return ⟨out, 0, none⟩

/-- `f_HAMMING` (R226): DST is neither checked nor written. -/
def hammingF (enc : Enc) (s : State) (lat : Latched) : CmdOutcome := outcomeOf do
  let b ← srcBuf s lat
  let a ← auxBuf s lat
  let x ← decodeAs enc b .src
  let y ← decodeAs enc a .aux
  let d ← hamming x y .aux
  return ⟨[], d, none⟩

/-- XOR_FIXED (R224). -/
def execXorFixed (enc : Enc) (s : State) : Host.Outcome State Fault Refusal :=
  runCommand true (xorFixedF enc) s

/-- XOR_REPEAT (R225). -/
def execXorRepeat (enc : Enc) (s : State) : Host.Outcome State Fault Refusal :=
  runCommand true (xorRepeatF enc) s

/-- HAMMING (R226). -/
def execHamming (enc : Enc) (s : State) : Host.Outcome State Fault Refusal :=
  runCommand true (hammingF enc) s

end Sys2Proof.Machine
end

