-- ==== Sys2Proof/Machine/Cbc.lean ====
section
/-! DEFINITION. The CBC chaining engine: the block-cipher port (43_cbc.md R250 to R252), the combiner
(R253), the two passes (R254 to R256), the meanings of CBC_ENC and CBC_DEC (R257, R258) and the engine
steps that follow them. -/

namespace Sys2Proof.Machine

/-! ### The two passes as functions -/

/-- The combiner: one 16-byte XOR (R253). -/
def Block.xor (a b : Block) : Block :=
  ⟨xorBytes a.bytes b.bytes, by simp [xorBytes, a.size_eq, b.size_eq]⟩

/-- R254. -/
def cbcPadLen (n : Nat) : Nat := 16 - n % 16

/-- The plaintext with its padding (R257, step 1). -/
def cbcPadded (p : Bytes) : Bytes :=
  p ++ List.replicate (cbcPadLen p.length) (BitVec.ofNat 8 (cbcPadLen p.length))

/-- The 16-byte slices of a sequence whose length is a multiple of 16 (R255, R256). -/
def toBlocks (b : Bytes) : List Block :=
  (List.range (b.length / 16)).map fun i => blockOfBytes (b.drop (16 * i))

/-- R255: the ciphertext and the last chaining value, for a block function E(k, ·). -/
def cbcEncryptBlocks (e : Block → Block) (chain : Block) (ps : List Block) : Bytes × Block :=
  match ps with
  | [] => ([], chain)
  | p :: rest =>
    let c := e (Block.xor p chain)
    let r := cbcEncryptBlocks e c rest
    (c.bytes ++ r.1, r.2)

/-- R256: the padded plaintext and the last chaining value, for a block function D(k, ·). -/
def cbcDecryptBlocks (d : Block → Block) (chain : Block) (cs : List Block) : Bytes × Block :=
  match cs with
  | [] => ([], chain)
  | c :: rest =>
    let r := cbcDecryptBlocks d c rest
    ((Block.xor (d c) chain).bytes ++ r.1, r.2)

/-! ### The block-cipher port -/

/-- `BCP(op, k, x)` (R250, R251). -/
def bcpFunction (lens : KeyLens) (r : BcpRequest) : Block :=
  match r.op with
  | .enc => Config.blockEncrypt lens r.key r.block
  | .dec => Config.blockDecrypt lens r.key r.block

/-- The port's step, enabled when a request is in flight (R251). With none it does nothing, so an
answer to a request that a reset dropped is discarded (70_reset_and_hazards.md R331). -/
def bcpStep (s : State) : State :=
  match s.bcpReq with
  | none => s
  | some r => { s with bcpReq := none, bcpAnswer := some (bcpFunction s.platform.keyLens r) }

/-! ### The engine's part of the passes -/

/-- What a CBC command ends with once every block is answered: CBC_ENC its ciphertext (R257), CBC_DEC
what is left of its plaintext after un-padding, or the padding error with its havoc range (R258). -/
def cbcOutcome (lat : Latched) (run : CbcRun) (chain : Block) : CmdOutcome :=
  match run.op with
  | .enc => .ok ⟨run.out, 0, some chain⟩
  | .dec =>
    match unpad run.out run.validate 16 .dst with
    | .ok out => .ok ⟨out, 0, some chain⟩
    | .error e => .err e (some (lat.dstAddr.toNat, run.out.length)) (some chain)

/-- The block sent to the port: the plaintext block combined with `chain`, or the ciphertext block
itself (R255, R256). -/
def cbcInput (op : BcpOp) (block chain : Block) : Block :=
  match op with
  | .enc => Block.xor block chain
  | .dec => block

/-- Issue the request for block i, or complete when all m blocks are done (R251, R255, R256). -/
def cbcAdvance (lat : Latched) (run : CbcRun) (s : State) : State :=
  match run.blocks[run.index]? with
  | some b =>
    { s with
      phase := .busy lat (.cbc run)
      bcpReq := some ⟨run.op, run.key, cbcInput run.op b s.chain⟩
      bcpAnswer := none }
  | none =>
    { s with bcpReq := none, bcpAnswer := none }.complete lat (cbcOutcome lat run s.chain)

/-- Take the answer y for block i: append the output block, and chain <- c_i in either direction
(R253, R255, R256). -/
def cbcTake (y : Block) (lat : Latched) (run : CbcRun) (s : State) : State :=
  match run.op with
  | .enc =>
    cbcAdvance lat { run with index := run.index + 1, out := run.out ++ y.bytes }
      { s with chain := y }
  | .dec =>
    cbcAdvance lat { run with index := run.index + 1, out := run.out ++ (Block.xor y s.chain).bytes }
      { s with chain := (run.blocks[run.index]?).getD s.chain }

/-- One engine step of a CBC command after its pre-checks. While a request is in flight the engine
waits: a port that never answers leaves the command Busy for ever (R136, R251). -/
def cbcStep (lat : Latched) (run : CbcRun) (s : State) : State :=
  match s.bcpReq with
  | some _ => s
  | none =>
    match s.bcpAnswer with
    | some y => cbcTake y lat run s
    | none => cbcAdvance lat run s

/-- The pre-checks are passed: chain <- iv (R253), and the first request goes out. -/
def cbcBegin (lat : Latched) (run : CbcRun) (s : State) : State :=
  cbcAdvance lat run { s with chain := lat.iv, chainWritten := true }

/-! ### The commands -/

/-- CBC_ENC up to its first request (R257). -/
def cbcEncPre (s : State) (lat : Latched) : Res CbcRun := do
  let p ← srcBuf s lat
  let k ← auxBuf s lat
  dstCheck s lat
  overlapCheck lat true
  failIf (blockKeyOk s k.length = false) .invalidLength .aux
  capCheck lat (p.length + cbcPadLen p.length)
  return ⟨.enc, false, k, toBlocks (cbcPadded p), 0, []⟩

/-- CBC_DEC up to its first request (R258). -/
def cbcDecPre (v : Bool) (s : State) (lat : Latched) : Res CbcRun := do
  let c ← srcBuf s lat
  let k ← auxBuf s lat
  dstCheck s lat
  overlapCheck lat true
  failIf (c.length % 16 ≠ 0) .invalidLength .src
  failIf (blockKeyOk s k.length = false) .invalidLength .aux
  capCheck lat c.length
  return ⟨.dec, v, k, toBlocks c, 0, []⟩

/-- The first engine step of a CBC command: a pre-check error completes it, else it begins its pass
(R131, R253). An Idle engine takes no step (R120). -/
def runCbc (pre : State → Latched → Res CbcRun) (s : State) : Host.Outcome State Fault Refusal :=
  match s.phase with
  | .idle => .next s
  | .busy lat _ =>
    match pre s lat with
    | .error e => .next ((s.drawOperands true lat).complete lat (.err e none none))
    | .ok run => .next (cbcBegin lat run (s.drawOperands true lat))

/-- CBC_ENC (R257). -/
def execCbcEnc (s : State) : Host.Outcome State Fault Refusal := runCbc cbcEncPre s

/-- CBC_DEC (R258). -/
def execCbcDec (v : Bool) (s : State) : Host.Outcome State Fault Refusal := runCbc (cbcDecPre v) s

end Sys2Proof.Machine
end

