-- ==== Sys2Proof/Machine/Dispatch.lean ====
section
/-! DEFINITION. From each command to its meaning. -/

namespace Sys2Proof.Machine

/-- The meaning of a command, one arm per row of the opcode map (30_encoding.md R95). -/
def exec (i : Instr) (s : State) : Host.Outcome State Fault Refusal :=
  match i with
  | .hexEnc => Sys2Proof.Machine.execHexEnc s
  | .hexDec => Sys2Proof.Machine.execHexDec s
  | .b64Enc => Sys2Proof.Machine.execB64Enc s
  | .b64Dec => Sys2Proof.Machine.execB64Dec s
  | .hexToB64 => Sys2Proof.Machine.execHexToB64 s
  | .b64ToHex => Sys2Proof.Machine.execB64ToHex s
  | .pad => Sys2Proof.Machine.execPad s
  | .unpad v => Sys2Proof.Machine.execUnpad v s
  | .xorFixed enc => Sys2Proof.Machine.execXorFixed enc s
  | .xorRepeat enc => Sys2Proof.Machine.execXorRepeat enc s
  | .hamming enc => Sys2Proof.Machine.execHamming enc s
  | .cbcEnc => Sys2Proof.Machine.execCbcEnc s
  | .cbcDec v => Sys2Proof.Machine.execCbcDec v s

end Sys2Proof.Machine
end

