-- ==== Sys2Proof/Machine/Step.lean ====
section
/-! DEFINITION. One step of the whole device: one move of one agent (40_host_and_command.md R120). -/

namespace Sys2Proof.Machine

/-- The engine's move. Idle: none (R120). Just started: decode the latched word and run the command,
or complete with IllegalCommand (R97, R98, R131). In a CBC pass: its next engine step (R135). -/
def engineStep (s : State) : Host.Outcome State Fault Refusal :=
  match s.phase with
  | .idle => .next s
  | .busy lat .started =>
    match decode lat.word with
    | .error _ => .next (s.illegalCommand lat)
    | .ok i => exec i s
  | .busy lat (.cbc run) => .next (cbcStep lat run s)

/-- One move of the named agent. -/
def agentStep (e : Event) (s : State) : Host.Outcome State Fault Refusal :=
  match e with
  | .host t => .next (hostStep t s)
  | .engine => engineStep s
  | .bcp => .next (bcpStep s)
  | .reset => .next s.applyReset

/-- One step: the first move of the agenda, or the engine's when no move is listed (log entry 4). -/
def step (s : State) : Host.Outcome State Fault Refusal :=
  match s.agenda with
  | [] => engineStep s
  | e :: rest => agentStep e { s with agenda := rest }

/-- `s` with a command word placed where the engine's next move runs it: just written to CMD, the
engine to move next (log entry 9). -/
def State.withFetchWord (s : State) (nbits w : Nat) : State :=
  s.placeCommand (BitVec.ofNat 32 (w % 2 ^ nbits))

end Sys2Proof.Machine
end

