-- ==== Sys2Proof/Safety.lean ====
section
/-! DEFINITION. The words in which claims are stated: the invariant of the machine, what it means for a
command to succeed or to fail, and when its operands are ready. -/

namespace Sys2Proof.Machine

/-! ### The invariant -/

/-- If register IVr has been written, bytes 4r to 4r + 3 of the block are its bytes, little-endian
(10_state.md R41); an unwritten register has no value to hold (R50). -/
def IvHolds (iv : Block) (r : Nat) (reg : DataReg) : Prop :=
  reg.written = true → ∀ i, i < 4 → iv.bytes[4 * r + i]? = some (reg.value.extractLsb' (8 * i) 8)

/-- The latched values equal the registers they were taken from, as long as the command runs
(10_state.md R46); the IV register by register, for those that have been written (R50). -/
structure LatchMatches (s : State) (lat : Latched) : Prop where
  word : lat.word = s.cmd
  srcAddr : lat.srcAddr = s.srcAddr
  srcLen : lat.srcLen = s.srcLen
  auxAddr : lat.auxAddr = s.auxAddr
  auxLen : lat.auxLen = s.auxLen
  dstAddr : lat.dstAddr = s.dstAddr
  dstCap : lat.dstCap = s.dstCap
  param : lat.param = s.param
  iv0 : IvHolds lat.iv 0 s.iv0
  iv1 : IvHolds lat.iv 1 s.iv1
  iv2 : IvHolds lat.iv 2 s.iv2
  iv3 : IvHolds lat.iv 3 s.iv3

/-- The instruction a CBC run belongs to. -/
def CbcRun.instr (run : CbcRun) : Instr :=
  match run.op with
  | .enc => .cbcEnc
  | .dec => .cbcDec run.validate

/-- The output and the chaining value of a pass over blocks (43_cbc.md R255, R256). -/
def cbcPass (lens : KeyLens) (op : BcpOp) (key : Bytes) (iv : Block) (blocks : List Block) : Bytes × Block :=
  match op with
  | .enc => cbcEncryptBlocks (Config.blockEncrypt lens key) iv blocks
  | .dec => cbcDecryptBlocks (Config.blockDecrypt lens key) iv blocks

/-- A CBC pass under way is where the spec's loop is after `index` blocks: its output and the CHAIN
register are those of the pass over the first `index` blocks, and the request in flight, or the
answer waiting to be taken, is for block `index` (43_cbc.md R251, R253, R255, R256). -/
structure CbcRunOk (s : State) (lat : Latched) (run : CbcRun) : Prop where
  decodes : decode lat.word = .ok run.instr
  dstInRange : lat.dstAddr.toNat + lat.dstCap.toNat ≤ s.platform.memSize
  fits : 16 * run.blocks.length ≤ lat.dstCap.toNat
  keyOk : blockKeyOk s run.key.length = true
  keyLen : run.key.length = lat.auxLen.toNat
  chainSet : s.chainWritten = true
  passed : cbcPass s.platform.keyLens run.op run.key lat.iv (run.blocks.take run.index) = (run.out, s.chain)
  waiting : ∃ b, run.blocks[run.index]? = some b ∧
    ((s.bcpReq = some ⟨run.op, run.key, cbcInput run.op b s.chain⟩ ∧ s.bcpAnswer = none) ∨
     (s.bcpReq = none ∧
      s.bcpAnswer = some (bcpFunction s.platform.keyLens ⟨run.op, run.key, cbcInput run.op b s.chain⟩)))

/-- What holds of the result registers and the port in each phase (10_state.md R22, R45;
40_host_and_command.md R129). -/
def PhaseOk (s : State) : Prop :=
  match s.phase with
  | .idle => s.bcpReq = none ∧ s.bcpAnswer = none
  | .busy lat progress =>
    LatchMatches s lat ∧ s.done = false ∧ s.err = false ∧ s.errcode = 0 ∧ s.outLen = 0 ∧
      s.result = 0 ∧ s.errinfo = 0 ∧
      match progress with
      | .started => s.bcpReq = none ∧ s.bcpAnswer = none
      | .cbc run => CbcRunOk s lat run

/-- The invariant that every step keeps. -/
structure Inv (s : State) : Prop where
  /-- The constraint on MEM_SIZE (00_scope.md R7). -/
  memSizeOk : 16 ≤ s.platform.memSize ∧ s.platform.memSize ≤ 2 ^ 28
  /-- BUF is in canonical form and lists no offset outside [0 .. MEM_SIZE) (10_state.md R44). -/
  bufOk : s.buf.wf ∧ ∀ c ∈ s.buf, c.1 < s.platform.memSize
  /-- Only the codes of 60_exceptions.md R291 are produced, and not the reserved 5. -/
  errcodeLegal : s.errcode ∈ [0, 1, 2, 3, 4, 6, 0x10, 0x11, 0x12, 0x13]
  /-- ERRINFO names an operand (60_exceptions.md R292). -/
  errinfoLegal : s.errinfo.toNat ≤ 4
  /-- ERR is set only with a code (10_state.md R29, R32). -/
  errHasCode : s.err = true → s.errcode ≠ 0
  /-- OUT_LEN and RESULT are 0 after any error (10_state.md R38, R39). -/
  errorNoResult : s.errcode ≠ 0 → s.outLen = 0 ∧ s.result = 0
  /-- ERRINFO is 0 when there is no error (10_state.md R40). -/
  noErrorNoInfo : s.errcode = 0 → s.errinfo = 0
  phaseOk : PhaseOk s

/-! ### How a command ends -/

/-- The bytes `bs` stand at `a` in `m'`, and every other byte of BUF is as it was in `m`. -/
def Stored (m m' : Memory) (a : Nat) (bs : Bytes) : Prop :=
  (∀ i, i < bs.length → m'.byte? (a + i) = bs[i]?) ∧
    ∀ x, x < a ∨ a + bs.length ≤ x → m'.byte? x = m.byte? x

/-- Command i, run in s, succeeds: it writes `out` at offset `dst` of BUF, OUT_LEN, RESULT and the
flags (40_host_and_command.md R132, R133). Every other field of the state is as before, but for the
model's own count of draws. -/
def Succeeds (i : Instr) (s : State) (dst : Nat) (out : Bytes) (result : Nat) : Prop :=
  ∃ buf d, Stored s.buf buf dst out ∧
    exec i s = .next
      { s with
        buf := buf
        outLen := BitVec.ofNat 32 out.length
        result := BitVec.ofNat 32 result
        err := false
        errcode := 0
        errinfo := 0
        done := true
        phase := .idle
        draws := d }

/-- Command i, run in s, ends with a pre-check error: the flags, the code and the operand charged are
written (60_exceptions.md R294, R297). Every other field, BUF and CHAIN among them, is as before, but
for the model's own count of draws. -/
def Fails (i : Instr) (s : State) (code : Byte) (info : BitVec 3) : Prop :=
  ∃ d, exec i s = .next
    { s with
      err := true
      errcode := code
      errinfo := info
      done := true
      phase := .idle
      draws := d }

/-! ### When operands are ready -/

/-- A buffer lies inside BUF (20_memory.md R62). -/
def InRange (s : State) (a n : Word) : Prop := a.toNat + n.toNat ≤ s.platform.memSize

/-- Two buffers share no byte (20_memory.md R63). -/
def Apart (a1 l1 a2 l2 : Word) : Prop :=
  l1.toNat = 0 ∨ l2.toNat = 0 ∨ a2.toNat + l2.toNat ≤ a1.toNat ∨ a1.toNat + l1.toNat ≤ a2.toNat

/-- SRC and DST pass the range and overlap checks (40_host_and_command.md R137, R138). -/
structure SrcDstReady (s : State) (lat : Latched) : Prop where
  src : InRange s lat.srcAddr lat.srcLen
  dst : InRange s lat.dstAddr lat.dstCap
  apart : Apart lat.dstAddr lat.dstCap lat.srcAddr lat.srcLen

/-- SRC, AUX and DST pass the range and overlap checks. -/
structure AllReady (s : State) (lat : Latched) : Prop extends SrcDstReady s lat where
  aux : InRange s lat.auxAddr lat.auxLen
  apartAux : Apart lat.dstAddr lat.dstCap lat.auxAddr lat.auxLen

/-- The commands that use AUX (30_encoding.md R95). -/
def usesAux : Instr → Bool
  | .xorFixed _ | .xorRepeat _ | .hamming _ | .cbcEnc | .cbcDec _ => true
  | .hexEnc | .hexDec | .b64Enc | .b64Dec | .hexToB64 | .b64ToHex | .pad | .unpad _ => false

/-- The commands that use DST (30_encoding.md R95). -/
def usesDst : Instr → Bool
  | .hamming _ => false
  | .hexEnc | .hexDec | .b64Enc | .b64Dec | .hexToB64 | .b64ToHex | .pad | .unpad _ => true
  | .xorFixed _ | .xorRepeat _ | .cbcEnc | .cbcDec _ => true

/-- `s` with another latched PARAM, if a command is running. -/
def State.withLatchedParam (p : Word) (s : State) : State :=
  match s.phase with
  | .idle => s
  | .busy lat progress => { s with phase := .busy { lat with param := p } progress }

/-- The lowercase form of a hex digit. -/
def lowerHex (c : Byte) : Byte := if 0x41 ≤ c.toNat ∧ c.toNat ≤ 0x46 then c + 0x20 else c

/-- `text` is a text of the bytes `b` in the encoding: the bytes themselves, hex text in either case,
or Base64 text (00_scope.md section 6; 42_xor.md R220). -/
def Represents (enc : Enc) (text b : Bytes) : Prop :=
  match enc with
  | .raw => text = b
  | .hex => text.map lowerHex = hexEncode b
  | .b64 => text = b64Encode b

/-- An agenda on which the block-cipher port answers and the engine moves, m times. -/
def cbcRounds (m : Nat) : List Event := (List.replicate m [Event.bcp, Event.engine]).flatten

end Sys2Proof.Machine
end

