-- ==== Sys2Proof/Certificates/Slice0/Obligations.lean ====
section
/-! DEFINITION. The statements for the provers. Each docstring names the rule of spec/ it formalises. -/

open Sys2Proof Sys2Proof.Machine

/-! ### Command words -/

/-- Decoding and encoding agree in both directions: a word decodes to an instruction exactly when it
is that instruction's word (30_encoding.md R90, R95, R97). -/
def Obligations.WordDecodesToExactlyItsInstruction : Prop :=
  ∀ (w : Word) (i : Instr), decode w = .ok i ↔ w = encode i

/-- The five conditions of the spec's `decode`, on the bits of the word (30_encoding.md R97). -/
def Obligations.DecodeAcceptsExactlyTheLegalWords : Prop :=
  ∀ w : Word,
    let op := (w.extractLsb' 0 8).toNat
    let enc := (w.extractLsb' 8 2).toNat
    (∃ i, decode w = .ok i) ↔
      w.extractLsb' 10 2 = 0 ∧ w.extractLsb' 13 19 = 0 ∧
      op ∈ [0x01, 0x02, 0x03, 0x04, 0x05, 0x06, 0x07, 0x08, 0x10, 0x11, 0x12, 0x20, 0x21] ∧
      enc ≠ 3 ∧ (enc ≠ 0 → op ∈ [0x10, 0x11, 0x12]) ∧
      (w.getLsbD 12 = true → op ∈ [0x08, 0x21])

/-- Words written out from the opcode map and the assembler examples (30_encoding.md R95, R101). -/
def Obligations.ListedCommandWordsDecode : Prop :=
  decode 0x00000001 = .ok .hexEnc ∧ decode 0x00000004 = .ok .b64Dec ∧
  decode 0x00000007 = .ok .pad ∧ decode 0x00001008 = .ok (.unpad true) ∧
  decode 0x00000110 = .ok (.xorFixed .hex) ∧ decode 0x00000211 = .ok (.xorRepeat .b64) ∧
  decode 0x00000012 = .ok (.hamming .raw) ∧ decode 0x00000020 = .ok .cbcEnc ∧
  decode 0x00001021 = .ok (.cbcDec true)

/-! ### Steps -/

/-- A step of the engine on a command that has just started runs the meaning of the instruction its
word decodes to, whether the agenda is empty or names the engine next (40_host_and_command.md R131;
the agenda is the model's, log entry 4). -/
def Obligations.EngineStepRunsTheDecodedCommand : Prop :=
  ∀ (s : State) (lat : Latched) (i : Instr),
    s.phase = .busy lat .started → decode lat.word = .ok i →
    (s.agenda = [] → step s = exec i s) ∧
    (∀ rest, s.agenda = .engine :: rest → step s = exec i { s with agenda := rest })

/-- Every word that `decode` rejects is illegal, one with OP 0x00 among them. Written to CMD while Idle
it still starts a command; the engine's next step completes it with IllegalCommand and ERRINFO 0, and
BUF and CHAIN are unchanged, OUT_LEN and RESULT 0 (30_encoding.md R98). The first clause is the engine's
step alone. The agenda, the reply and the draw count are the model's (log entries 4, 6 and 3). -/
def Obligations.IllegalWordCompletesWithIllegalCommand : Prop :=
  (∀ (s : State) (lat : Latched),
    s.phase = .busy lat .started → s.agenda = [] → (∀ i, decode lat.word ≠ .ok i) →
    step s = .next
      { s with err := true, errcode := 0x10, errinfo := 0, done := true, phase := .idle }) ∧
  (∀ (s : State) (w : Word) (rest : List Event), s.phase = .idle → (∀ i, decode w ≠ .ok i) →
    s.agenda = .host (.csrWrite 0x0C .four w) :: .engine :: rest →
    ∃ d, Host.Core.run Sys2Proof.core 2 s = .next
      { s with
        agenda := rest
        cmd := w
        err := true
        errcode := 0x10
        errinfo := 0
        outLen := 0
        result := 0
        done := true
        reply := none
        draws := d }) ∧
  (∀ w : Word, w.extractLsb' 0 8 = 0 → ∀ i, decode w ≠ .ok i)

/-- Every step of the device ends in a next state: there are no traps, aborts or machine checks
(60_exceptions.md R290). -/
def Obligations.EveryStepHasANextState : Prop :=
  ∀ s : State, ∃ t, step s = .next t

/-- While a request is in flight the engine does not move: a port that never answers leaves the
command Busy for ever (40_host_and_command.md R136). With no host, port or reset move on the agenda
this goes on for any number of steps. -/
def Obligations.UnansweredRequestHangsTheCommand : Prop :=
  ∀ (s : State) (lat : Latched) (run : CbcRun) (r : BcpRequest) (n : Nat),
    s.phase = .busy lat (.cbc run) → s.bcpReq = some r → s.agenda = [] →
    Host.Core.run Sys2Proof.core n s = .next s

/-- The port's step takes the one request in flight, returns E(k, x) or D(k, x), and clears the
request; with no request it changes nothing, so a late answer is discarded; and D(k, E(k, x)) = x for
every key k of an accepted length (43_cbc.md R250, R251; 70_reset_and_hazards.md R331). -/
def Obligations.PortAnswersTheRequestInFlight : Prop :=
  ∀ (s : State) (rest : List Event), s.agenda = .bcp :: rest →
    (∀ k x, s.bcpReq = some ⟨.enc, k, x⟩ →
      step s = .next { s with agenda := rest, bcpReq := none, bcpAnswer := some (Config.blockEncrypt s.platform.keyLens k x) }) ∧
    (∀ k x, s.bcpReq = some ⟨.dec, k, x⟩ →
      step s = .next { s with agenda := rest, bcpReq := none, bcpAnswer := some (Config.blockDecrypt s.platform.keyLens k x) }) ∧
    (s.bcpReq = none → step s = .next { s with agenda := rest }) ∧
    ∀ k x, blockKeyOk s k.length = true →
      Config.blockDecrypt s.platform.keyLens k (Config.blockEncrypt s.platform.keyLens k x) = x

/-! ### Reset -/

/-- The state after reset (10_state.md R49), with the unspecified cells: an IV or CHAIN read draws the
next free word, and no BUF byte has been written (R50). -/
def Obligations.ResetStateIsAsListed : Prop :=
  let s := State.reset
  s.csrValue .id = 0x43424307 ∧ s.csrValue .ctrl = 0 ∧ s.csrValue .status = 0 ∧ s.csrValue .cmd = 0 ∧
  (∀ c ∈ [Csr.srcAddr, .srcLen, .auxAddr, .auxLen, .dstAddr, .dstCap, .param, .outLen, .result, .errinfo],
    s.csrValue c = 0) ∧
  (∀ c ∈ [Csr.iv0, .iv1, .iv2, .iv3, .chain0, .chain1, .chain2, .chain3], ∀ d,
    ({ s with draws := d } : State).csrValue c = Config.freeWord d) ∧
  (∀ a, s.buf.byte? a = none) ∧ s.phase = .idle ∧ s.bcpReq = none ∧ s.irq = false

/-- The reset input, in either phase: Idle, no request, no latched command, no DONE or ERR, the control
registers 0, and IV, CHAIN and all of BUF unspecified (70_reset_and_hazards.md R330, R331). The agenda's
rest, the draw count and the platform's parameters, which are not the device's, stay (log entry 10). -/
def Obligations.ResetClearsTheDeviceInEitherPhase : Prop :=
  ∀ (s : State) (rest : List Event), s.agenda = .reset :: rest →
    ∃ t, step s = .next t ∧
      t.phase = .idle ∧ t.bcpReq = none ∧ t.bcpAnswer = none ∧
      t.csrValue .ctrl = 0 ∧ t.csrValue .status = 0 ∧ t.csrValue .cmd = 0 ∧
      (∀ c ∈ [Csr.srcAddr, .srcLen, .auxAddr, .auxLen, .dstAddr, .dstCap, .param, .outLen, .result, .errinfo],
        t.csrValue c = 0) ∧
      (∀ c ∈ [Csr.iv0, .iv1, .iv2, .iv3, .chain0, .chain1, .chain2, .chain3],
        t.csrValue c = Config.freeWord t.draws) ∧
      (∀ a, t.buf.byte? a = none) ∧
      t.agenda = rest ∧ t.draws = s.draws ∧ t.platform = s.platform

/-! ### Control registers -/

/-- STATUS as the host reads it, field by field, its value after reset, and the W1C write while Idle
(10_state.md R26). -/
def Obligations.StatusReadsItsFieldsAndClearsOnOnes : Prop :=
  ∀ s : State,
    (let r := s.csrValue .status
     r.getLsbD 0 = s.busy ∧ r.getLsbD 1 = s.done ∧ r.getLsbD 2 = s.err ∧ r.getLsbD 3 = s.haz ∧
     r.getLsbD 4 = s.berr ∧ r.extractLsb' 5 3 = 0 ∧ r.extractLsb' 8 8 = s.errcode ∧
     r.extractLsb' 16 16 = 0) ∧
    (s.phase = .idle → ∀ w : Word,
      s.csrWrite 0x08 .four w =
        { s with
          done := s.done && !w.getLsbD 1
          err := s.err && !w.getLsbD 2
          haz := s.haz && !w.getLsbD 3
          berr := s.berr && !w.getLsbD 4
          reply := none }) ∧
    State.reset.csrValue .status = 0

/-- CTRL: bit 0 is IE, 0 after reset, and lets DONE drive the interrupt line; the reserved bits ignore
writes and read 0 (10_state.md R25). -/
def Obligations.CtrlHoldsOnlyTheInterruptEnable : Prop :=
  ∀ (s : State) (v : Word), s.phase = .idle →
    s.csrWrite 0x04 .four v = { s with ie := v.getLsbD 0, reply := none } ∧
    ((s.csrWrite 0x04 .four v).csrRead 0x04 .four).reply = some (v &&& 1) ∧
    (s.csrWrite 0x04 .four v).irq = (v.getLsbD 0 && s.done) ∧
    State.reset.csrValue .ctrl = 0

/-- ID is a constant and a write to it is ignored (10_state.md R24). -/
def Obligations.IdIsConstant : Prop :=
  ∀ (s : State) (v : Word),
    (s.csrRead 0x00 .four).reply = some 0x43424307 ∧
    (s.phase = .idle → s.csrWrite 0x00 .four v = { s with reply := none })

/-- All 32 bits of each operand register and each IV register are writable and read back as written, and
a write while Idle changes nothing else (10_state.md R34 to R37, R41). -/
def Obligations.OperandRegistersReadBackAsWritten : Prop :=
  ∀ (s : State) (v : Word), s.phase = .idle →
    (∀ off ∈ [0x10, 0x14, 0x18, 0x1C, 0x20, 0x24, 0x28, 0x40, 0x44, 0x48, 0x4C],
      ((s.csrWrite off .four v).csrRead off .four).reply = some v) ∧
    s.csrWrite 0x10 .four v = { s with srcAddr := v, reply := none } ∧
    s.csrWrite 0x14 .four v = { s with srcLen := v, reply := none } ∧
    s.csrWrite 0x18 .four v = { s with auxAddr := v, reply := none } ∧
    s.csrWrite 0x1C .four v = { s with auxLen := v, reply := none } ∧
    s.csrWrite 0x20 .four v = { s with dstAddr := v, reply := none } ∧
    s.csrWrite 0x24 .four v = { s with dstCap := v, reply := none } ∧
    s.csrWrite 0x28 .four v = { s with param := v, reply := none } ∧
    s.csrWrite 0x40 .four v = { s with iv0 := ⟨v, true⟩, reply := none } ∧
    s.csrWrite 0x44 .four v = { s with iv1 := ⟨v, true⟩, reply := none } ∧
    s.csrWrite 0x48 .four v = { s with iv2 := ⟨v, true⟩, reply := none } ∧
    s.csrWrite 0x4C .four v = { s with iv3 := ⟨v, true⟩, reply := none }

/-- Byte j of the IV a command latches is bits [8(j mod 4)+7 : 8(j mod 4)] of register IV(j div 4), once
the four registers have been written while Idle (10_state.md R41). -/
def Obligations.LatchedIvPacksRegistersLittleEndian : Prop :=
  ∀ (s : State) (w0 w1 w2 w3 word : Word), s.phase = .idle →
    let t := (((s.csrWrite 0x40 .four w0).csrWrite 0x44 .four w1).csrWrite 0x48 .four w2).csrWrite 0x4C .four w3
    ∃ lat, (t.csrWrite 0x0C .four word).phase = .busy lat .started ∧
      ∀ j, j < 16 →
        lat.iv.bytes[j]? = some (([w0, w1, w2, w3].getD (j / 4) 0).extractLsb' (8 * (j % 4)) 8)

/-- CHAINr read while Idle, once written, is bytes 4r to 4r+3 of the chaining value, little-endian;
while Busy, or before the first CBC command, it is a free value (10_state.md R42, R50;
40_host_and_command.md R122). -/
def Obligations.ChainReadsPackedOrArbitrary : Prop :=
  ∀ (s : State) (r : Nat), r < 4 →
    let t := s.csrRead (0x50 + 4 * r) .four
    (s.busy = true ∨ s.chainWritten = false → t.reply = some (Config.freeWord s.draws)) ∧
    (s.phase = .idle → s.chainWritten = true →
      ∃ w : Word, t.reply = some w ∧
        ∀ i, i < 4 → s.chain.bytes[4 * r + i]? = some (w.extractLsb' (8 * i) 8))

/-- Reserved offsets read 0 and ignore writes while Idle; a well-formed write to one while Busy sets HAZ
(10_state.md R43). -/
def Obligations.ReservedOffsetsReadZeroIgnoreWrites : Prop :=
  ∀ (s : State) (off : Nat) (v : Word),
    (off = 0x38 ∨ off = 0x3C ∨ (0x60 ≤ off ∧ off ≤ 0xFC ∧ off % 4 = 0)) →
    (s.csrRead off .four).reply = some 0 ∧ (s.csrRead off .four).berr = s.berr ∧
    (s.phase = .idle → s.csrWrite off .four v = { s with reply := none }) ∧
    (s.busy = true → s.csrWrite off .four v = { s with haz := true, reply := none })

/-- A CSR read changes no state of the device but BERR on a malformed access (40_host_and_command.md
R122, 20_memory.md R70). -/
def Obligations.CsrReadHasNoSideEffect : Prop :=
  ∀ (s : State) (off : Nat) (w : Width),
    ∃ v d, (s.csrRead off w = { s with reply := some v, draws := d } ∧
        w = .four ∧ off % 4 = 0 ∧ off ≤ 0xFC) ∨
      (s.csrRead off w = { s with reply := some v, berr := true } ∧ v = 0 ∧
        ¬(w = .four ∧ off % 4 = 0 ∧ off ≤ 0xFC))

/-- CMD, OUT_LEN, RESULT and ERRINFO read as what they hold, ERRINFO zero-extended, and an IV register
once written reads as written; a write to a read-only register while Idle is ignored
(10_state.md R23, R33, R38 to R42). -/
def Obligations.RegistersReadAndReadOnlyOnesIgnoreWrites : Prop :=
  ∀ (s : State) (v : Word),
    (s.csrRead 0x0C .four).reply = some s.cmd ∧ (s.csrRead 0x2C .four).reply = some s.outLen ∧
    (s.csrRead 0x30 .four).reply = some s.result ∧
    (s.csrRead 0x34 .four).reply = some (BitVec.ofNat 32 s.errinfo.toNat) ∧
    (s.iv0.written = true → (s.csrRead 0x40 .four).reply = some s.iv0.value) ∧
    (s.iv1.written = true → (s.csrRead 0x44 .four).reply = some s.iv1.value) ∧
    (s.iv2.written = true → (s.csrRead 0x48 .four).reply = some s.iv2.value) ∧
    (s.iv3.written = true → (s.csrRead 0x4C .four).reply = some s.iv3.value) ∧
    (s.phase = .idle → ∀ off ∈ [0x00, 0x2C, 0x30, 0x34, 0x50, 0x54, 0x58, 0x5C],
      s.csrWrite off .four v = { s with reply := none })

/-- A CSR access that is not 32 bits wide at a multiple of 4 in 0x00 to 0xFC sets BERR; the write
changes nothing else and the read returns 0, in either phase (20_memory.md R67). -/
def Obligations.MalformedCsrAccessSetsBerrOnly : Prop :=
  ∀ (s : State) (off : Nat) (w : Width) (v : Word), ¬(w = .four ∧ off % 4 = 0 ∧ off ≤ 0xFC) →
    s.csrWrite off w v = { s with berr := true, reply := none } ∧
    s.csrRead off w = { s with berr := true, reply := some 0 }

/-- A BUF access that is misaligned or ends past MEM_SIZE sets BERR; the write changes nothing else
and the read returns 0, in either phase (20_memory.md R66). -/
def Obligations.MalformedBufAccessSetsBerrOnly : Prop :=
  ∀ (s : State) (off n : Nat) (w : Width) (v : Word),
    (w = .one ∧ n = 1 ∨ w = .two ∧ n = 2 ∨ w = .four ∧ n = 4) →
    (off % n ≠ 0 ∨ s.platform.memSize < off + n) →
    s.bufWrite off w v = { s with berr := true, reply := none } ∧
    s.bufRead off w = { s with berr := true, reply := some 0 }

/-- A well-formed BUF write of n bytes while Idle stores the n low bytes of its value little-endian and
changes no other byte; a read of the same width returns them, zero-extended, and so do 8-bit reads one by
one. A well-formed BUF read of n bytes while Idle changes no state of the device, and its value is,
little-endian and zero-extended, the bytes that stand there, whoever wrote them and in whatever widths;
an unspecified byte reads as a free value (20_memory.md R65, R70; 40_host_and_command.md R126, R127;
10_state.md R50). The reply, the draw count and the numbering of the free values are the model's (log
entries 6 and 3). -/
def Obligations.BufAccessesAreLittleEndian : Prop :=
  ∀ (s : State) (off n : Nat) (w : Width) (v : Word), s.phase = .idle →
    (w = .one ∧ n = 1 ∨ w = .two ∧ n = 2 ∨ w = .four ∧ n = 4) →
    off % n = 0 → off + n ≤ s.platform.memSize →
    let t := s.bufWrite off w v
    (∃ b, t = { s with buf := b, reply := none } ∧
      (∀ i, i < n → b.byte? (off + i) = some (v.extractLsb' (8 * i) 8)) ∧
      ∀ x, x < off ∨ off + n ≤ x → b.byte? x = s.buf.byte? x) ∧
    (t.bufRead off w).reply = some (BitVec.ofNat 32 (v.toNat % 2 ^ (8 * n))) ∧
    (n = 4 → ∀ i, i < 4 → (t.bufRead (off + i) .one).reply = some (BitVec.ofNat 32 (v.toNat / 2 ^ (8 * i) % 256))) ∧
    ∃ r d, s.bufRead off w = { s with reply := some r, draws := d } ∧ r.toNat < 2 ^ (8 * n) ∧
      ∀ i, i < n →
        (∀ b, s.buf.byte? (off + i) = some b → r.extractLsb' (8 * i) 8 = b) ∧
        (s.buf.byte? (off + i) = none → r.extractLsb' (8 * i) 8 = Config.freeByte (s.draws + i))

/-- The busy lockout: while Busy every well-formed write, of a CSR at any offset or of BUF, is dropped
and sets HAZ, and a well-formed BUF read sets HAZ and returns an arbitrary value, made of the next free
bytes (40_host_and_command.md R124, R128; the form of the free value is the model's, log entry 3). -/
def Obligations.BusyLockoutDropsWritesAndSetsHaz : Prop :=
  ∀ (s : State) (off n : Nat) (w : Width) (v : Word), s.busy = true →
    (off % 4 = 0 → off ≤ 0xFC → s.csrWrite off .four v = { s with haz := true, reply := none }) ∧
    ((w = .one ∧ n = 1 ∨ w = .two ∧ n = 2 ∨ w = .four ∧ n = 4) →
      off % n = 0 → off + n ≤ s.platform.memSize →
      s.bufWrite off w v = { s with haz := true, reply := none } ∧
      s.bufRead off w =
        { s with
          haz := true
          reply := some (bytesWord ((List.range n).map fun i => Config.freeByte (s.draws + i)))
          draws := s.draws + n })

/-- The start step: a well-formed write of w to CMD while Idle, legal word or not; bytes 4r to 4r + 3 of
the latched IV are those of IVr for each r whose register has been written, the others being free
(40_host_and_command.md R129). The reply and the draw count are the model's (log entries 6 and 3). -/
def Obligations.CmdWriteWhileIdleStartsTheCommand : Prop :=
  ∀ (s : State) (w : Word), s.phase = .idle →
    ∃ iv d, s.csrWrite 0x0C .four w =
      { s with
        cmd := w
        phase := .busy ⟨w, s.srcAddr, s.srcLen, s.auxAddr, s.auxLen, s.dstAddr, s.dstCap, s.param, iv⟩ .started
        done := false
        err := false
        errcode := 0
        outLen := 0
        result := 0
        errinfo := 0
        draws := d
        reply := none } ∧
      IvHolds iv 0 s.iv0 ∧ IvHolds iv 1 s.iv1 ∧ IvHolds iv 2 s.iv2 ∧ IvHolds iv 3 s.iv3

/-- The interrupt line is CTRL.IE and STATUS.DONE; setting IE while DONE is 1 asserts it at once, and
clearing DONE, clearing IE or starting a command drops it (10_state.md R47, 60_exceptions.md R300). -/
def Obligations.IrqIsEnabledDone : Prop :=
  ∀ s : State,
    s.irq = ((s.csrValue .ctrl).getLsbD 0 && (s.csrValue .status).getLsbD 1) ∧
    (s.phase = .idle →
      (s.done = true → (s.csrWrite 0x04 .four 1).irq = true) ∧
      (s.csrWrite 0x04 .four 0).irq = false ∧
      (s.csrWrite 0x08 .four 2).irq = false ∧
      (∀ w, (s.csrWrite 0x0C .four w).irq = false))

/-! ### Operand checks, for all commands that use the operand -/

/-- Range checks come first, SRC before AUX before DST, for the operands the command uses; the sums do
not wrap (40_host_and_command.md R137; 60_exceptions.md R296). -/
def Obligations.OperandOutOfRangeIsAddressRange : Prop :=
  ∀ (i : Instr) (s : State) (lat : Latched), s.phase = .busy lat .started →
    (¬InRange s lat.srcAddr lat.srcLen → Fails i s 0x11 1) ∧
    (InRange s lat.srcAddr lat.srcLen → usesAux i = true → ¬InRange s lat.auxAddr lat.auxLen →
      Fails i s 0x11 2) ∧
    (InRange s lat.srcAddr lat.srcLen → (usesAux i = true → InRange s lat.auxAddr lat.auxLen) →
      usesDst i = true → ¬InRange s lat.dstAddr lat.dstCap → Fails i s 0x11 3)

/-- Once the ranges are in order, an overlap of DST's whole capacity range with SRC, then with AUX if
the command uses it, is refused before any check of the data (40_host_and_command.md R138;
60_exceptions.md R296). -/
def Obligations.DestinationOverlapIsRefused : Prop :=
  ∀ (i : Instr) (s : State) (lat : Latched), s.phase = .busy lat .started → usesDst i = true →
    InRange s lat.srcAddr lat.srcLen → InRange s lat.dstAddr lat.dstCap →
    (usesAux i = true → InRange s lat.auxAddr lat.auxLen) →
    (¬Apart lat.dstAddr lat.dstCap lat.srcAddr lat.srcLen → Fails i s 0x12 1) ∧
    (Apart lat.dstAddr lat.dstCap lat.srcAddr lat.srcLen → usesAux i = true →
      ¬Apart lat.dstAddr lat.dstCap lat.auxAddr lat.auxLen → Fails i s 0x12 2)

/-! ### Codec functions -/

/-- Round trips: what the encoders write decodes back to the same bytes (41_codec.md R178). -/
def Obligations.CodecRoundTrips : Prop :=
  ∀ (b : Bytes) (id : Operand),
    hexDecode (hexEncode b) id = .ok b ∧ b64Decode (b64Encode b) id = .ok b

/-- Hex decoding accepts exactly the texts that are, but for the case of their letters, what hex
encoding writes, and every other text is MalformedInput charged to its operand (41_codec.md R160,
R161, R163, R164). -/
def Obligations.HexDecodeInvertsHexEncodeUpToCase : Prop :=
  ∀ (t : Bytes) (id : Operand),
    (∀ b, hexDecode t id = .ok b ↔ t.map lowerHex = hexEncode b) ∧
    ((∀ b, t.map lowerHex ≠ hexEncode b) → hexDecode t id = .error ⟨.malformedInput, id⟩)

/-- Base64 decoding accepts exactly the canonical texts, those that Base64 encoding writes, and every
other text is MalformedInput charged to its operand (41_codec.md R165, R166, R178). -/
def Obligations.B64DecodeAcceptsExactlyCanonicalText : Prop :=
  ∀ (t : Bytes) (id : Operand),
    (∀ b, b64Decode t id = .ok b ↔ t = b64Encode b) ∧
    ((∀ b, t ≠ b64Encode b) → b64Decode t id = .error ⟨.malformedInput, id⟩)

/-- The text of n bytes: 4 ceil(n/3) characters; character 4q+k of a full group is the alphabet's entry
('A' to 'Z', 'a' to 'z', '0' to '9', '+' and '/', by their codes) for bits [23-6k : 18-6k] of the 24-bit
accumulator; the last partial group is zero-extended and padded with '=' (41_codec.md R162, R165). -/
def Obligations.B64EncodeSlicesTheAccumulator : Prop :=
  ∀ b : Bytes,
    let char : Nat → Byte := fun i =>
      if i ≤ 25 then BitVec.ofNat 8 (0x41 + i)
      else if i ≤ 51 then BitVec.ofNat 8 (0x61 + i - 26)
      else if i ≤ 61 then BitVec.ofNat 8 (0x30 + i - 52)
      else if i = 62 then 0x2B
      else 0x2F
    let t := b64Encode b
    let n := b.length
    let byte := fun i => (b.getD i 0).toNat
    let acc := fun q => byte (3 * q) * 65536 + byte (3 * q + 1) * 256 + byte (3 * q + 2)
    t.length = 4 * ((n + 2) / 3) ∧
    (∀ q, 3 * q < n →
      t[4 * q]? = some (char (acc q / 262144)) ∧
      t[4 * q + 1]? = some (char (acc q / 4096 % 64)) ∧
      t[4 * q + 2]? = some (if 3 * q + 1 < n then char (acc q / 64 % 64) else 0x3D) ∧
      t[4 * q + 3]? = some (if 3 * q + 2 < n then char (acc q % 64) else 0x3D))

/-- Validated un-padding removes exactly a run of 1 <= k <= limit bytes of value k at the end, and
anything else is InvalidPadding; unvalidated un-padding of a text with last byte p drops p bytes
unchecked, is InvalidLength when p exceeds the length, and leaves an empty text empty
(41_codec.md R169). -/
def Obligations.UnpadRemovesTheClaimedBytes : Prop :=
  ∀ (b : Bytes) (limit : Nat) (id : Operand),
    (∀ out, unpad b true limit id = .ok out ↔
      ∃ k, 1 ≤ k ∧ k ≤ limit ∧ k ≤ 255 ∧ b = out ++ List.replicate k (BitVec.ofNat 8 k)) ∧
    ((∀ out k, 1 ≤ k → k ≤ limit → k ≤ 255 → b ≠ out ++ List.replicate k (BitVec.ofNat 8 k)) →
      unpad b true limit id = .error ⟨.invalidPadding, id⟩) ∧
    unpad [] false limit id = .ok [] ∧
    (∀ init p, b = init ++ [p] →
      (p.toNat ≤ b.length → unpad b false limit id = .ok (b.take (b.length - p.toNat))) ∧
      (b.length < p.toNat → unpad b false limit id = .error ⟨.invalidLength, id⟩))

/-! ### Codec commands -/

/-- HEX_ENC writes two hex digits per byte, high nibble first: 0x30 + d for a digit d below 10 and
0x61 + d - 10, a lowercase letter, from 10 on; it is DstOverflow when they do not fit
(41_codec.md R161, R170). -/
def Obligations.HexEncWritesLowercaseDigits : Prop :=
  let digit : Nat → Byte := fun d => if d < 10 then BitVec.ofNat 8 (0x30 + d) else BitVec.ofNat 8 (0x61 + d - 10)
  ∀ (s : State) (lat : Latched), s.phase = .busy lat .started → SrcDstReady s lat →
    (2 * lat.srcLen.toNat ≤ lat.dstCap.toNat →
      ∃ out, Succeeds .hexEnc s lat.dstAddr.toNat out 0 ∧ out.length = 2 * lat.srcLen.toNat ∧
        ∀ i b, (srcBytes s lat)[i]? = some b →
          out[2 * i]? = some (digit (b.toNat / 16)) ∧ out[2 * i + 1]? = some (digit (b.toNat % 16))) ∧
    (lat.dstCap.toNat < 2 * lat.srcLen.toNat → Fails .hexEnc s 0x13 3)

/-- HEX_DEC writes the bytes whose hex text, in either case, SRC holds; any other text is
MalformedInput, and a result that does not fit is DstOverflow (41_codec.md R171). -/
def Obligations.HexDecWritesTheBytesOfTheText : Prop :=
  ∀ (s : State) (lat : Latched), s.phase = .busy lat .started → SrcDstReady s lat →
    (∀ b, Represents .hex (srcBytes s lat) b →
      (b.length ≤ lat.dstCap.toNat → Succeeds .hexDec s lat.dstAddr.toNat b 0) ∧
      (lat.dstCap.toNat < b.length → Fails .hexDec s 0x13 3)) ∧
    ((∀ b, ¬Represents .hex (srcBytes s lat) b) → Fails .hexDec s 1 1)

/-- B64_ENC writes the Base64 text of SRC, and is DstOverflow when it does not fit (41_codec.md R172). -/
def Obligations.B64EncWritesTheText : Prop :=
  ∀ (s : State) (lat : Latched), s.phase = .busy lat .started → SrcDstReady s lat →
    (4 * ((lat.srcLen.toNat + 2) / 3) ≤ lat.dstCap.toNat →
      Succeeds .b64Enc s lat.dstAddr.toNat (b64Encode (srcBytes s lat)) 0) ∧
    (lat.dstCap.toNat < 4 * ((lat.srcLen.toNat + 2) / 3) → Fails .b64Enc s 0x13 3)

/-- B64_DEC writes the bytes whose Base64 text SRC holds; any other text is MalformedInput, and a result
that does not fit is DstOverflow (41_codec.md R173). -/
def Obligations.B64DecWritesTheBytesOfTheText : Prop :=
  ∀ (s : State) (lat : Latched), s.phase = .busy lat .started → SrcDstReady s lat →
    (∀ b, srcBytes s lat = b64Encode b →
      (b.length ≤ lat.dstCap.toNat → Succeeds .b64Dec s lat.dstAddr.toNat b 0) ∧
      (lat.dstCap.toNat < b.length → Fails .b64Dec s 0x13 3)) ∧
    ((∀ b, srcBytes s lat ≠ b64Encode b) → Fails .b64Dec s 1 1)

/-- HEX_TO_B64 goes through the bytes of the hex text: it writes what B64_ENC would write for them
(41_codec.md R174, R179). -/
def Obligations.HexToB64ComposesThroughBytes : Prop :=
  ∀ (s : State) (lat : Latched), s.phase = .busy lat .started → SrcDstReady s lat →
    (∀ b, Represents .hex (srcBytes s lat) b →
      ((b64Encode b).length ≤ lat.dstCap.toNat →
        Succeeds .hexToB64 s lat.dstAddr.toNat (b64Encode b) 0) ∧
      (lat.dstCap.toNat < (b64Encode b).length → Fails .hexToB64 s 0x13 3)) ∧
    ((∀ b, ¬Represents .hex (srcBytes s lat) b) → Fails .hexToB64 s 1 1)

/-- B64_TO_HEX goes through the bytes of the Base64 text: it writes what HEX_ENC would write for them
(41_codec.md R175). -/
def Obligations.B64ToHexComposesThroughBytes : Prop :=
  ∀ (s : State) (lat : Latched), s.phase = .busy lat .started → SrcDstReady s lat →
    (∀ b, srcBytes s lat = b64Encode b →
      (2 * b.length ≤ lat.dstCap.toNat → Succeeds .b64ToHex s lat.dstAddr.toNat (hexEncode b) 0) ∧
      (lat.dstCap.toNat < 2 * b.length → Fails .b64ToHex s 0x13 3)) ∧
    ((∀ b, srcBytes s lat ≠ b64Encode b) → Fails .b64ToHex s 1 1)

/-- PAD copies SRC and appends PARAM - src_len copies of that count; a count below 0 or over 255 is
InvalidLength charged to PARAM, before the capacity check (41_codec.md R176). -/
def Obligations.PadWritesSourceAndCount : Prop :=
  ∀ (s : State) (lat : Latched), s.phase = .busy lat .started → SrcDstReady s lat →
    let n := lat.srcLen.toNat
    let t := lat.param.toNat
    (n ≤ t → t ≤ n + 255 →
      (t ≤ lat.dstCap.toNat →
        Succeeds .pad s lat.dstAddr.toNat
          (srcBytes s lat ++ List.replicate (t - n) (BitVec.ofNat 8 (t - n))) 0) ∧
      (lat.dstCap.toNat < t → Fails .pad s 0x13 3)) ∧
    (t < n ∨ n + 255 < t → Fails .pad s 4 4)

/-- UNPAD.v writes SRC without its run of k trailing bytes of value k, and is InvalidPadding when there
is none (41_codec.md R177, V = 1). -/
def Obligations.ValidatedUnpadWritesTheRest : Prop :=
  ∀ (s : State) (lat : Latched), s.phase = .busy lat .started → SrcDstReady s lat →
    (∀ out k, 1 ≤ k → k ≤ 255 → srcBytes s lat = out ++ List.replicate k (BitVec.ofNat 8 k) →
      (out.length ≤ lat.dstCap.toNat → Succeeds (.unpad true) s lat.dstAddr.toNat out 0) ∧
      (lat.dstCap.toNat < out.length → Fails (.unpad true) s 0x13 3)) ∧
    ((∀ out k, 1 ≤ k → k ≤ 255 → srcBytes s lat ≠ out ++ List.replicate k (BitVec.ofNat 8 k)) →
      Fails (.unpad true) s 6 1)

/-- UNPAD drops as many bytes as the last byte of SRC says, unchecked; more than there are is
InvalidLength; an empty SRC gives an empty output (41_codec.md R177, V = 0). -/
def Obligations.UnvalidatedUnpadDropsTheClaimedCount : Prop :=
  ∀ (s : State) (lat : Latched), s.phase = .busy lat .started → SrcDstReady s lat →
    let n := lat.srcLen.toNat
    (n = 0 → Succeeds (.unpad false) s lat.dstAddr.toNat [] 0) ∧
    (∀ init p, srcBytes s lat = init ++ [p] →
      (p.toNat ≤ n →
        (n - p.toNat ≤ lat.dstCap.toNat →
          Succeeds (.unpad false) s lat.dstAddr.toNat ((srcBytes s lat).take (n - p.toNat)) 0) ∧
        (lat.dstCap.toNat < n - p.toNat → Fails (.unpad false) s 0x13 3)) ∧
      (n < p.toNat → Fails (.unpad false) s 4 1))

/-! ### XOR datapath -/

/-- XOR_FIXED in every encoding: byte i of the result is a[i] xor b[i], written in the encoding of the
operands, as long as SRC's own text; unequal decoded lengths are LengthMismatch (42_xor.md R221, R224). -/
def Obligations.XorFixedWritesTheBytewiseXor : Prop :=
  ∀ (enc : Enc) (s : State) (lat : Latched) (x y : Bytes), s.phase = .busy lat .started → AllReady s lat →
    Represents enc (srcBytes s lat) x → Represents enc (auxBytes s lat) y →
    (x.length = y.length →
      ∃ r, (∀ i, i < x.length → r[i]? = some (x.getD i 0 ^^^ y.getD i 0)) ∧ r.length = x.length ∧
        (encodeAs enc r).length = lat.srcLen.toNat ∧
        (lat.srcLen.toNat ≤ lat.dstCap.toNat →
          Succeeds (.xorFixed enc) s lat.dstAddr.toNat (encodeAs enc r) 0) ∧
        (lat.dstCap.toNat < lat.srcLen.toNat → Fails (.xorFixed enc) s 0x13 3)) ∧
    (x.length ≠ y.length → Fails (.xorFixed enc) s 2 2)

/-- XOR_REPEAT in every encoding: byte i of the result is t[i] xor k[i mod len(k)]; an empty key is
EmptyKey, even for an empty text (42_xor.md R222, R225). -/
def Obligations.XorRepeatCyclesTheKey : Prop :=
  ∀ (enc : Enc) (s : State) (lat : Latched) (t k : Bytes), s.phase = .busy lat .started → AllReady s lat →
    Represents enc (srcBytes s lat) t → Represents enc (auxBytes s lat) k →
    (k ≠ [] →
      ∃ r, (∀ i, i < t.length → r[i]? = some (t.getD i 0 ^^^ k.getD (i % k.length) 0)) ∧
        r.length = t.length ∧ (encodeAs enc r).length = lat.srcLen.toNat ∧
        (lat.srcLen.toNat ≤ lat.dstCap.toNat →
          Succeeds (.xorRepeat enc) s lat.dstAddr.toNat (encodeAs enc r) 0) ∧
        (lat.dstCap.toNat < lat.srcLen.toNat → Fails (.xorRepeat enc) s 0x13 3)) ∧
    (k = [] → Fails (.xorRepeat enc) s 3 2)

/-- HAMMING counts the differing bits of its operands into RESULT, which holds the whole count; it uses
no destination, so DST may be anything, and it writes no BUF byte (42_xor.md R223, R226). -/
def Obligations.HammingCountsDifferingBits : Prop :=
  ∀ (enc : Enc) (s : State) (lat : Latched) (x y : Bytes), s.phase = .busy lat .started →
    s.platform.memSize ≤ 2 ^ 28 → InRange s lat.srcAddr lat.srcLen → InRange s lat.auxAddr lat.auxLen →
    Represents enc (srcBytes s lat) x → Represents enc (auxBytes s lat) y →
    (x.length = y.length →
      let d := ((List.range (8 * x.length)).filter fun j =>
        (x.getD (j / 8) 0).getLsbD (j % 8) != (y.getD (j / 8) 0).getLsbD (j % 8)).length
      d < 2 ^ 32 ∧ Succeeds (.hamming enc) s lat.dstAddr.toNat [] d) ∧
    (x.length ≠ y.length → Fails (.hamming enc) s 2 2)

/-- With ENC = HEX or B64 a malformed SRC text is MalformedInput (1), checked before AUX's, which is
MalformedInput (2), and both come before any length, key or capacity check (60_exceptions.md R296). -/
def Obligations.MalformedXorOperandsReportInOrder : Prop :=
  ∀ (enc : Enc) (s : State) (lat : Latched) (i : Instr), s.phase = .busy lat .started →
    (i = .hamming enc ∧ InRange s lat.srcAddr lat.srcLen ∧ InRange s lat.auxAddr lat.auxLen ∨
      (i = .xorFixed enc ∨ i = .xorRepeat enc) ∧ AllReady s lat) →
    ((∀ x, ¬Represents enc (srcBytes s lat) x) → Fails i s 1 1) ∧
    (∀ x, Represents enc (srcBytes s lat) x → (∀ y, ¬Represents enc (auxBytes s lat) y) → Fails i s 1 2)

/-- The laws of the XOR functions: both involutions, and that the Hamming distance is symmetric and 0
exactly between equal sequences (42_xor.md R227). -/
def Obligations.XorLaws : Prop :=
  (∀ (a b : Bytes) (id : Operand), a.length = b.length →
    ∃ x, fixedXor a b id = .ok x ∧ fixedXor x b id = .ok a) ∧
  (∀ (t k : Bytes) (id : Operand), k ≠ [] →
    ∃ x, repeatingKeyXor t k id = .ok x ∧ repeatingKeyXor x k id = .ok t) ∧
  (∀ (a b : Bytes) (id : Operand), hamming a b id = hamming b a id ∧ (hamming a b id = .ok 0 ↔ a = b))

/-! ### CBC -/

/-- The padding of CBC_ENC: 1 to 16 bytes, up to the next multiple of 16, and a whole block when the
length is already one (43_cbc.md R254, R260). -/
def Obligations.CbcPaddingReachesTheNextBlock : Prop :=
  ∀ p : Bytes,
    let n := p.length
    1 ≤ cbcPadLen n ∧ cbcPadLen n ≤ 16 ∧ n + cbcPadLen n = 16 * (n / 16 + 1) ∧
    (n % 16 = 0 → cbcPadLen n = 16) ∧ (cbcPadded p).length = 16 * (n / 16 + 1) ∧
    padBlock p (n + cbcPadLen n) .param = .ok (cbcPadded p)

/-- CBC decryption undoes CBC encryption, for every accepted block function pair, IV and plaintext, with
either V: the chaining passes are inverse, un-padding with limit 16 removes exactly the padding, and
the last chaining values agree (43_cbc.md R259). -/
def Obligations.CbcRoundTrip : Prop :=
  ∀ (e d : Block → Block) (iv : Block) (p : Bytes) (v : Bool), (∀ x, d (e x) = x) →
    let c := cbcEncryptBlocks e iv (toBlocks (cbcPadded p))
    c.1.length = 16 * (p.length / 16 + 1) ∧
    ∃ q, cbcDecryptBlocks d iv (toBlocks c.1) = (q, c.2) ∧ unpad q v 16 .dst = .ok p

/-- CBC_ENC, once its operands are in order: the engine takes the pre-checks' step, CHAIN takes the IV
and the first request goes to the port; after m = n div 16 + 1 answers, each followed by an engine
step, the command has completed with the CBC ciphertext of the padded plaintext in DST, OUT_LEN = 16 m
and CHAIN the last ciphertext block. Nothing else changes but the model's draw count
(43_cbc.md R251, R253, R255, R257). The agenda is the model's (log entry 4), and so is the number of
engine steps (log entry 5). -/
def Obligations.CbcEncWritesTheChainedCiphertext : Prop :=
  ∀ (s : State) (lat : Latched), s.phase = .busy lat .started → AllReady s lat →
    blockKeyOk s lat.auxLen.toNat = true →
    let k := auxBytes s lat
    let ps := toBlocks (cbcPadded (srcBytes s lat))
    let m := lat.srcLen.toNat / 16 + 1
    let c := cbcEncryptBlocks (Config.blockEncrypt s.platform.keyLens k) lat.iv ps
    16 * m ≤ lat.dstCap.toNat →
    ∃ t, exec .cbcEnc s = .next t ∧
      (∃ x d, x ∈ ps.head? ∧ t =
        { s with
          phase := .busy lat (.cbc ⟨.enc, false, k, ps, 0, []⟩)
          bcpReq := some ⟨.enc, k, Block.xor x lat.iv⟩
          bcpAnswer := none
          chain := lat.iv
          chainWritten := true
          draws := d }) ∧
      ∃ buf d, Stored s.buf buf lat.dstAddr.toNat c.1 ∧ c.1.length = 16 * m ∧
        Host.Core.run Sys2Proof.core (2 * m) { t with agenda := cbcRounds m } = .next
          { s with
            agenda := []
            buf := buf
            outLen := BitVec.ofNat 32 (16 * m)
            result := 0
            chain := c.2
            chainWritten := true
            err := false
            errcode := 0
            errinfo := 0
            done := true
            phase := .idle
            bcpReq := none
            bcpAnswer := none
            draws := d }

/-- CBC_DEC, once its operands are in order: the engine takes the pre-checks' step, and after
m = n div 16 answers (none for an empty ciphertext), each followed by an engine step, it has completed:
with the un-padded plaintext in DST, or with the padding error charged to DST and every byte outside
BUF[dst_addr .. dst_addr + n) as before; CHAIN is the last ciphertext block, or the IV when n = 0, either
way (43_cbc.md R256, R258; 60_exceptions.md R295). With m >= 1 the pre-checks' step sets CHAIN to the IV
and sends the first request, (DEC, key, c_0), and changes nothing else (R251, R253). After a padding error
each byte of the havoc range is unspecified: each read of it draws a free value. The agenda is the
model's (log entry 4), and so are the number of engine steps (log entry 5) and the form of the
unspecified bytes (log entries 3 and 7). -/
def Obligations.CbcDecWritesThePlaintextOrHavoc : Prop :=
  ∀ (v : Bool) (s : State) (lat : Latched), s.phase = .busy lat .started → AllReady s lat →
    s.bcpReq = none → s.bcpAnswer = none →
    blockKeyOk s lat.auxLen.toNat = true → lat.srcLen.toNat % 16 = 0 →
    lat.srcLen.toNat ≤ lat.dstCap.toNat →
    let cs := toBlocks (srcBytes s lat)
    let m := lat.srcLen.toNat / 16
    let p := cbcDecryptBlocks (Config.blockDecrypt s.platform.keyLens (auxBytes s lat)) lat.iv cs
    ∃ t, exec (.cbcDec v) s = .next t ∧
      (∀ c ∈ cs.head?, ∃ d, t =
        { s with
          phase := .busy lat (.cbc ⟨.dec, v, auxBytes s lat, cs, 0, []⟩)
          bcpReq := some ⟨.dec, auxBytes s lat, c⟩
          bcpAnswer := none
          chain := lat.iv
          chainWritten := true
          draws := d }) ∧
      (cs.head? = none ↔ m = 0) ∧
      (∀ out, unpad p.1 v 16 .dst = .ok out →
        ∃ buf d, Stored s.buf buf lat.dstAddr.toNat out ∧
          Host.Core.run Sys2Proof.core (2 * m) { t with agenda := cbcRounds m } = .next
            { s with
              agenda := []
              buf := buf
              outLen := BitVec.ofNat 32 out.length
              result := 0
              chain := (cs.getLast?).getD lat.iv
              chainWritten := true
              err := false
              errcode := 0
              errinfo := 0
              done := true
              phase := .idle
              draws := d }) ∧
      (∀ e, unpad p.1 v 16 .dst = .error e →
        ∃ buf d, (∀ x, x < lat.dstAddr.toNat ∨ lat.dstAddr.toNat + lat.srcLen.toNat ≤ x →
            buf.byte? x = s.buf.byte? x) ∧
          (∀ x, lat.dstAddr.toNat ≤ x → x < lat.dstAddr.toNat + lat.srcLen.toNat → buf.byte? x = none) ∧
          Host.Core.run Sys2Proof.core (2 * m) { t with agenda := cbcRounds m } = .next
            { s with
              agenda := []
              buf := buf
              chain := (cs.getLast?).getD lat.iv
              chainWritten := true
              err := true
              errcode := if v then 6 else 4
              errinfo := 3
              done := true
              phase := .idle
              draws := d })

/-- The CBC commands' own pre-checks, in their order, before any request and any write: a ciphertext
length that is no multiple of 16 is InvalidLength (1); a key length the primitive does not accept, in
particular any below 16, is InvalidLength (2); then an output that does not fit is DstOverflow, which
CBC_DEC checks on the ciphertext length (43_cbc.md R252, R257, R258; 60_exceptions.md R296). -/
def Obligations.CbcPreChecksReportInOrder : Prop :=
  ∀ (s : State) (lat : Latched), s.phase = .busy lat .started → AllReady s lat →
    let n := lat.srcLen.toNat
    let keyOk := blockKeyOk s lat.auxLen.toNat = true
    (lat.auxLen.toNat < 16 → ¬keyOk) ∧
    (¬keyOk → Fails .cbcEnc s 4 2) ∧
    (keyOk → lat.dstCap.toNat < 16 * (n / 16 + 1) → Fails .cbcEnc s 0x13 3) ∧
    (∀ v, (n % 16 ≠ 0 → Fails (.cbcDec v) s 4 1) ∧
      (n % 16 = 0 → ¬keyOk → Fails (.cbcDec v) s 4 2) ∧
      (n % 16 = 0 → keyOk → lat.dstCap.toNat < n → Fails (.cbcDec v) s 0x13 3))

/-! ### Invariants and rules of the whole machine -/

/-- The invariant holds after reset, whatever MEM_SIZE and the accepted key lengths are. -/
def Obligations.ResetMeetsTheInvariant : Prop := Inv State.reset

/-- Every step, by any agent, keeps the invariant: BUF stays in canonical form inside [0 .. MEM_SIZE);
the result registers, codes and flags stay consistent; while Busy the latched values equal the
registers, the IV register by register where a register has been written; and a CBC pass is, after any
interleaving of host, engine and port moves, exactly where the spec's loop is (10_state.md R22, R38 to R40, R44 to R46; 43_cbc.md R251, R253, R255, R256). -/
def Obligations.EveryStepKeepsTheInvariant : Prop :=
  ∀ s t : State, Inv s → step s = .next t → Inv t

/-- Only a well-formed CMD write moves Idle to Busy; only a completion, a move of the engine that sets
DONE, or a reset moves Busy to Idle; and the phase is Busy, with a latched command and its progress,
exactly when STATUS.BUSY reads 1 (10_state.md R22). The agenda is the model's (log entry 4). -/
def Obligations.OnlyTheseEventsChangeThePhase : Prop :=
  ∀ s t : State, step s = .next t →
    (s.busy = false → t.busy = true → ∃ w rest, s.agenda = .host (.csrWrite 0x0C .four w) :: rest) ∧
    (s.busy = true → t.busy = false →
      t.done = true ∧ (s.agenda = [] ∨ ∃ rest, s.agenda = .engine :: rest) ∨
      ∃ rest, s.agenda = .reset :: rest) ∧
    ((s.csrValue .status).getLsbD 0 = true ↔ ∃ lat progress, s.phase = .busy lat progress)

/-- No host transaction disturbs a running command: while Busy it changes nothing but HAZ, BERR, the
bus reply and the model's draw count (70_reset_and_hazards.md R334; 20_memory.md R76). -/
def Obligations.HostCannotDisturbARunningCommand : Prop :=
  ∀ (s : State) (op : HostOp) (rest : List Event), s.busy = true → s.agenda = .host op :: rest →
    ∃ haz berr reply d,
      step s = .next { s with agenda := rest, haz := haz, berr := berr, reply := reply, draws := d } ∧
      (s.haz = true → haz = true) ∧ (s.berr = true → berr = true)

/-- HAZ and BERR are sticky: a step that clears one is a well-formed STATUS write while Idle that writes
1 to its bit, or a reset (10_state.md R30, R31). -/
def Obligations.HazAndBerrAreSticky : Prop :=
  ∀ s t : State, step s = .next t →
    (s.haz = true → t.haz = false →
      (∃ w rest, s.busy = false ∧ w.getLsbD 3 = true ∧ s.agenda = .host (.csrWrite 0x08 .four w) :: rest) ∨
      ∃ rest, s.agenda = .reset :: rest) ∧
    (s.berr = true → t.berr = false →
      (∃ w rest, s.busy = false ∧ w.getLsbD 4 = true ∧ s.agenda = .host (.csrWrite 0x08 .four w) :: rest) ∨
      ∃ rest, s.agenda = .reset :: rest)

/-- The engine writes no BUF byte outside the latched destination range, and no command writes the IV
registers, CTRL, CMD or the operand registers (20_memory.md R61; 10_state.md R41). -/
def Obligations.EngineWritesOnlyTheDestination : Prop :=
  ∀ (s t : State) (lat : Latched) (pr : Progress), Inv s → s.phase = .busy lat pr → engineStep s = .next t →
    (∀ a, a < lat.dstAddr.toNat ∨ lat.dstAddr.toNat + lat.dstCap.toNat ≤ a →
      t.buf.byte? a = s.buf.byte? a) ∧
    t.iv0 = s.iv0 ∧ t.iv1 = s.iv1 ∧ t.iv2 = s.iv2 ∧ t.iv3 = s.iv3 ∧ t.ie = s.ie ∧ t.cmd = s.cmd ∧
    t.srcAddr = s.srcAddr ∧ t.srcLen = s.srcLen ∧ t.auxAddr = s.auxAddr ∧ t.auxLen = s.auxLen ∧
    t.dstAddr = s.dstAddr ∧ t.dstCap = s.dstCap ∧ t.param = s.param ∧ t.haz = s.haz ∧ t.berr = s.berr

/-- Only CBC_ENC and CBC_DEC write CHAIN: a step that changes it, other than a reset, is an engine step
of a command whose word decodes to one of the two (10_state.md R42). -/
def Obligations.OnlyCbcCommandsWriteChain : Prop :=
  ∀ s t : State, Inv s → step s = .next t → (t.chain ≠ s.chain ∨ t.chainWritten ≠ s.chainWritten) →
    (∃ rest, s.agenda = .reset :: rest) ∨
    ∃ lat pr, s.phase = .busy lat pr ∧
      (decode lat.word = .ok .cbcEnc ∨ ∃ v, decode lat.word = .ok (.cbcDec v))

/-- A command ignores the operand registers its row does not list: run on latched values that differ
only there, it ends in the same state (30_encoding.md R96): AUX for the codec commands, DST for HAMMING,
PARAM for all but PAD, the IV for all but the CBC commands. PARAM is ignored by every engine step of a
running command, those of a CBC pass among them: the two runs differ in the latched PARAM itself as long
as they are Busy, and in nothing once they are Idle. -/
def Obligations.UnusedOperandsAreIgnored : Prop :=
  ∀ (i : Instr) (s : State) (lat : Latched) (a b p c d : Word) (iv : Block),
    let run := fun l => exec i { s with phase := .busy l .started }
    (usesAux i = false → run { lat with auxAddr := a, auxLen := b } = run lat) ∧
    (usesDst i = false → run { lat with dstAddr := c, dstCap := d } = run lat) ∧
    (i ≠ .pad → i ≠ .cbcEnc → (∀ v, i ≠ .cbcDec v) → run { lat with param := p } = run lat) ∧
    (i ≠ .cbcEnc → (∀ v, i ≠ .cbcDec v) → run { lat with iv := iv } = run lat) ∧
    (∀ (progress : Progress) (t : State),
      s.phase = .busy lat progress → decode lat.word = .ok i → i ≠ .pad → engineStep s = .next t →
      engineStep (s.withLatchedParam p) = .next (t.withLatchedParam p)) ∧
    (∀ t : State, t.phase = .idle → t.withLatchedParam p = t)

/-- Source bytes that have all been written are read as written, whatever the free values are
(20_memory.md R64, R70; 10_state.md R50). -/
def Obligations.WrittenOperandBytesReadAsWritten : Prop :=
  ∀ (s : State) (lat : Latched) (bs : Bytes),
    (bs.length = lat.srcLen.toNat →
      (∀ i, i < bs.length → s.buf.byte? (lat.srcAddr.toNat + i) = bs[i]?) → srcBytes s lat = bs) ∧
    (bs.length = lat.auxLen.toNat →
      (∀ i, i < bs.length → s.buf.byte? (lat.auxAddr.toNat + i) = bs[i]?) → auxBytes s lat = bs)
end

