-- ==== Sys2Proof/Laws/Memory.lean ====
section
/-! SUPPORT. The laws of BUF: a read after a write, and that every write keeps the canonical form and
stays inside the memory. -/

namespace Sys2Proof.Machine

/-- Every offset of a memory is below n. -/
abbrev Memory.below (m : Memory) (n : Nat) : Prop := ∀ c ∈ m, c.1 < n

theorem Memory.wf_nil : Memory.wf [] := List.Pairwise.nil

theorem Memory.mem_write {m : Memory} {a : Nat} {b : Byte} {c : Host.Cell} (h : c ∈ m.write a b) :
    c = (a, b) ∨ c ∈ m := by
  induction m with
  | nil => simpa [Memory.write] using h
  | cons x rest ih =>
    obtain ⟨k, v⟩ := x
    simp only [Memory.write] at h
    split at h
    · simpa using h
    · split at h
      · simp only [List.mem_cons] at h ⊢
        tauto
      · simp only [List.mem_cons] at h ⊢
        rcases h with h | h
        · exact .inr (.inl h)
        · exact (ih h).imp_right .inr

theorem Memory.write_wf {m : Memory} (h : m.wf) (a : Nat) (b : Byte) : (m.write a b).wf := by
  induction m with
  | nil => simp [Memory.write]
  | cons x rest ih =>
    obtain ⟨k, v⟩ := x
    obtain ⟨hk, hr⟩ := List.pairwise_cons.mp h
    simp only [Memory.write]
    split
    · rename_i hlt
      refine List.pairwise_cons.mpr ⟨fun c hc => ?_, h⟩
      rcases List.mem_cons.mp hc with rfl | hc
      · exact hlt
      · exact Nat.lt_trans hlt (hk c hc)
    · split
      · rename_i heq
        subst heq
        exact List.pairwise_cons.mpr ⟨hk, hr⟩
      · refine List.pairwise_cons.mpr ⟨fun c hc => ?_, ih hr⟩
        rcases Memory.mem_write hc with rfl | hc
        · simp only; omega
        · exact hk c hc

theorem Memory.write_below {m : Memory} {n a : Nat} (h : m.below n) (ha : a < n) (b : Byte) :
    (m.write a b).below n := by
  intro c hc
  rcases Memory.mem_write hc with rfl | hc
  · exact ha
  · exact h c hc

theorem Memory.byte?_of_lt {m : Memory} {a : Nat} (h : ∀ c ∈ m, a < c.1) : m.byte? a = none := by
  induction m with
  | nil => rfl
  | cons x rest ih =>
    obtain ⟨k, v⟩ := x
    have hk : a < k := h (k, v) (by simp)
    simp only [Memory.byte?]
    rw [if_neg (by omega)]
    exact ih fun c hc => h c (by simp [hc])

theorem Memory.byte?_write_same (m : Memory) (a : Nat) (b : Byte) :
    (m.write a b).byte? a = some b := by
  induction m with
  | nil => simp [Memory.write, Memory.byte?]
  | cons x rest ih =>
    obtain ⟨k, v⟩ := x
    simp only [Memory.write]
    split
    · simp [Memory.byte?]
    · split
      · simp [Memory.byte?]
      · simp only [Memory.byte?]
        rw [if_neg (by omega)]
        exact ih

theorem Memory.byte?_write_other (m : Memory) {a x : Nat} (h : x ≠ a) (b : Byte) :
    (m.write a b).byte? x = m.byte? x := by
  induction m with
  | nil => simp [Memory.write, Memory.byte?, Ne.symm h]
  | cons c rest ih =>
    obtain ⟨k, v⟩ := c
    simp only [Memory.write]
    split
    · simp [Memory.byte?, Ne.symm h]
    · split
      · rename_i heq
        subst heq
        simp [Memory.byte?, Ne.symm h]
      · simp only [Memory.byte?, ih]

theorem Memory.writeBytes_wf {m : Memory} (h : m.wf) (a : Nat) (bs : Bytes) :
    (m.writeBytes a bs).wf := by
  induction bs generalizing m a with
  | nil => exact h
  | cons b rest ih => exact ih (Memory.write_wf h a b) (a + 1)

theorem Memory.writeBytes_below {m : Memory} {n a : Nat} (h : m.below n) {bs : Bytes}
    (ha : a + bs.length ≤ n) : (m.writeBytes a bs).below n := by
  induction bs generalizing m a with
  | nil => exact h
  | cons b rest ih =>
    simp only [List.length_cons] at ha
    exact ih (Memory.write_below h (by omega) b) (by omega)

theorem Memory.byte?_writeBytes_outside (m : Memory) {a x : Nat} {bs : Bytes}
    (h : x < a ∨ a + bs.length ≤ x) : (m.writeBytes a bs).byte? x = m.byte? x := by
  induction bs generalizing m a with
  | nil => rfl
  | cons b rest ih =>
    simp only [List.length_cons] at h
    simp only [Memory.writeBytes]
    rw [ih (m.write a b) (by omega), Memory.byte?_write_other m (by omega)]

theorem Memory.byte?_writeBytes_inside (m : Memory) (a : Nat) {bs : Bytes} {i : Nat}
    (h : i < bs.length) : (m.writeBytes a bs).byte? (a + i) = bs[i]? := by
  induction bs generalizing m a i with
  | nil => simp at h
  | cons b rest ih =>
    simp only [Memory.writeBytes]
    cases i with
    | zero =>
      simp only [Nat.add_zero, List.getElem?_cons_zero]
      rw [Memory.byte?_writeBytes_outside _ (by omega), Memory.byte?_write_same]
    | succ j =>
      have := ih (m.write a b) (a + 1) (i := j) (by simpa using h)
      rw [show a + (j + 1) = a + 1 + j by omega, this]
      simp

theorem Memory.forget_wf {m : Memory} (h : m.wf) (a n : Nat) : (m.forget a n).wf :=
  h.sublist List.filter_sublist

theorem Memory.forget_below {m : Memory} {k : Nat} (h : m.below k) (a n : Nat) : (m.forget a n).below k :=
  fun c hc => h c (List.mem_of_mem_filter hc)

/-- Forgetting makes each byte of the range unspecified. -/
theorem Memory.byte?_forget_inside (m : Memory) {a n x : Nat} (h : a ≤ x ∧ x < a + n) :
    (m.forget a n).byte? x = none := by
  induction m with
  | nil => rfl
  | cons c rest ih =>
    obtain ⟨k, b⟩ := c
    by_cases hk : a ≤ k ∧ k < a + n
    · simpa [Memory.forget, hk] using ih
    · have hne : k ≠ x := by rintro rfl; exact hk h
      have : Memory.forget ((k, b) :: rest) a n = (k, b) :: Memory.forget rest a n := by
        simp only [Memory.forget, List.filter_cons]
        rw [if_pos (by simp; omega)]
      rw [this, Memory.byte?, if_neg hne, ih]

/-- Forgetting leaves every other byte alone. -/
theorem Memory.byte?_forget_outside (m : Memory) {a n x : Nat} (h : x < a ∨ a + n ≤ x) :
    (m.forget a n).byte? x = m.byte? x := by
  induction m with
  | nil => rfl
  | cons c rest ih =>
    obtain ⟨k, b⟩ := c
    by_cases hk : a ≤ k ∧ k < a + n
    · have hne : k ≠ x := by omega
      have : Memory.forget ((k, b) :: rest) a n = Memory.forget rest a n := by
        simp [Memory.forget, hk]
      rw [this, Memory.byte?, if_neg hne, ih]
    · have : Memory.forget ((k, b) :: rest) a n = (k, b) :: Memory.forget rest a n := by
        simp only [Memory.forget, List.filter_cons]
        rw [if_pos (by simp; omega)]
      rw [this, Memory.byte?, Memory.byte?, ih]

@[simp] theorem Memory.writeBytes_nil (m : Memory) (a : Nat) : m.writeBytes a [] = m := rfl

@[simp] theorem Memory.readBytes_length (m : Memory) (d a n : Nat) :
    (m.readBytes d a n).length = n := by
  simp [Memory.readBytes]

@[simp] theorem freeBytes_length (d n : Nat) : (freeBytes d n).length = n := by
  simp [freeBytes]

/-- What a read returns at one place: the byte written there, or a free byte (R50). -/
theorem Memory.readBytes_getElem? (m : Memory) (d a n : Nat) {i : Nat} (h : i < n) :
    (m.readBytes d a n)[i]? = some ((m.byte? (a + i)).getD (Config.freeByte (d + i))) := by
  simp [Memory.readBytes, h]

/-- A read of bytes that have all been written does not depend on the free values. -/
theorem Memory.readBytes_of_written (m : Memory) (d a : Nat) {bs : Bytes}
    (h : ∀ i, i < bs.length → m.byte? (a + i) = bs[i]?) : m.readBytes d a bs.length = bs := by
  apply List.ext_getElem?
  intro i
  by_cases hi : i < bs.length
  · rw [Memory.readBytes_getElem? m d a _ hi, h i hi]
    simp [hi]
  · rw [List.getElem?_eq_none (by simp; omega), List.getElem?_eq_none (by omega)]

/-- Read after write: the bytes just written come back. -/
theorem Memory.readBytes_writeBytes (m : Memory) (d a : Nat) (bs : Bytes) :
    (m.writeBytes a bs).readBytes d a bs.length = bs :=
  Memory.readBytes_of_written _ d a fun _ h => Memory.byte?_writeBytes_inside m a h

end Sys2Proof.Machine
end

