-- ==== Sys2Proof/Laws/State.lean ====
section
/-! SUPPORT. What each named update of the state does to each field, true by rfl. -/

namespace Sys2Proof.Machine

/-! ### start -/

@[simp] theorem State.start_platform (w : Word) (s : State) : (s.start w).platform = s.platform := rfl
@[simp] theorem State.start_ie (w : Word) (s : State) : (s.start w).ie = s.ie := rfl
@[simp] theorem State.start_done (w : Word) (s : State) : (s.start w).done = false := rfl
@[simp] theorem State.start_err (w : Word) (s : State) : (s.start w).err = false := rfl
@[simp] theorem State.start_haz (w : Word) (s : State) : (s.start w).haz = s.haz := rfl
@[simp] theorem State.start_berr (w : Word) (s : State) : (s.start w).berr = s.berr := rfl
@[simp] theorem State.start_errcode (w : Word) (s : State) : (s.start w).errcode = 0 := rfl
@[simp] theorem State.start_cmd (w : Word) (s : State) : (s.start w).cmd = w := rfl
@[simp] theorem State.start_srcAddr (w : Word) (s : State) : (s.start w).srcAddr = s.srcAddr := rfl
@[simp] theorem State.start_srcLen (w : Word) (s : State) : (s.start w).srcLen = s.srcLen := rfl
@[simp] theorem State.start_auxAddr (w : Word) (s : State) : (s.start w).auxAddr = s.auxAddr := rfl
@[simp] theorem State.start_auxLen (w : Word) (s : State) : (s.start w).auxLen = s.auxLen := rfl
@[simp] theorem State.start_dstAddr (w : Word) (s : State) : (s.start w).dstAddr = s.dstAddr := rfl
@[simp] theorem State.start_dstCap (w : Word) (s : State) : (s.start w).dstCap = s.dstCap := rfl
@[simp] theorem State.start_param (w : Word) (s : State) : (s.start w).param = s.param := rfl
@[simp] theorem State.start_outLen (w : Word) (s : State) : (s.start w).outLen = 0 := rfl
@[simp] theorem State.start_result (w : Word) (s : State) : (s.start w).result = 0 := rfl
@[simp] theorem State.start_errinfo (w : Word) (s : State) : (s.start w).errinfo = 0 := rfl
@[simp] theorem State.start_iv0 (w : Word) (s : State) : (s.start w).iv0 = s.iv0 := rfl
@[simp] theorem State.start_iv1 (w : Word) (s : State) : (s.start w).iv1 = s.iv1 := rfl
@[simp] theorem State.start_iv2 (w : Word) (s : State) : (s.start w).iv2 = s.iv2 := rfl
@[simp] theorem State.start_iv3 (w : Word) (s : State) : (s.start w).iv3 = s.iv3 := rfl
@[simp] theorem State.start_chain (w : Word) (s : State) : (s.start w).chain = s.chain := rfl
@[simp] theorem State.start_chainWritten (w : Word) (s : State) : (s.start w).chainWritten = s.chainWritten := rfl
@[simp] theorem State.start_buf (w : Word) (s : State) : (s.start w).buf = s.buf := rfl
@[simp] theorem State.start_phase (w : Word) (s : State) : (s.start w).phase = .busy (s.latch w) .started := rfl
@[simp] theorem State.start_bcpReq (w : Word) (s : State) : (s.start w).bcpReq = s.bcpReq := rfl
@[simp] theorem State.start_bcpAnswer (w : Word) (s : State) : (s.start w).bcpAnswer = s.bcpAnswer := rfl
@[simp] theorem State.start_agenda (w : Word) (s : State) : (s.start w).agenda = s.agenda := rfl
@[simp] theorem State.start_reply (w : Word) (s : State) : (s.start w).reply = s.reply := rfl
@[simp] theorem State.start_draws (w : Word) (s : State) : (s.start w).draws = s.draws + 4 := rfl

/-! ### succeed -/

@[simp] theorem State.succeed_platform (lat : Latched) (r : CmdOk) (s : State) : (s.succeed lat r).platform = s.platform := rfl
@[simp] theorem State.succeed_ie (lat : Latched) (r : CmdOk) (s : State) : (s.succeed lat r).ie = s.ie := rfl
@[simp] theorem State.succeed_done (lat : Latched) (r : CmdOk) (s : State) : (s.succeed lat r).done = true := rfl
@[simp] theorem State.succeed_err (lat : Latched) (r : CmdOk) (s : State) : (s.succeed lat r).err = false := rfl
@[simp] theorem State.succeed_haz (lat : Latched) (r : CmdOk) (s : State) : (s.succeed lat r).haz = s.haz := rfl
@[simp] theorem State.succeed_berr (lat : Latched) (r : CmdOk) (s : State) : (s.succeed lat r).berr = s.berr := rfl
@[simp] theorem State.succeed_errcode (lat : Latched) (r : CmdOk) (s : State) : (s.succeed lat r).errcode = 0 := rfl
@[simp] theorem State.succeed_cmd (lat : Latched) (r : CmdOk) (s : State) : (s.succeed lat r).cmd = s.cmd := rfl
@[simp] theorem State.succeed_srcAddr (lat : Latched) (r : CmdOk) (s : State) : (s.succeed lat r).srcAddr = s.srcAddr := rfl
@[simp] theorem State.succeed_srcLen (lat : Latched) (r : CmdOk) (s : State) : (s.succeed lat r).srcLen = s.srcLen := rfl
@[simp] theorem State.succeed_auxAddr (lat : Latched) (r : CmdOk) (s : State) : (s.succeed lat r).auxAddr = s.auxAddr := rfl
@[simp] theorem State.succeed_auxLen (lat : Latched) (r : CmdOk) (s : State) : (s.succeed lat r).auxLen = s.auxLen := rfl
@[simp] theorem State.succeed_dstAddr (lat : Latched) (r : CmdOk) (s : State) : (s.succeed lat r).dstAddr = s.dstAddr := rfl
@[simp] theorem State.succeed_dstCap (lat : Latched) (r : CmdOk) (s : State) : (s.succeed lat r).dstCap = s.dstCap := rfl
@[simp] theorem State.succeed_param (lat : Latched) (r : CmdOk) (s : State) : (s.succeed lat r).param = s.param := rfl
@[simp] theorem State.succeed_outLen (lat : Latched) (r : CmdOk) (s : State) : (s.succeed lat r).outLen = BitVec.ofNat 32 r.out.length := rfl
@[simp] theorem State.succeed_result (lat : Latched) (r : CmdOk) (s : State) : (s.succeed lat r).result = BitVec.ofNat 32 r.result := rfl
@[simp] theorem State.succeed_errinfo (lat : Latched) (r : CmdOk) (s : State) : (s.succeed lat r).errinfo = 0 := rfl
@[simp] theorem State.succeed_iv0 (lat : Latched) (r : CmdOk) (s : State) : (s.succeed lat r).iv0 = s.iv0 := rfl
@[simp] theorem State.succeed_iv1 (lat : Latched) (r : CmdOk) (s : State) : (s.succeed lat r).iv1 = s.iv1 := rfl
@[simp] theorem State.succeed_iv2 (lat : Latched) (r : CmdOk) (s : State) : (s.succeed lat r).iv2 = s.iv2 := rfl
@[simp] theorem State.succeed_iv3 (lat : Latched) (r : CmdOk) (s : State) : (s.succeed lat r).iv3 = s.iv3 := rfl
@[simp] theorem State.succeed_chain (lat : Latched) (r : CmdOk) (s : State) : (s.succeed lat r).chain = r.chain.getD s.chain := rfl
@[simp] theorem State.succeed_chainWritten (lat : Latched) (r : CmdOk) (s : State) : (s.succeed lat r).chainWritten = (s.chainWritten || r.chain.isSome) := rfl
@[simp] theorem State.succeed_buf (lat : Latched) (r : CmdOk) (s : State) : (s.succeed lat r).buf = s.buf.writeBytes lat.dstAddr.toNat r.out := rfl
@[simp] theorem State.succeed_phase (lat : Latched) (r : CmdOk) (s : State) : (s.succeed lat r).phase = .idle := rfl
@[simp] theorem State.succeed_bcpReq (lat : Latched) (r : CmdOk) (s : State) : (s.succeed lat r).bcpReq = s.bcpReq := rfl
@[simp] theorem State.succeed_bcpAnswer (lat : Latched) (r : CmdOk) (s : State) : (s.succeed lat r).bcpAnswer = s.bcpAnswer := rfl
@[simp] theorem State.succeed_agenda (lat : Latched) (r : CmdOk) (s : State) : (s.succeed lat r).agenda = s.agenda := rfl
@[simp] theorem State.succeed_reply (lat : Latched) (r : CmdOk) (s : State) : (s.succeed lat r).reply = s.reply := rfl
@[simp] theorem State.succeed_draws (lat : Latched) (r : CmdOk) (s : State) : (s.succeed lat r).draws = s.draws := rfl

/-! ### errorEntry -/

@[simp] theorem State.errorEntry_platform (e : CmdError) (s : State) : (s.errorEntry e).platform = s.platform := rfl
@[simp] theorem State.errorEntry_ie (e : CmdError) (s : State) : (s.errorEntry e).ie = s.ie := rfl
@[simp] theorem State.errorEntry_done (e : CmdError) (s : State) : (s.errorEntry e).done = true := rfl
@[simp] theorem State.errorEntry_err (e : CmdError) (s : State) : (s.errorEntry e).err = true := rfl
@[simp] theorem State.errorEntry_haz (e : CmdError) (s : State) : (s.errorEntry e).haz = s.haz := rfl
@[simp] theorem State.errorEntry_berr (e : CmdError) (s : State) : (s.errorEntry e).berr = s.berr := rfl
@[simp] theorem State.errorEntry_errcode (e : CmdError) (s : State) : (s.errorEntry e).errcode = e.code.number := rfl
@[simp] theorem State.errorEntry_cmd (e : CmdError) (s : State) : (s.errorEntry e).cmd = s.cmd := rfl
@[simp] theorem State.errorEntry_srcAddr (e : CmdError) (s : State) : (s.errorEntry e).srcAddr = s.srcAddr := rfl
@[simp] theorem State.errorEntry_srcLen (e : CmdError) (s : State) : (s.errorEntry e).srcLen = s.srcLen := rfl
@[simp] theorem State.errorEntry_auxAddr (e : CmdError) (s : State) : (s.errorEntry e).auxAddr = s.auxAddr := rfl
@[simp] theorem State.errorEntry_auxLen (e : CmdError) (s : State) : (s.errorEntry e).auxLen = s.auxLen := rfl
@[simp] theorem State.errorEntry_dstAddr (e : CmdError) (s : State) : (s.errorEntry e).dstAddr = s.dstAddr := rfl
@[simp] theorem State.errorEntry_dstCap (e : CmdError) (s : State) : (s.errorEntry e).dstCap = s.dstCap := rfl
@[simp] theorem State.errorEntry_param (e : CmdError) (s : State) : (s.errorEntry e).param = s.param := rfl
@[simp] theorem State.errorEntry_outLen (e : CmdError) (s : State) : (s.errorEntry e).outLen = s.outLen := rfl
@[simp] theorem State.errorEntry_result (e : CmdError) (s : State) : (s.errorEntry e).result = s.result := rfl
@[simp] theorem State.errorEntry_errinfo (e : CmdError) (s : State) : (s.errorEntry e).errinfo = e.info.number := rfl
@[simp] theorem State.errorEntry_iv0 (e : CmdError) (s : State) : (s.errorEntry e).iv0 = s.iv0 := rfl
@[simp] theorem State.errorEntry_iv1 (e : CmdError) (s : State) : (s.errorEntry e).iv1 = s.iv1 := rfl
@[simp] theorem State.errorEntry_iv2 (e : CmdError) (s : State) : (s.errorEntry e).iv2 = s.iv2 := rfl
@[simp] theorem State.errorEntry_iv3 (e : CmdError) (s : State) : (s.errorEntry e).iv3 = s.iv3 := rfl
@[simp] theorem State.errorEntry_chain (e : CmdError) (s : State) : (s.errorEntry e).chain = s.chain := rfl
@[simp] theorem State.errorEntry_chainWritten (e : CmdError) (s : State) : (s.errorEntry e).chainWritten = s.chainWritten := rfl
@[simp] theorem State.errorEntry_buf (e : CmdError) (s : State) : (s.errorEntry e).buf = s.buf := rfl
@[simp] theorem State.errorEntry_phase (e : CmdError) (s : State) : (s.errorEntry e).phase = .idle := rfl
@[simp] theorem State.errorEntry_bcpReq (e : CmdError) (s : State) : (s.errorEntry e).bcpReq = s.bcpReq := rfl
@[simp] theorem State.errorEntry_bcpAnswer (e : CmdError) (s : State) : (s.errorEntry e).bcpAnswer = s.bcpAnswer := rfl
@[simp] theorem State.errorEntry_agenda (e : CmdError) (s : State) : (s.errorEntry e).agenda = s.agenda := rfl
@[simp] theorem State.errorEntry_reply (e : CmdError) (s : State) : (s.errorEntry e).reply = s.reply := rfl
@[simp] theorem State.errorEntry_draws (e : CmdError) (s : State) : (s.errorEntry e).draws = s.draws := rfl

/-! ### setChain -/

@[simp] theorem State.setChain_platform (c : Option Block) (s : State) : (s.setChain c).platform = s.platform := rfl
@[simp] theorem State.setChain_ie (c : Option Block) (s : State) : (s.setChain c).ie = s.ie := rfl
@[simp] theorem State.setChain_done (c : Option Block) (s : State) : (s.setChain c).done = s.done := rfl
@[simp] theorem State.setChain_err (c : Option Block) (s : State) : (s.setChain c).err = s.err := rfl
@[simp] theorem State.setChain_haz (c : Option Block) (s : State) : (s.setChain c).haz = s.haz := rfl
@[simp] theorem State.setChain_berr (c : Option Block) (s : State) : (s.setChain c).berr = s.berr := rfl
@[simp] theorem State.setChain_errcode (c : Option Block) (s : State) : (s.setChain c).errcode = s.errcode := rfl
@[simp] theorem State.setChain_cmd (c : Option Block) (s : State) : (s.setChain c).cmd = s.cmd := rfl
@[simp] theorem State.setChain_srcAddr (c : Option Block) (s : State) : (s.setChain c).srcAddr = s.srcAddr := rfl
@[simp] theorem State.setChain_srcLen (c : Option Block) (s : State) : (s.setChain c).srcLen = s.srcLen := rfl
@[simp] theorem State.setChain_auxAddr (c : Option Block) (s : State) : (s.setChain c).auxAddr = s.auxAddr := rfl
@[simp] theorem State.setChain_auxLen (c : Option Block) (s : State) : (s.setChain c).auxLen = s.auxLen := rfl
@[simp] theorem State.setChain_dstAddr (c : Option Block) (s : State) : (s.setChain c).dstAddr = s.dstAddr := rfl
@[simp] theorem State.setChain_dstCap (c : Option Block) (s : State) : (s.setChain c).dstCap = s.dstCap := rfl
@[simp] theorem State.setChain_param (c : Option Block) (s : State) : (s.setChain c).param = s.param := rfl
@[simp] theorem State.setChain_outLen (c : Option Block) (s : State) : (s.setChain c).outLen = s.outLen := rfl
@[simp] theorem State.setChain_result (c : Option Block) (s : State) : (s.setChain c).result = s.result := rfl
@[simp] theorem State.setChain_errinfo (c : Option Block) (s : State) : (s.setChain c).errinfo = s.errinfo := rfl
@[simp] theorem State.setChain_iv0 (c : Option Block) (s : State) : (s.setChain c).iv0 = s.iv0 := rfl
@[simp] theorem State.setChain_iv1 (c : Option Block) (s : State) : (s.setChain c).iv1 = s.iv1 := rfl
@[simp] theorem State.setChain_iv2 (c : Option Block) (s : State) : (s.setChain c).iv2 = s.iv2 := rfl
@[simp] theorem State.setChain_iv3 (c : Option Block) (s : State) : (s.setChain c).iv3 = s.iv3 := rfl
@[simp] theorem State.setChain_chain (c : Option Block) (s : State) : (s.setChain c).chain = c.getD s.chain := rfl
@[simp] theorem State.setChain_chainWritten (c : Option Block) (s : State) : (s.setChain c).chainWritten = (s.chainWritten || c.isSome) := rfl
@[simp] theorem State.setChain_buf (c : Option Block) (s : State) : (s.setChain c).buf = s.buf := rfl
@[simp] theorem State.setChain_phase (c : Option Block) (s : State) : (s.setChain c).phase = s.phase := rfl
@[simp] theorem State.setChain_bcpReq (c : Option Block) (s : State) : (s.setChain c).bcpReq = s.bcpReq := rfl
@[simp] theorem State.setChain_bcpAnswer (c : Option Block) (s : State) : (s.setChain c).bcpAnswer = s.bcpAnswer := rfl
@[simp] theorem State.setChain_agenda (c : Option Block) (s : State) : (s.setChain c).agenda = s.agenda := rfl
@[simp] theorem State.setChain_reply (c : Option Block) (s : State) : (s.setChain c).reply = s.reply := rfl
@[simp] theorem State.setChain_draws (c : Option Block) (s : State) : (s.setChain c).draws = s.draws := rfl

/-! ### havoc -/

@[simp] theorem State.havoc_platform (r : Option (Nat × Nat)) (s : State) : (s.havoc r).platform = s.platform := rfl
@[simp] theorem State.havoc_ie (r : Option (Nat × Nat)) (s : State) : (s.havoc r).ie = s.ie := rfl
@[simp] theorem State.havoc_done (r : Option (Nat × Nat)) (s : State) : (s.havoc r).done = s.done := rfl
@[simp] theorem State.havoc_err (r : Option (Nat × Nat)) (s : State) : (s.havoc r).err = s.err := rfl
@[simp] theorem State.havoc_haz (r : Option (Nat × Nat)) (s : State) : (s.havoc r).haz = s.haz := rfl
@[simp] theorem State.havoc_berr (r : Option (Nat × Nat)) (s : State) : (s.havoc r).berr = s.berr := rfl
@[simp] theorem State.havoc_errcode (r : Option (Nat × Nat)) (s : State) : (s.havoc r).errcode = s.errcode := rfl
@[simp] theorem State.havoc_cmd (r : Option (Nat × Nat)) (s : State) : (s.havoc r).cmd = s.cmd := rfl
@[simp] theorem State.havoc_srcAddr (r : Option (Nat × Nat)) (s : State) : (s.havoc r).srcAddr = s.srcAddr := rfl
@[simp] theorem State.havoc_srcLen (r : Option (Nat × Nat)) (s : State) : (s.havoc r).srcLen = s.srcLen := rfl
@[simp] theorem State.havoc_auxAddr (r : Option (Nat × Nat)) (s : State) : (s.havoc r).auxAddr = s.auxAddr := rfl
@[simp] theorem State.havoc_auxLen (r : Option (Nat × Nat)) (s : State) : (s.havoc r).auxLen = s.auxLen := rfl
@[simp] theorem State.havoc_dstAddr (r : Option (Nat × Nat)) (s : State) : (s.havoc r).dstAddr = s.dstAddr := rfl
@[simp] theorem State.havoc_dstCap (r : Option (Nat × Nat)) (s : State) : (s.havoc r).dstCap = s.dstCap := rfl
@[simp] theorem State.havoc_param (r : Option (Nat × Nat)) (s : State) : (s.havoc r).param = s.param := rfl
@[simp] theorem State.havoc_outLen (r : Option (Nat × Nat)) (s : State) : (s.havoc r).outLen = s.outLen := rfl
@[simp] theorem State.havoc_result (r : Option (Nat × Nat)) (s : State) : (s.havoc r).result = s.result := rfl
@[simp] theorem State.havoc_errinfo (r : Option (Nat × Nat)) (s : State) : (s.havoc r).errinfo = s.errinfo := rfl
@[simp] theorem State.havoc_iv0 (r : Option (Nat × Nat)) (s : State) : (s.havoc r).iv0 = s.iv0 := rfl
@[simp] theorem State.havoc_iv1 (r : Option (Nat × Nat)) (s : State) : (s.havoc r).iv1 = s.iv1 := rfl
@[simp] theorem State.havoc_iv2 (r : Option (Nat × Nat)) (s : State) : (s.havoc r).iv2 = s.iv2 := rfl
@[simp] theorem State.havoc_iv3 (r : Option (Nat × Nat)) (s : State) : (s.havoc r).iv3 = s.iv3 := rfl
@[simp] theorem State.havoc_chain (r : Option (Nat × Nat)) (s : State) : (s.havoc r).chain = s.chain := rfl
@[simp] theorem State.havoc_chainWritten (r : Option (Nat × Nat)) (s : State) : (s.havoc r).chainWritten = s.chainWritten := rfl
@[simp] theorem State.havoc_buf_none (s : State) : (s.havoc none).buf = s.buf := rfl
@[simp] theorem State.havoc_buf_some (a n : Nat) (s : State) : (s.havoc (some (a, n))).buf = s.buf.forget a n := rfl
@[simp] theorem State.havoc_phase (r : Option (Nat × Nat)) (s : State) : (s.havoc r).phase = s.phase := rfl
@[simp] theorem State.havoc_bcpReq (r : Option (Nat × Nat)) (s : State) : (s.havoc r).bcpReq = s.bcpReq := rfl
@[simp] theorem State.havoc_bcpAnswer (r : Option (Nat × Nat)) (s : State) : (s.havoc r).bcpAnswer = s.bcpAnswer := rfl
@[simp] theorem State.havoc_agenda (r : Option (Nat × Nat)) (s : State) : (s.havoc r).agenda = s.agenda := rfl
@[simp] theorem State.havoc_reply (r : Option (Nat × Nat)) (s : State) : (s.havoc r).reply = s.reply := rfl
@[simp] theorem State.havoc_draws (r : Option (Nat × Nat)) (s : State) : (s.havoc r).draws = s.draws := rfl

/-! ### drawOperands -/

@[simp] theorem State.drawOperands_platform (u : Bool) (lat : Latched) (s : State) : (s.drawOperands u lat).platform = s.platform := rfl
@[simp] theorem State.drawOperands_ie (u : Bool) (lat : Latched) (s : State) : (s.drawOperands u lat).ie = s.ie := rfl
@[simp] theorem State.drawOperands_done (u : Bool) (lat : Latched) (s : State) : (s.drawOperands u lat).done = s.done := rfl
@[simp] theorem State.drawOperands_err (u : Bool) (lat : Latched) (s : State) : (s.drawOperands u lat).err = s.err := rfl
@[simp] theorem State.drawOperands_haz (u : Bool) (lat : Latched) (s : State) : (s.drawOperands u lat).haz = s.haz := rfl
@[simp] theorem State.drawOperands_berr (u : Bool) (lat : Latched) (s : State) : (s.drawOperands u lat).berr = s.berr := rfl
@[simp] theorem State.drawOperands_errcode (u : Bool) (lat : Latched) (s : State) : (s.drawOperands u lat).errcode = s.errcode := rfl
@[simp] theorem State.drawOperands_cmd (u : Bool) (lat : Latched) (s : State) : (s.drawOperands u lat).cmd = s.cmd := rfl
@[simp] theorem State.drawOperands_srcAddr (u : Bool) (lat : Latched) (s : State) : (s.drawOperands u lat).srcAddr = s.srcAddr := rfl
@[simp] theorem State.drawOperands_srcLen (u : Bool) (lat : Latched) (s : State) : (s.drawOperands u lat).srcLen = s.srcLen := rfl
@[simp] theorem State.drawOperands_auxAddr (u : Bool) (lat : Latched) (s : State) : (s.drawOperands u lat).auxAddr = s.auxAddr := rfl
@[simp] theorem State.drawOperands_auxLen (u : Bool) (lat : Latched) (s : State) : (s.drawOperands u lat).auxLen = s.auxLen := rfl
@[simp] theorem State.drawOperands_dstAddr (u : Bool) (lat : Latched) (s : State) : (s.drawOperands u lat).dstAddr = s.dstAddr := rfl
@[simp] theorem State.drawOperands_dstCap (u : Bool) (lat : Latched) (s : State) : (s.drawOperands u lat).dstCap = s.dstCap := rfl
@[simp] theorem State.drawOperands_param (u : Bool) (lat : Latched) (s : State) : (s.drawOperands u lat).param = s.param := rfl
@[simp] theorem State.drawOperands_outLen (u : Bool) (lat : Latched) (s : State) : (s.drawOperands u lat).outLen = s.outLen := rfl
@[simp] theorem State.drawOperands_result (u : Bool) (lat : Latched) (s : State) : (s.drawOperands u lat).result = s.result := rfl
@[simp] theorem State.drawOperands_errinfo (u : Bool) (lat : Latched) (s : State) : (s.drawOperands u lat).errinfo = s.errinfo := rfl
@[simp] theorem State.drawOperands_iv0 (u : Bool) (lat : Latched) (s : State) : (s.drawOperands u lat).iv0 = s.iv0 := rfl
@[simp] theorem State.drawOperands_iv1 (u : Bool) (lat : Latched) (s : State) : (s.drawOperands u lat).iv1 = s.iv1 := rfl
@[simp] theorem State.drawOperands_iv2 (u : Bool) (lat : Latched) (s : State) : (s.drawOperands u lat).iv2 = s.iv2 := rfl
@[simp] theorem State.drawOperands_iv3 (u : Bool) (lat : Latched) (s : State) : (s.drawOperands u lat).iv3 = s.iv3 := rfl
@[simp] theorem State.drawOperands_chain (u : Bool) (lat : Latched) (s : State) : (s.drawOperands u lat).chain = s.chain := rfl
@[simp] theorem State.drawOperands_chainWritten (u : Bool) (lat : Latched) (s : State) : (s.drawOperands u lat).chainWritten = s.chainWritten := rfl
@[simp] theorem State.drawOperands_buf (u : Bool) (lat : Latched) (s : State) : (s.drawOperands u lat).buf = s.buf := rfl
@[simp] theorem State.drawOperands_phase (u : Bool) (lat : Latched) (s : State) : (s.drawOperands u lat).phase = s.phase := rfl
@[simp] theorem State.drawOperands_bcpReq (u : Bool) (lat : Latched) (s : State) : (s.drawOperands u lat).bcpReq = s.bcpReq := rfl
@[simp] theorem State.drawOperands_bcpAnswer (u : Bool) (lat : Latched) (s : State) : (s.drawOperands u lat).bcpAnswer = s.bcpAnswer := rfl
@[simp] theorem State.drawOperands_agenda (u : Bool) (lat : Latched) (s : State) : (s.drawOperands u lat).agenda = s.agenda := rfl
@[simp] theorem State.drawOperands_reply (u : Bool) (lat : Latched) (s : State) : (s.drawOperands u lat).reply = s.reply := rfl
@[simp] theorem State.drawOperands_draws (u : Bool) (lat : Latched) (s : State) :
    (s.drawOperands u lat).draws = s.draws + lat.srcLen.toNat + if u then lat.auxLen.toNat else 0 := rfl

/-! ### clearStatus -/

@[simp] theorem State.clearStatus_platform (w : Word) (s : State) : (s.clearStatus w).platform = s.platform := rfl
@[simp] theorem State.clearStatus_ie (w : Word) (s : State) : (s.clearStatus w).ie = s.ie := rfl
@[simp] theorem State.clearStatus_done (w : Word) (s : State) : (s.clearStatus w).done = (s.done && !w.getLsbD 1) := rfl
@[simp] theorem State.clearStatus_err (w : Word) (s : State) : (s.clearStatus w).err = (s.err && !w.getLsbD 2) := rfl
@[simp] theorem State.clearStatus_haz (w : Word) (s : State) : (s.clearStatus w).haz = (s.haz && !w.getLsbD 3) := rfl
@[simp] theorem State.clearStatus_berr (w : Word) (s : State) : (s.clearStatus w).berr = (s.berr && !w.getLsbD 4) := rfl
@[simp] theorem State.clearStatus_errcode (w : Word) (s : State) : (s.clearStatus w).errcode = s.errcode := rfl
@[simp] theorem State.clearStatus_cmd (w : Word) (s : State) : (s.clearStatus w).cmd = s.cmd := rfl
@[simp] theorem State.clearStatus_srcAddr (w : Word) (s : State) : (s.clearStatus w).srcAddr = s.srcAddr := rfl
@[simp] theorem State.clearStatus_srcLen (w : Word) (s : State) : (s.clearStatus w).srcLen = s.srcLen := rfl
@[simp] theorem State.clearStatus_auxAddr (w : Word) (s : State) : (s.clearStatus w).auxAddr = s.auxAddr := rfl
@[simp] theorem State.clearStatus_auxLen (w : Word) (s : State) : (s.clearStatus w).auxLen = s.auxLen := rfl
@[simp] theorem State.clearStatus_dstAddr (w : Word) (s : State) : (s.clearStatus w).dstAddr = s.dstAddr := rfl
@[simp] theorem State.clearStatus_dstCap (w : Word) (s : State) : (s.clearStatus w).dstCap = s.dstCap := rfl
@[simp] theorem State.clearStatus_param (w : Word) (s : State) : (s.clearStatus w).param = s.param := rfl
@[simp] theorem State.clearStatus_outLen (w : Word) (s : State) : (s.clearStatus w).outLen = s.outLen := rfl
@[simp] theorem State.clearStatus_result (w : Word) (s : State) : (s.clearStatus w).result = s.result := rfl
@[simp] theorem State.clearStatus_errinfo (w : Word) (s : State) : (s.clearStatus w).errinfo = s.errinfo := rfl
@[simp] theorem State.clearStatus_iv0 (w : Word) (s : State) : (s.clearStatus w).iv0 = s.iv0 := rfl
@[simp] theorem State.clearStatus_iv1 (w : Word) (s : State) : (s.clearStatus w).iv1 = s.iv1 := rfl
@[simp] theorem State.clearStatus_iv2 (w : Word) (s : State) : (s.clearStatus w).iv2 = s.iv2 := rfl
@[simp] theorem State.clearStatus_iv3 (w : Word) (s : State) : (s.clearStatus w).iv3 = s.iv3 := rfl
@[simp] theorem State.clearStatus_chain (w : Word) (s : State) : (s.clearStatus w).chain = s.chain := rfl
@[simp] theorem State.clearStatus_chainWritten (w : Word) (s : State) : (s.clearStatus w).chainWritten = s.chainWritten := rfl
@[simp] theorem State.clearStatus_buf (w : Word) (s : State) : (s.clearStatus w).buf = s.buf := rfl
@[simp] theorem State.clearStatus_phase (w : Word) (s : State) : (s.clearStatus w).phase = s.phase := rfl
@[simp] theorem State.clearStatus_bcpReq (w : Word) (s : State) : (s.clearStatus w).bcpReq = s.bcpReq := rfl
@[simp] theorem State.clearStatus_bcpAnswer (w : Word) (s : State) : (s.clearStatus w).bcpAnswer = s.bcpAnswer := rfl
@[simp] theorem State.clearStatus_agenda (w : Word) (s : State) : (s.clearStatus w).agenda = s.agenda := rfl
@[simp] theorem State.clearStatus_reply (w : Word) (s : State) : (s.clearStatus w).reply = s.reply := rfl
@[simp] theorem State.clearStatus_draws (w : Word) (s : State) : (s.clearStatus w).draws = s.draws := rfl

end Sys2Proof.Machine
end

