-- ==== Sys2Proof/Laws/Operands.lean ====
section
/-! SUPPORT. What the operand checks of a command answer, and how a command ends. -/

namespace Sys2Proof.Machine

@[simp] theorem failIf_pos {p : Prop} [Decidable p] (h : p) (c : ErrCode) (o : Operand) :
    failIf p c o = .error ⟨c, o⟩ := by simp [failIf, h, raise]

@[simp] theorem failIf_neg {p : Prop} [Decidable p] (h : ¬p) (c : ErrCode) (o : Operand) :
    failIf p c o = .ok () := by simp [failIf, h]

@[simp] theorem res_bind_ok {α β : Type} (a : α) (f : α → Res β) :
    ((Except.ok a : Res α) >>= f) = f a := rfl

@[simp] theorem res_bind_error {α β : Type} (e : CmdError) (f : α → Res β) :
    ((Except.error e : Res α) >>= f) = .error e := rfl

@[simp] theorem res_pure {α : Type} (a : α) : (pure a : Res α) = .ok a := rfl

@[simp] theorem srcBytes_length (s : State) (lat : Latched) :
    (srcBytes s lat).length = lat.srcLen.toNat := by simp [srcBytes]

@[simp] theorem auxBytes_length (s : State) (lat : Latched) :
    (auxBytes s lat).length = lat.auxLen.toNat := by simp [auxBytes]

theorem srcBuf_ok {s : State} {lat : Latched} (h : InRange s lat.srcAddr lat.srcLen) :
    srcBuf s lat = .ok (srcBytes s lat) := by
  have : ¬ lat.srcAddr.toNat + lat.srcLen.toNat > s.platform.memSize := by
    unfold InRange at h; omega
  simp [srcBuf, this]

theorem srcBuf_error {s : State} {lat : Latched} (h : ¬InRange s lat.srcAddr lat.srcLen) :
    srcBuf s lat = .error ⟨.addressRange, .src⟩ := by
  have : lat.srcAddr.toNat + lat.srcLen.toNat > s.platform.memSize := by
    unfold InRange at h; omega
  simp [srcBuf, this]

theorem auxBuf_ok {s : State} {lat : Latched} (h : InRange s lat.auxAddr lat.auxLen) :
    auxBuf s lat = .ok (auxBytes s lat) := by
  have : ¬ lat.auxAddr.toNat + lat.auxLen.toNat > s.platform.memSize := by
    unfold InRange at h; omega
  simp [auxBuf, this]

theorem auxBuf_error {s : State} {lat : Latched} (h : ¬InRange s lat.auxAddr lat.auxLen) :
    auxBuf s lat = .error ⟨.addressRange, .aux⟩ := by
  have : lat.auxAddr.toNat + lat.auxLen.toNat > s.platform.memSize := by
    unfold InRange at h; omega
  simp [auxBuf, this]

theorem dstCheck_ok {s : State} {lat : Latched} (h : InRange s lat.dstAddr lat.dstCap) :
    dstCheck s lat = .ok () := failIf_neg (by unfold InRange at h; omega) _ _

theorem dstCheck_error {s : State} {lat : Latched} (h : ¬InRange s lat.dstAddr lat.dstCap) :
    dstCheck s lat = .error ⟨.addressRange, .dst⟩ := failIf_pos (by unfold InRange at h; omega) _ _

theorem overlaps_iff_not_apart (a1 l1 a2 l2 : Word) :
    overlaps a1.toNat l1.toNat a2.toNat l2.toNat = true ↔ ¬Apart a1 l1 a2 l2 := by
  simp only [overlaps, Apart, Bool.and_eq_true, decide_eq_true_eq]
  omega

theorem overlapCheck_ok {lat : Latched} {u : Bool}
    (h : Apart lat.dstAddr lat.dstCap lat.srcAddr lat.srcLen)
    (ha : u = true → Apart lat.dstAddr lat.dstCap lat.auxAddr lat.auxLen) :
    overlapCheck lat u = .ok () := by
  have h1 : ¬ dstOverlapsSrc lat = true := by
    rw [dstOverlapsSrc, overlaps_iff_not_apart]; simpa using h
  have h2 : ¬ (u = true ∧ dstOverlapsAux lat = true) := by
    rw [dstOverlapsAux, overlaps_iff_not_apart]; simpa using ha
  simp only [overlapCheck, failIf_neg h1, failIf_neg h2, res_bind_ok]

theorem overlapCheck_src {lat : Latched} {u : Bool}
    (h : ¬Apart lat.dstAddr lat.dstCap lat.srcAddr lat.srcLen) :
    overlapCheck lat u = .error ⟨.bufferOverlap, .src⟩ := by
  have h1 : dstOverlapsSrc lat = true := by
    rw [dstOverlapsSrc, overlaps_iff_not_apart]; exact h
  simp only [overlapCheck, failIf_pos h1, res_bind_error]

theorem overlapCheck_aux {lat : Latched}
    (h : Apart lat.dstAddr lat.dstCap lat.srcAddr lat.srcLen)
    (ha : ¬Apart lat.dstAddr lat.dstCap lat.auxAddr lat.auxLen) :
    overlapCheck lat true = .error ⟨.bufferOverlap, .aux⟩ := by
  have h1 : ¬ dstOverlapsSrc lat = true := by
    rw [dstOverlapsSrc, overlaps_iff_not_apart]; simpa using h
  have h2 : dstOverlapsAux lat = true := by
    rw [dstOverlapsAux, overlaps_iff_not_apart]; exact ha
  simp only [overlapCheck, failIf_neg h1, res_bind_ok]
  exact failIf_pos ⟨trivial, h2⟩ _ _

theorem capCheck_ok {lat : Latched} {n : Nat} (h : n ≤ lat.dstCap.toNat) :
    capCheck lat n = .ok () := failIf_neg (by omega) _ _

theorem capCheck_error {lat : Latched} {n : Nat} (h : lat.dstCap.toNat < n) :
    capCheck lat n = .error ⟨.dstOverflow, .dst⟩ := failIf_pos h _ _

/-- Peel a bind: it answers Ok exactly when both its parts do. -/
theorem res_bind_eq_ok {α β : Type} {x : Res α} {f : α → Res β} {b : β} :
    (x >>= f) = .ok b ↔ ∃ a, x = .ok a ∧ f a = .ok b := by
  cases x <;> simp

theorem failIf_eq_ok {p : Prop} [Decidable p] {c : ErrCode} {o : Operand} {u : Unit} :
    failIf p c o = .ok u ↔ ¬p := by
  by_cases h : p <;> simp [h]

theorem failIf_eq_error {p : Prop} [Decidable p] {c : ErrCode} {o : Operand} {e : CmdError} :
    failIf p c o = .error e ↔ p ∧ e = ⟨c, o⟩ := by
  by_cases h : p <;> simp [h, eq_comm]

theorem dstCheck_eq_ok {s : State} {lat : Latched} {u : Unit} :
    dstCheck s lat = .ok u ↔ InRange s lat.dstAddr lat.dstCap := by
  simp only [dstCheck, failIf_eq_ok, InRange]
  omega

theorem capCheck_eq_ok {lat : Latched} {n : Nat} {u : Unit} :
    capCheck lat n = .ok u ↔ n ≤ lat.dstCap.toNat := by
  simp only [capCheck, failIf_eq_ok]
  omega

theorem srcBuf_eq_ok {s : State} {lat : Latched} {b : Bytes} (h : srcBuf s lat = .ok b) :
    b = srcBytes s lat := by
  simp only [srcBuf, res_bind_eq_ok, failIf_eq_ok, res_pure, Except.ok.injEq] at h
  obtain ⟨_, _, h⟩ := h
  exact h.symm

theorem auxBuf_eq_ok {s : State} {lat : Latched} {b : Bytes} (h : auxBuf s lat = .ok b) :
    b = auxBytes s lat := by
  simp only [auxBuf, res_bind_eq_ok, failIf_eq_ok, res_pure, Except.ok.injEq] at h
  obtain ⟨_, _, h⟩ := h
  exact h.symm

theorem stored_writeBytes (m : Memory) (a : Nat) (bs : Bytes) :
    Stored m (m.writeBytes a bs) a bs :=
  ⟨fun _ h => Memory.byte?_writeBytes_inside m a h,
    fun _ h => Memory.byte?_writeBytes_outside m h⟩

/-- A one-step command whose function returns Ok succeeds. -/
theorem succeeds_of_ok {i : Instr} {u : Bool} {f : State → Latched → CmdOutcome} {s : State} {lat : Latched}
    {pr : Progress} {out : Bytes} {n : Nat} (hi : exec i s = runCommand u f s)
    (hp : s.phase = .busy lat pr) (hf : f s lat = .ok ⟨out, n, none⟩) :
    Succeeds i s lat.dstAddr.toNat out n := by
  refine ⟨s.buf.writeBytes lat.dstAddr.toNat out, (s.drawOperands u lat).draws,
    stored_writeBytes _ _ _, ?_⟩
  rw [hi, runCommand, hp]
  simp only [hf, State.complete, State.succeed, State.drawOperands]
  simp

/-- A one-step command whose function raises an error fails with it. -/
theorem fails_of_err {i : Instr} {u : Bool} {f : State → Latched → CmdOutcome} {s : State} {lat : Latched}
    {pr : Progress} {e : CmdError} (hi : exec i s = runCommand u f s)
    (hp : s.phase = .busy lat pr) (hf : f s lat = .err e none none) :
    Fails i s e.code.number e.info.number := by
  refine ⟨(s.drawOperands u lat).draws, ?_⟩
  rw [hi, runCommand, hp]
  simp only [hf, State.complete, State.havoc, State.setChain, State.errorEntry, State.drawOperands]
  simp

/-- A CBC command whose pre-checks raise an error fails with it. -/
theorem fails_of_cbc_error {i : Instr} {pre : State → Latched → Res CbcRun} {s : State}
    {lat : Latched} {pr : Progress} {e : CmdError} (hi : exec i s = runCbc pre s)
    (hp : s.phase = .busy lat pr) (hf : pre s lat = .error e) :
    Fails i s e.code.number e.info.number := by
  refine ⟨(s.drawOperands true lat).draws, ?_⟩
  rw [hi, runCbc, hp]
  simp only [hf, State.complete, State.havoc, State.setChain, State.errorEntry, State.drawOperands]
  simp

end Sys2Proof.Machine
end

