-- ==== Sys2Proof/Laws/Commands.lean ====
section
/-! SUPPORT. What a command function can return, and what an engine step can do, said once: every
invariant and every rule of the whole machine about `exec` and `step` follows from these. -/

namespace Sys2Proof.Machine

/-- A one-step command's outcome: an output that fits a destination in range (or no output at all), no
havoc and no change of CHAIN. -/
def OutcomeFits (s : State) (lat : Latched) (o : CmdOutcome) : Prop :=
  match o with
  | .ok r => r.chain = none ∧
      (r.out = [] ∨ (r.out.length ≤ lat.dstCap.toNat ∧ InRange s lat.dstAddr lat.dstCap))
  | .err _ havoc chain => havoc = none ∧ chain = none

theorem outcomeFits_of {s : State} {lat : Latched} {r : Res CmdOk}
    (h : ∀ a, r = .ok a → a.chain = none ∧
      (a.out = [] ∨ (a.out.length ≤ lat.dstCap.toNat ∧ InRange s lat.dstAddr lat.dstCap))) :
    OutcomeFits s lat (outcomeOf r) := by
  cases r with
  | ok a => exact h a rfl
  | error e => exact ⟨rfl, rfl⟩

theorem hexEncF_fits (s : State) (lat : Latched) : OutcomeFits s lat (hexEncF s lat) := by
  refine outcomeFits_of fun a h => ?_
  simp only [res_bind_eq_ok, dstCheck_eq_ok, capCheck_eq_ok, res_pure, Except.ok.injEq] at h
  obtain ⟨_, _, _, hd, _, _, _, hc, rfl⟩ := h
  exact ⟨rfl, .inr ⟨hc, hd⟩⟩

theorem hexDecF_fits (s : State) (lat : Latched) : OutcomeFits s lat (hexDecF s lat) := by
  refine outcomeFits_of fun a h => ?_
  simp only [res_bind_eq_ok, dstCheck_eq_ok, capCheck_eq_ok, res_pure, Except.ok.injEq] at h
  obtain ⟨_, _, _, hd, _, _, _, _, _, hc, rfl⟩ := h
  exact ⟨rfl, .inr ⟨hc, hd⟩⟩

theorem b64EncF_fits (s : State) (lat : Latched) : OutcomeFits s lat (b64EncF s lat) := by
  refine outcomeFits_of fun a h => ?_
  simp only [res_bind_eq_ok, dstCheck_eq_ok, capCheck_eq_ok, res_pure, Except.ok.injEq] at h
  obtain ⟨_, _, _, hd, _, _, _, hc, rfl⟩ := h
  exact ⟨rfl, .inr ⟨hc, hd⟩⟩

theorem b64DecF_fits (s : State) (lat : Latched) : OutcomeFits s lat (b64DecF s lat) := by
  refine outcomeFits_of fun a h => ?_
  simp only [res_bind_eq_ok, dstCheck_eq_ok, capCheck_eq_ok, res_pure, Except.ok.injEq] at h
  obtain ⟨_, _, _, hd, _, _, _, _, _, hc, rfl⟩ := h
  exact ⟨rfl, .inr ⟨hc, hd⟩⟩

theorem hexToB64F_fits (s : State) (lat : Latched) : OutcomeFits s lat (hexToB64F s lat) := by
  refine outcomeFits_of fun a h => ?_
  simp only [res_bind_eq_ok, dstCheck_eq_ok, capCheck_eq_ok, res_pure, Except.ok.injEq] at h
  obtain ⟨_, _, _, hd, _, _, _, _, _, hc, rfl⟩ := h
  exact ⟨rfl, .inr ⟨hc, hd⟩⟩

theorem b64ToHexF_fits (s : State) (lat : Latched) : OutcomeFits s lat (b64ToHexF s lat) := by
  refine outcomeFits_of fun a h => ?_
  simp only [res_bind_eq_ok, dstCheck_eq_ok, capCheck_eq_ok, res_pure, Except.ok.injEq] at h
  obtain ⟨_, _, _, hd, _, _, _, _, _, hc, rfl⟩ := h
  exact ⟨rfl, .inr ⟨hc, hd⟩⟩

theorem padF_fits (s : State) (lat : Latched) : OutcomeFits s lat (padF s lat) := by
  refine outcomeFits_of fun a h => ?_
  simp only [res_bind_eq_ok, dstCheck_eq_ok, capCheck_eq_ok, res_pure, Except.ok.injEq] at h
  obtain ⟨_, _, _, hd, _, _, _, _, _, hc, rfl⟩ := h
  exact ⟨rfl, .inr ⟨hc, hd⟩⟩

theorem unpadF_fits (v : Bool) (s : State) (lat : Latched) :
    OutcomeFits s lat (unpadF v s lat) := by
  refine outcomeFits_of fun a h => ?_
  simp only [res_bind_eq_ok, dstCheck_eq_ok, capCheck_eq_ok, res_pure, Except.ok.injEq] at h
  obtain ⟨_, _, _, hd, _, _, _, _, _, hc, rfl⟩ := h
  exact ⟨rfl, .inr ⟨hc, hd⟩⟩

theorem xorFixedF_fits (enc : Enc) (s : State) (lat : Latched) :
    OutcomeFits s lat (xorFixedF enc s lat) := by
  refine outcomeFits_of fun a h => ?_
  simp only [res_bind_eq_ok, dstCheck_eq_ok, capCheck_eq_ok, res_pure, Except.ok.injEq] at h
  obtain ⟨_, _, _, _, _, hd, _, _, _, _, _, _, _, _, _, hc, rfl⟩ := h
  exact ⟨rfl, .inr ⟨hc, hd⟩⟩

theorem xorRepeatF_fits (enc : Enc) (s : State) (lat : Latched) :
    OutcomeFits s lat (xorRepeatF enc s lat) := by
  refine outcomeFits_of fun a h => ?_
  simp only [res_bind_eq_ok, dstCheck_eq_ok, capCheck_eq_ok, res_pure, Except.ok.injEq] at h
  obtain ⟨_, _, _, _, _, hd, _, _, _, _, _, _, _, _, _, hc, rfl⟩ := h
  exact ⟨rfl, .inr ⟨hc, hd⟩⟩

theorem hammingF_fits (enc : Enc) (s : State) (lat : Latched) :
    OutcomeFits s lat (hammingF enc s lat) := by
  refine outcomeFits_of fun a h => ?_
  simp only [res_bind_eq_ok, res_pure, Except.ok.injEq] at h
  obtain ⟨_, _, _, _, _, _, _, _, _, _, rfl⟩ := h
  exact ⟨rfl, .inl rfl⟩

/-- What CBC_ENC's pre-checks leave when they pass. -/
theorem cbcEncPre_ok {s : State} {lat : Latched} {run : CbcRun} (h : cbcEncPre s lat = .ok run) :
    run = ⟨.enc, false, auxBytes s lat, toBlocks (cbcPadded (srcBytes s lat)), 0, []⟩ ∧
      InRange s lat.dstAddr lat.dstCap ∧ blockKeyOk s lat.auxLen.toNat = true ∧
      lat.srcLen.toNat + cbcPadLen lat.srcLen.toNat ≤ lat.dstCap.toNat := by
  simp only [cbcEncPre, res_bind_eq_ok, dstCheck_eq_ok, capCheck_eq_ok, failIf_eq_ok, res_pure,
    Except.ok.injEq] at h
  obtain ⟨p, hp, k, hk, _, hd, _, _, _, hok, _, hc, rfl⟩ := h
  rw [srcBuf_eq_ok hp, auxBuf_eq_ok hk] at *
  simp only [srcBytes_length, auxBytes_length, Bool.not_eq_false] at *
  exact ⟨trivial, hd, hok, hc⟩

/-- What CBC_DEC's pre-checks leave when they pass. -/
theorem cbcDecPre_ok {v : Bool} {s : State} {lat : Latched} {run : CbcRun}
    (h : cbcDecPre v s lat = .ok run) :
    run = ⟨.dec, v, auxBytes s lat, toBlocks (srcBytes s lat), 0, []⟩ ∧
      InRange s lat.dstAddr lat.dstCap ∧ blockKeyOk s lat.auxLen.toNat = true ∧
      lat.srcLen.toNat % 16 = 0 ∧ lat.srcLen.toNat ≤ lat.dstCap.toNat := by
  simp only [cbcDecPre, res_bind_eq_ok, dstCheck_eq_ok, capCheck_eq_ok, failIf_eq_ok, res_pure,
    Except.ok.injEq] at h
  obtain ⟨p, hp, k, hk, _, hd, _, _, _, hm, _, hok, _, hc, rfl⟩ := h
  rw [srcBuf_eq_ok hp, auxBuf_eq_ok hk] at *
  simp only [srcBytes_length, auxBytes_length, Bool.not_eq_false, ne_eq, not_not] at *
  exact ⟨trivial, hd, hok, hm, hc⟩

/-- The pre-checks of the CBC command i. -/
def cbcPreOf (i : Instr) (s : State) (lat : Latched) : Res CbcRun :=
  match i with
  | .cbcDec v => cbcDecPre v s lat
  | _ => cbcEncPre s lat

/-- What `exec` can do: nothing when Idle; complete a one-step command with an outcome that fits;
complete a CBC command with a pre-check error; or begin a CBC pass. It never stops. -/
theorem exec_cases (i : Instr) (s : State) :
    (s.phase = .idle ∧ exec i s = .next s) ∨
    (∃ lat pr, s.phase = .busy lat pr ∧
      ((∃ u o, OutcomeFits s lat o ∧ exec i s = .next ((s.drawOperands u lat).complete lat o)) ∨
       (∃ run, (i = .cbcEnc ∨ ∃ v, i = .cbcDec v) ∧ cbcPreOf i s lat = .ok run ∧
        exec i s = .next (cbcBegin lat run (s.drawOperands true lat))))) := by
  cases hp : s.phase with
  | idle =>
    refine .inl ⟨rfl, ?_⟩
    cases i <;>
      simp only [exec, execHexEnc, execHexDec, execB64Enc, execB64Dec, execHexToB64, execB64ToHex,
        execPad, execUnpad, execXorFixed, execXorRepeat, execHamming, execCbcEnc, execCbcDec,
        runCommand, runCbc, hp]
  | busy lat pr =>
    refine .inr ⟨lat, pr, rfl, ?_⟩
    have one : ∀ (u : Bool) (f : State → Latched → CmdOutcome), OutcomeFits s lat (f s lat) →
        exec i s = runCommand u f s →
        ∃ u o, OutcomeFits s lat o ∧ exec i s = .next ((s.drawOperands u lat).complete lat o) := by
      intro u f hf hi
      exact ⟨u, f s lat, hf, by rw [hi, runCommand, hp]⟩
    have cbc : (i = .cbcEnc ∨ ∃ v, i = .cbcDec v) → exec i s = runCbc (cbcPreOf i) s →
        (∃ u o, OutcomeFits s lat o ∧ exec i s = .next ((s.drawOperands u lat).complete lat o)) ∨
        (∃ run, (i = .cbcEnc ∨ ∃ v, i = .cbcDec v) ∧ cbcPreOf i s lat = .ok run ∧
          exec i s = .next (cbcBegin lat run (s.drawOperands true lat))) := by
      intro hi he
      cases hr : cbcPreOf i s lat with
      | error e =>
        exact .inl ⟨true, .err e none none, ⟨rfl, rfl⟩, by rw [he, runCbc, hp]; simp only [hr]⟩
      | ok run => exact .inr ⟨run, hi, rfl, by rw [he, runCbc, hp]; simp only [hr]⟩
    cases i with
    | hexEnc => exact .inl (one false _ (hexEncF_fits s lat) rfl)
    | hexDec => exact .inl (one false _ (hexDecF_fits s lat) rfl)
    | b64Enc => exact .inl (one false _ (b64EncF_fits s lat) rfl)
    | b64Dec => exact .inl (one false _ (b64DecF_fits s lat) rfl)
    | hexToB64 => exact .inl (one false _ (hexToB64F_fits s lat) rfl)
    | b64ToHex => exact .inl (one false _ (b64ToHexF_fits s lat) rfl)
    | pad => exact .inl (one false _ (padF_fits s lat) rfl)
    | unpad v => exact .inl (one false _ (unpadF_fits v s lat) rfl)
    | xorFixed e => exact .inl (one true _ (xorFixedF_fits e s lat) rfl)
    | xorRepeat e => exact .inl (one true _ (xorRepeatF_fits e s lat) rfl)
    | hamming e => exact .inl (one true _ (hammingF_fits e s lat) rfl)
    | cbcEnc => exact cbc (.inl rfl) rfl
    | cbcDec v => exact cbc (.inr ⟨v, rfl⟩) rfl

/-- What an engine step can do, by phase. -/
theorem engineStep_cases (s : State) :
    (s.phase = .idle ∧ engineStep s = .next s) ∨
    (∃ lat e, s.phase = .busy lat .started ∧ decode lat.word = .error e ∧
      engineStep s = .next (s.illegalCommand lat)) ∨
    (∃ lat i, s.phase = .busy lat .started ∧ decode lat.word = .ok i ∧ engineStep s = exec i s) ∨
    (∃ lat run, s.phase = .busy lat (.cbc run) ∧ engineStep s = .next (cbcStep lat run s)) := by
  cases hp : s.phase with
  | idle => exact .inl ⟨rfl, by simp only [engineStep, hp]⟩
  | busy lat pr =>
    cases pr with
    | started =>
      cases hd : decode lat.word with
      | error e => exact .inr (.inl ⟨lat, e, rfl, hd, by simp only [engineStep, hp, hd]⟩)
      | ok i => exact .inr (.inr (.inl ⟨lat, i, rfl, hd, by simp only [engineStep, hp, hd]⟩))
    | cbc run => exact .inr (.inr (.inr ⟨lat, run, rfl, by simp only [engineStep, hp]⟩))

/-- What a step can do: the engine's move when the agenda is empty, else the move of its head. -/
theorem step_cases (s : State) :
    (s.agenda = [] ∧ step s = engineStep s) ∨
    (∃ e rest, s.agenda = e :: rest ∧ step s = agentStep e { s with agenda := rest }) := by
  cases h : s.agenda with
  | nil => exact .inl ⟨rfl, by simp only [step, h]⟩
  | cons e rest => exact .inr ⟨e, rest, rfl, by simp only [step, h]⟩

end Sys2Proof.Machine
end

