-- ==== Sys2Proof/Laws/Cbc.lean ====
section
/-! SUPPORT. The CBC passes block by block, and what one engine step of a pass does. -/

namespace Sys2Proof.Machine

@[simp] theorem ErrCode.number_ne_zero (c : ErrCode) : c.number ≠ 0#8 := by cases c <;> decide

theorem ErrCode.number_legal (c : ErrCode) :
    c.number ∈ [(0 : Byte), 1, 2, 3, 4, 6, 0x10, 0x11, 0x12, 0x13] := by cases c <;> decide

theorem Operand.number_le (o : Operand) : o.number.toNat ≤ 4 := by cases o <;> decide

/-- What one block appends to the output. -/
def cbcEmit (op : BcpOp) (y chain : Block) : Bytes :=
  match op with
  | .enc => y.bytes
  | .dec => (Block.xor y chain).bytes

/-- The chaining value after one block: c_i in either direction (43_cbc.md R253). -/
def cbcNext (op : BcpOp) (b y : Block) : Block :=
  match op with
  | .enc => y
  | .dec => b

/-- The answer of the port to the request for block b. -/
def cbcAnswer (lens : KeyLens) (op : BcpOp) (key : Bytes) (b chain : Block) : Block :=
  bcpFunction lens ⟨op, key, cbcInput op b chain⟩

/-- A pass over one more block is the pass over the blocks before it and one turn of the loop. -/
theorem cbcPass_append (lens : KeyLens) (op : BcpOp) (key : Bytes) (iv : Block) (bs : List Block) (b : Block) :
    cbcPass lens op key iv (bs ++ [b]) =
      ((cbcPass lens op key iv bs).1 ++
          cbcEmit op (cbcAnswer lens op key b (cbcPass lens op key iv bs).2) (cbcPass lens op key iv bs).2,
        cbcNext op b (cbcAnswer lens op key b (cbcPass lens op key iv bs).2)) := by
  induction bs generalizing iv with
  | nil =>
    cases op <;> simp [cbcPass, cbcEncryptBlocks, cbcDecryptBlocks, cbcEmit, cbcNext, cbcAnswer,
      bcpFunction, cbcInput]
  | cons c rest ih =>
    cases op with
    | enc =>
      have := ih (Config.blockEncrypt lens key (Block.xor c iv))
      simp only [cbcPass] at this
      simp [cbcPass, cbcEncryptBlocks, this]
    | dec =>
      have := ih c
      simp only [cbcPass] at this
      simp [cbcPass, cbcDecryptBlocks, this]

/-- The output of a pass is 16 bytes a block. -/
theorem cbcPass_length (lens : KeyLens) (op : BcpOp) (key : Bytes) (iv : Block) (bs : List Block) :
    (cbcPass lens op key iv bs).1.length = 16 * bs.length := by
  induction bs generalizing iv with
  | nil => cases op <;> rfl
  | cons c rest ih =>
    cases op with
    | enc =>
      have := ih (Config.blockEncrypt lens key (Block.xor c iv))
      simp only [cbcPass] at this
      simp only [cbcPass, cbcEncryptBlocks, List.length_append, Block.size_eq, this, List.length_cons]
      omega
    | dec =>
      have := ih c
      simp only [cbcPass] at this
      simp only [cbcPass, cbcDecryptBlocks, List.length_append, Block.size_eq, this, List.length_cons]
      omega

/-- Taking the answer y for block b: the loop goes one turn on. -/
theorem cbcTake_eq {y b : Block} {lat : Latched} {run : CbcRun} {s : State}
    (hb : run.blocks[run.index]? = some b) :
    cbcTake y lat run s =
      cbcAdvance lat { run with index := run.index + 1, out := run.out ++ cbcEmit run.op y s.chain }
        { s with chain := cbcNext run.op b y } := by
  obtain ⟨op, v, key, blocks, index, out⟩ := run
  cases op <;> simp_all [cbcTake, cbcEmit, cbcNext]

/-- With blocks left, the engine issues the request for the next one. -/
theorem cbcAdvance_request {lat : Latched} {run : CbcRun} {s : State} {b : Block}
    (hb : run.blocks[run.index]? = some b) :
    cbcAdvance lat run s =
      { s with
        phase := .busy lat (.cbc run)
        bcpReq := some ⟨run.op, run.key, cbcInput run.op b s.chain⟩
        bcpAnswer := none } := by
  simp only [cbcAdvance, hb]

/-- With no block left, the engine completes the command. -/
theorem cbcAdvance_complete {lat : Latched} {run : CbcRun} {s : State}
    (hb : run.blocks[run.index]? = none) :
    cbcAdvance lat run s =
      ({ s with bcpReq := none, bcpAnswer := none } : State).complete lat
        (cbcOutcome lat run s.chain) := by
  simp only [cbcAdvance, hb]

/-- What an unpad leaves is no longer than what it was given. -/
theorem unpad_length_le {b out : Bytes} {v : Bool} {limit : Nat} {id : Operand}
    (h : unpad b v limit id = .ok out) : out.length ≤ b.length := by
  cases v with
  | false =>
    simp only [unpad, res_bind_eq_ok, failIf_eq_ok, res_pure, Except.ok.injEq, Bool.false_eq_true,
      if_false] at h
    obtain ⟨_, _, rfl⟩ := h
    simp
  | true =>
    simp only [unpad, res_bind_eq_ok, failIf_eq_ok, res_pure, Except.ok.injEq, if_true] at h
    obtain ⟨_, _, _, _, _, _, rfl⟩ := h
    simp

end Sys2Proof.Machine
end

