-- ==== Sys2Proof/Laws/Frames.lean ====
section
/-! SUPPORT. What the engine never touches, said once for each operation of the engine, and how a
CBC pass runs to its end when the port answers every request. -/

namespace Sys2Proof.Machine

/-- `t` has the registers only the host writes, and the two sticky flags, as `s` has them. -/
structure SameHostState (s t : State) : Prop where
  iv0 : t.iv0 = s.iv0
  iv1 : t.iv1 = s.iv1
  iv2 : t.iv2 = s.iv2
  iv3 : t.iv3 = s.iv3
  ie : t.ie = s.ie
  cmd : t.cmd = s.cmd
  srcAddr : t.srcAddr = s.srcAddr
  srcLen : t.srcLen = s.srcLen
  auxAddr : t.auxAddr = s.auxAddr
  auxLen : t.auxLen = s.auxLen
  dstAddr : t.dstAddr = s.dstAddr
  dstCap : t.dstCap = s.dstCap
  param : t.param = s.param
  haz : t.haz = s.haz
  berr : t.berr = s.berr

theorem SameHostState.refl (s : State) : SameHostState s s := by constructor <;> rfl

/-- `t` is Idle with DONE set: where a completion step ends. -/
def Completed (t : State) : Prop := t.done = true ∧ t.phase = .idle

theorem complete_frame (lat : Latched) (o : CmdOutcome) (s : State) :
    SameHostState s (s.complete lat o) ∧ Completed (s.complete lat o) := by
  cases o <;> exact ⟨by constructor <;> rfl, rfl, rfl⟩

/-- A completion does not look at the phase it ends. -/
theorem complete_phase (lat : Latched) (o : CmdOutcome) (s : State) (p : Phase) :
    ({ s with phase := p } : State).complete lat o = s.complete lat o := by
  cases o <;> rfl

theorem cbcAdvance_frame (lat : Latched) (run : CbcRun) (s : State) :
    SameHostState s (cbcAdvance lat run s) ∧
      ((cbcAdvance lat run s).phase = .busy lat (.cbc run) ∨ Completed (cbcAdvance lat run s)) := by
  cases h : run.blocks[run.index]? with
  | none =>
    rw [cbcAdvance_complete h]
    have := complete_frame lat (cbcOutcome lat run s.chain) { s with bcpReq := none, bcpAnswer := none }
    exact ⟨⟨this.1.1, this.1.2, this.1.3, this.1.4, this.1.5, this.1.6, this.1.7, this.1.8, this.1.9,
      this.1.10, this.1.11, this.1.12, this.1.13, this.1.14, this.1.15⟩, .inr this.2⟩
  | some b => rw [cbcAdvance_request h]; exact ⟨by constructor <;> rfl, .inl rfl⟩

/-- The frame of `cbcAdvance` on a state whose CHAIN has been written first. -/
theorem cbcAdvance_chain_frame (lat : Latched) (run : CbcRun) (s : State) (c : Block) (w : Bool)
    (d : Nat) :
    let t := cbcAdvance lat run { s with chain := c, chainWritten := w, draws := d }
    SameHostState s t ∧ (t.phase = .busy lat (.cbc run) ∨ Completed t) := by
  have := cbcAdvance_frame lat run { s with chain := c, chainWritten := w, draws := d }
  exact ⟨⟨this.1.1, this.1.2, this.1.3, this.1.4, this.1.5, this.1.6, this.1.7, this.1.8, this.1.9,
    this.1.10, this.1.11, this.1.12, this.1.13, this.1.14, this.1.15⟩, this.2⟩

theorem cbcStep_frame {lat : Latched} {run : CbcRun} {s : State}
    (hp : s.phase = .busy lat (.cbc run)) :
    SameHostState s (cbcStep lat run s) ∧
      ((∃ r, (cbcStep lat run s).phase = .busy lat (.cbc r)) ∨ Completed (cbcStep lat run s)) := by
  unfold cbcStep
  split
  · exact ⟨.refl s, .inl ⟨run, hp⟩⟩
  · split
    · rename_i y _
      have h : ∃ r b, cbcTake y lat run s = cbcAdvance lat r { s with chain := b } := by
        unfold cbcTake; cases run.op <;> exact ⟨_, _, rfl⟩
      obtain ⟨r, b, h⟩ := h
      rw [h]
      have := cbcAdvance_chain_frame lat r s b s.chainWritten s.draws
      exact ⟨this.1, this.2.imp (fun h => ⟨r, h⟩) id⟩
    · have := cbcAdvance_frame lat run s
      exact ⟨this.1, this.2.imp (fun h => ⟨run, h⟩) id⟩

/-- An engine step leaves the host's registers and the sticky flags alone; it stays Idle when Idle,
and when Busy it stays Busy or completes. -/
theorem engineStep_frame {s t : State} (h : engineStep s = .next t) :
    SameHostState s t ∧
      (s.phase = .idle ∧ t = s ∨
       s.busy = true ∧ (t.busy = true ∨ Completed t)) := by
  rcases engineStep_cases s with ⟨hp, he⟩ | ⟨lat, e, hp, hd, he⟩ | ⟨lat, i, hp, hd, he⟩ | ⟨lat, run, hp, he⟩
  · rw [he] at h; cases h
    exact ⟨.refl s, .inl ⟨hp, rfl⟩⟩
  · rw [he] at h; cases h
    have := complete_frame lat (.err ⟨.illegalCommand, .command⟩ none none) s
    exact ⟨this.1, .inr ⟨by simp [State.busy, hp], .inr this.2⟩⟩
  · rw [he] at h
    have hb : s.busy = true := by simp [State.busy, hp]
    rcases exec_cases i s with ⟨hq, -⟩ | ⟨lat', pr, hq, ⟨u, o, hf, he⟩ | ⟨run, hi, hpre, he⟩⟩
    · rw [hp] at hq; cases hq
    · rw [he] at h; cases h
      have := complete_frame lat' o (s.drawOperands u lat')
      exact ⟨⟨this.1.1, this.1.2, this.1.3, this.1.4, this.1.5, this.1.6, this.1.7, this.1.8, this.1.9,
        this.1.10, this.1.11, this.1.12, this.1.13, this.1.14, this.1.15⟩, .inr ⟨hb, .inr this.2⟩⟩
    · rw [he] at h; cases h
      have := cbcAdvance_chain_frame lat' run s lat'.iv true (s.drawOperands true lat').draws
      exact ⟨this.1, .inr ⟨hb, this.2.imp (fun h => by
        show State.busy (cbcAdvance _ _ _) = true
        simp only [State.busy]
        erw [h]) id⟩⟩
  · rw [he] at h; cases h
    have := cbcStep_frame hp
    exact ⟨this.1, .inr ⟨by simp [State.busy, hp], this.2.imp (fun ⟨r, h⟩ => by simp [State.busy, h]) id⟩⟩

/-! ### A pass whose requests are all answered -/

theorem cbcRounds_succ (n : Nat) : cbcRounds (n + 1) = .bcp :: .engine :: cbcRounds n := by
  simp [cbcRounds, List.replicate_succ]

/-- Two steps of a run. -/
theorem run_two {s t u : State} (n : Nat) (h1 : step s = .next t) (h2 : step t = .next u) :
    Host.Core.run Sys2Proof.core (2 * (n + 1)) s = Host.Core.run Sys2Proof.core (2 * n) u := by
  have h1' : Sys2Proof.core.step s = .next t := h1
  have h2' : Sys2Proof.core.step t = .next u := h2
  show Host.Core.run Sys2Proof.core (2 * n + 1 + 1) s = _
  simp only [Host.Core.run, h1', h2']

/-- One round: the port answers, the engine takes the answer for block b, and the pass is one block
further. -/
theorem cbc_round {lat : Latched} {run : CbcRun} {s : State} {b : Block} {rest : List Event}
    (hb : run.blocks[run.index]? = some b) (hp : s.phase = .busy lat (.cbc run))
    (hq : s.bcpReq = some ⟨run.op, run.key, cbcInput run.op b s.chain⟩)
    (hps : cbcPass s.platform.keyLens run.op run.key lat.iv (run.blocks.take run.index) = (run.out, s.chain))
    (hag : s.agenda = .bcp :: .engine :: rest) :
    let y := cbcAnswer s.platform.keyLens run.op run.key b s.chain
    let mid : State := { s with agenda := .engine :: rest, bcpReq := none, bcpAnswer := some y }
    step s = .next mid ∧
    step mid = .next (cbcAdvance lat
      { run with index := run.index + 1, out := run.out ++ cbcEmit run.op y s.chain }
      { s with agenda := rest, bcpReq := none, bcpAnswer := some y, chain := cbcNext run.op b y }) ∧
    cbcPass s.platform.keyLens run.op run.key lat.iv (run.blocks.take (run.index + 1)) =
      (run.out ++ cbcEmit run.op y s.chain, cbcNext run.op b y) := by
  refine ⟨by simp [step, hag, agentStep, bcpStep, hq, cbcAnswer], ?_, ?_⟩
  · simp only [step, agentStep, engineStep, hp, cbcStep]
    rw [cbcTake_eq hb]
  · rw [List.take_add_one, hb]
    have := cbcPass_append s.platform.keyLens run.op run.key lat.iv (run.blocks.take run.index) b
    rw [hps] at this
    exact this

/-- From a pass that waits for the answer to block `index`, one round of the port and the engine for
each block that is left completes the command, with the output and the chaining value of the whole
pass. -/
theorem cbc_served (lat : Latched) (n : Nat) : ∀ (run : CbcRun) (s : State) (b : Block),
    run.blocks[run.index]? = some b → run.blocks.length = run.index + n + 1 →
    s.phase = .busy lat (.cbc run) →
    s.bcpReq = some ⟨run.op, run.key, cbcInput run.op b s.chain⟩ → s.bcpAnswer = none →
    cbcPass s.platform.keyLens run.op run.key lat.iv (run.blocks.take run.index) = (run.out, s.chain) →
    s.agenda = cbcRounds (n + 1) →
    let p := cbcPass s.platform.keyLens run.op run.key lat.iv run.blocks
    Host.Core.run Sys2Proof.core (2 * (n + 1)) s = .next
      (({ s with agenda := [], bcpReq := none, bcpAnswer := none, chain := p.2 } : State).complete lat
        (cbcOutcome lat { run with index := run.blocks.length, out := p.1 } p.2)) := by
  induction n with
  | zero =>
    intro run s b hb hl hp hq ha hps hag
    obtain ⟨h1, h2, hx⟩ := cbc_round hb hp hq hps (hag.trans (cbcRounds_succ 0))
    rw [run_two 0 h1 h2]
    simp only [Host.Core.run]
    rw [cbcAdvance_complete (by simp; omega)]
    rw [List.take_of_length_le (by omega)] at hx
    simp only [hx, hl, cbcRounds, List.replicate_zero, List.flatten_nil]
  | succ n ih =>
    intro run s b hb hl hp hq ha hps hag
    obtain ⟨h1, h2, hx⟩ := cbc_round hb hp hq hps (hag.trans (cbcRounds_succ (n + 1)))
    have hb' : run.blocks[run.index + 1]? = some (run.blocks[run.index + 1]'(by omega)) := 
      List.getElem?_eq_getElem _
    rw [run_two (n + 1) h1 h2, cbcAdvance_request hb']
    rw [ih { run with
        index := run.index + 1
        out := run.out ++ cbcEmit run.op (cbcAnswer s.platform.keyLens run.op run.key b s.chain) s.chain }
      _ _ hb' (by simp only; omega) rfl rfl rfl hx rfl]
    exact congrArg Host.Outcome.next (complete_phase lat _ { s with
      agenda := []
      bcpReq := none
      bcpAnswer := none
      chain := (cbcPass s.platform.keyLens run.op run.key lat.iv run.blocks).2 } _)

end Sys2Proof.Machine
end

