-- ==== Sys2Proof/Laws/PerInstr.lean ====
section
/-! SUPPORT. Facts about every command as syntax, one lemma per constructor. -/

namespace Sys2Proof.Laws.EncodedWordIsLegal

/-- The encoder writes only words whose fields the opcode map allows (30_encoding.md R91 to R95). -/
def Statement (i : Instr) : Prop := (CmdWord.ofWord (encode i)).wellFormed = true

theorem hexEnc : Statement .hexEnc := by unfold Statement; decide
theorem hexDec : Statement .hexDec := by unfold Statement; decide
theorem b64Enc : Statement .b64Enc := by unfold Statement; decide
theorem b64Dec : Statement .b64Dec := by unfold Statement; decide
theorem hexToB64 : Statement .hexToB64 := by unfold Statement; decide
theorem b64ToHex : Statement .b64ToHex := by unfold Statement; decide
theorem pad : Statement .pad := by unfold Statement; decide
theorem unpad (validate : Bool) : Statement (.unpad validate) := by
  unfold Statement; cases validate <;> decide
theorem xorFixed (enc : Enc) : Statement (.xorFixed enc) := by unfold Statement; cases enc <;> decide
theorem xorRepeat (enc : Enc) : Statement (.xorRepeat enc) := by unfold Statement; cases enc <;> decide
theorem hamming (enc : Enc) : Statement (.hamming enc) := by unfold Statement; cases enc <;> decide
theorem cbcEnc : Statement .cbcEnc := by unfold Statement; decide
theorem cbcDec (validate : Bool) : Statement (.cbcDec validate) := by
  unfold Statement; cases validate <;> decide

end Sys2Proof.Laws.EncodedWordIsLegal
end

