-- ==== Sys2Proof/Machine/Program.lean ====
section
/-! DEFINITION. The notation for command words and host programs (30_encoding.md R101, R102): a program
is a list of moves for the agenda. It is notation, not hardware: the device sees only the expanded
transactions, and no other definition uses this file. -/

namespace Sys2Proof.Machine

/-- How a command word is written (R101). -/
def asm : Instr → String
  | .hexEnc => "HEX_ENC"
  | .hexDec => "HEX_DEC"
  | .b64Enc => "B64_ENC"
  | .b64Dec => "B64_DEC"
  | .hexToB64 => "HEX_TO_B64"
  | .b64ToHex => "B64_TO_HEX"
  | .pad => "PAD"
  | .unpad false => "UNPAD"
  | .unpad true => "UNPAD.v"
  | .xorFixed .raw => "XOR_FIXED"
  | .xorFixed .hex => "XOR_FIXED.hex"
  | .xorFixed .b64 => "XOR_FIXED.b64"
  | .xorRepeat .raw => "XOR_REPEAT"
  | .xorRepeat .hex => "XOR_REPEAT.hex"
  | .xorRepeat .b64 => "XOR_REPEAT.b64"
  | .hamming .raw => "HAMMING"
  | .hamming .hex => "HAMMING.hex"
  | .hamming .b64 => "HAMMING.b64"
  | .cbcEnc => "CBC_ENC"
  | .cbcDec false => "CBC_DEC"
  | .cbcDec true => "CBC_DEC.v"

/-- Every command with every suffix. -/
def allInstrs : List Instr :=
  [.hexEnc, .hexDec, .b64Enc, .b64Dec, .hexToB64, .b64ToHex, .pad, .unpad false, .unpad true] ++
  [.xorFixed .raw, .xorFixed .hex, .xorFixed .b64, .xorRepeat .raw, .xorRepeat .hex, .xorRepeat .b64] ++
  [.hamming .raw, .hamming .hex, .hamming .b64, .cbcEnc, .cbcDec false, .cbcDec true]

/-- `word(MNEMONIC)`: the command word of a mnemonic with its suffixes, none for any other text (R101). -/
def assemble (text : String) : Option Word := (allInstrs.find? fun i => asm i == text).map encode

/-- The offset of a register by its name (10_state.md R23); the reserved slots have no name. -/
def csrOffset : Csr → Option Nat
  | .id => some 0x00
  | .ctrl => some 0x04
  | .status => some 0x08
  | .cmd => some 0x0C
  | .srcAddr => some 0x10
  | .srcLen => some 0x14
  | .auxAddr => some 0x18
  | .auxLen => some 0x1C
  | .dstAddr => some 0x20
  | .dstCap => some 0x24
  | .param => some 0x28
  | .outLen => some 0x2C
  | .result => some 0x30
  | .errinfo => some 0x34
  | .iv0 => some 0x40
  | .iv1 => some 0x44
  | .iv2 => some 0x48
  | .iv3 => some 0x4C
  | .chain0 => some 0x50
  | .chain1 => some 0x54
  | .chain2 => some 0x58
  | .chain3 => some 0x5C
  | .reserved => none

/-- `csrw NAME, v` (R102). -/
def csrw (c : Csr) (v : Word) : List Event := (csrOffset c).toList.map fun off => .host (.csrWrite off .four v)

/-- `csrr NAME` (R102). -/
def csrr (c : Csr) : List Event := (csrOffset c).toList.map fun off => .host (.csrRead off .four)

/-- `bufw8 a, b` (R102). -/
def bufw8 (a : Nat) (b : Byte) : List Event := [.host (.bufWrite a .one (b.setWidth 32))]

/-- `bufw32 a, v` (R102). -/
def bufw32 (a : Nat) (v : Word) : List Event := [.host (.bufWrite a .four v)]

/-- `bufr8 a` (R102). -/
def bufr8 (a : Nat) : List Event := [.host (.bufRead a .one)]

/-- `load a, bytes`: one `bufw8` a byte, in increasing order (R102). -/
def load (a : Nat) (bs : Bytes) : List Event :=
  match bs with
  | [] => []
  | b :: rest => bufw8 a b ++ load (a + 1) rest

/-- `run MNEMONIC`: the CMD write, and then reads of STATUS until BUSY reads 0 (R102). How many reads that
takes, and how the moves of the engine and the port fall between them, is `polls`: before each read, the
moves made since the read before it. -/
def run (i : Instr) (polls : List (List Event)) : List Event :=
  csrw .cmd (encode i) ++ polls.flatMap fun moves => moves ++ csrr .status

/-- `clear` (R102). -/
def clear : List Event := csrw .status 0x0000001E

/-- `setiv b0..b15` (R102). -/
def setiv (iv : Block) : List Event :=
  csrw .iv0 (blockWord iv 0) ++ csrw .iv1 (blockWord iv 1) ++ csrw .iv2 (blockWord iv 2) ++
    csrw .iv3 (blockWord iv 3)

end Sys2Proof.Machine
end

