-- ==== Sys2Proof/Tests/Slice0.lean ====
section
/-! SUPPORT. Small tests. Expected values are those of spec/95_test_vectors.md (its L1 and L2 sections) or of
the spec's encoding tables; the comment before each test names the place. Then the witnesses that the
hypotheses of the statements can be met. -/

namespace Sys2Proof.Tests

open Sys2Proof Sys2Proof.Machine

/-! ### Well-formedness: one ill-formed term for each check (30_encoding.md R91 to R94) -/

theorem wellFormed_accepts_cbc_dec_v : (CmdWord.mk 0x21 0 0 true 0).wellFormed = true := by decide
theorem wellFormed_refuses_low_reserved : (CmdWord.mk 0x01 0 1 false 0).wellFormed = false := by decide
theorem wellFormed_refuses_high_reserved : (CmdWord.mk 0x01 0 0 false 1).wellFormed = false := by decide
theorem wellFormed_refuses_unknown_op : (CmdWord.mk 0x09 0 0 false 0).wellFormed = false := by decide
theorem wellFormed_refuses_enc_three : (CmdWord.mk 0x10 3 0 false 0).wellFormed = false := by decide
theorem wellFormed_refuses_enc_off_xor : (CmdWord.mk 0x01 1 0 false 0).wellFormed = false := by decide
theorem wellFormed_refuses_v_off_unpad : (CmdWord.mk 0x20 0 0 true 0).wellFormed = false := by decide
theorem wellFormed_instr : Instr.wellFormed (.cbcDec true) = true := by decide

/-! ### Decoding: the word of each command, bits 31:13, V, 11:10, ENC, OP (30_encoding.md R90, R95) -/

theorem decode_hex_enc : (decode 0b0000000000000000000_0_00_00_00000001#32).toOption = some (.hexEnc) := by decide
theorem decode_hex_dec : (decode 0b0000000000000000000_0_00_00_00000010#32).toOption = some (.hexDec) := by decide
theorem decode_b64_enc : (decode 0b0000000000000000000_0_00_00_00000011#32).toOption = some (.b64Enc) := by decide
theorem decode_b64_dec : (decode 0b0000000000000000000_0_00_00_00000100#32).toOption = some (.b64Dec) := by decide
theorem decode_hex_to_b64 : (decode 0b0000000000000000000_0_00_00_00000101#32).toOption = some (.hexToB64) := by decide
theorem decode_b64_to_hex : (decode 0b0000000000000000000_0_00_00_00000110#32).toOption = some (.b64ToHex) := by decide
theorem decode_pad : (decode 0b0000000000000000000_0_00_00_00000111#32).toOption = some (.pad) := by decide
theorem decode_unpad : (decode 0b0000000000000000000_0_00_00_00001000#32).toOption = some (.unpad false) := by decide
theorem decode_unpad_v : (decode 0b0000000000000000000_1_00_00_00001000#32).toOption = some (.unpad true) := by decide
theorem decode_xor_fixed : (decode 0b0000000000000000000_0_00_00_00010000#32).toOption = some (.xorFixed .raw) := by decide
theorem decode_xor_fixed_b64 : (decode 0b0000000000000000000_0_00_10_00010000#32).toOption = some (.xorFixed .b64) := by decide
theorem decode_xor_repeat : (decode 0b0000000000000000000_0_00_00_00010001#32).toOption = some (.xorRepeat .raw) := by decide
theorem decode_xor_repeat_hex : (decode 0b0000000000000000000_0_00_01_00010001#32).toOption = some (.xorRepeat .hex) := by decide
theorem decode_hamming : (decode 0b0000000000000000000_0_00_00_00010010#32).toOption = some (.hamming .raw) := by decide
theorem decode_hamming_hex : (decode 0b0000000000000000000_0_00_01_00010010#32).toOption = some (.hamming .hex) := by decide
theorem decode_cbc_enc : (decode 0b0000000000000000000_0_00_00_00100000#32).toOption = some (.cbcEnc) := by decide
theorem decode_cbc_dec : (decode 0b0000000000000000000_0_00_00_00100001#32).toOption = some (.cbcDec false) := by decide
theorem decode_cbc_dec_v : (decode 0b0000000000000000000_1_00_00_00100001#32).toOption = some (.cbcDec true) := by decide

/-! Words that decode refuses, by name (30_encoding.md R97; 95_test_vectors.md L2.1). -/

/-- The name under which a word is refused. -/
def refusedAs (word : Word) : Option DecodeError :=
  match decode word with
  | .ok _ => none
  | .error e => some e

theorem refuses_op_zero : refusedAs 0x00000000 = some .unknownOp := by decide
theorem refuses_op_nine : refusedAs 0x00000009 = some .unknownOp := by decide
theorem refuses_op_13 : refusedAs 0x00000013 = some .unknownOp := by decide
theorem refuses_op_22 : refusedAs 0x00000022 = some .unknownOp := by decide
theorem refuses_bit_10 : refusedAs 0x00000400 = some .reservedBits := by decide
theorem refuses_bit_11 : refusedAs 0x00000800 = some .reservedBits := by decide
theorem refuses_bit_13 : refusedAs 0x00002001 = some .reservedBits := by decide
theorem refuses_bit_31 : refusedAs 0x80000001 = some .reservedBits := by decide
theorem refuses_enc_three : refusedAs 0x00000301 = some .encThree := by decide
theorem refuses_enc_three_xor : refusedAs 0x00000310 = some .encThree := by decide
theorem refuses_enc_on_hex_enc : refusedAs 0x00000101 = some .encNotXor := by decide
theorem refuses_v_on_hex_enc : refusedAs 0x00001001 = some .vNotAllowed := by decide
theorem refuses_v_on_xor : refusedAs 0x00001010 = some .vNotAllowed := by decide
theorem refuses_v_on_cbc_enc : refusedAs 0x00001020 = some .vNotAllowed := by decide

/-! ### Encoding and the host's two entry points -/

theorem encode_unpad_v : encode (.unpad true) = 0x00001008 := by decide
theorem encode_xor_repeat_b64 : encode (.xorRepeat .b64) = 0x00000211 := by decide
theorem decodeTableWord_cbc_enc : decodeTableWord 32 0x20 = some .cbcEnc := by decide

/-! ### The state builder -/

/-- A device with the 256-byte BUF of the spec's vectors; its primitive accepts 16 or 17 key bytes. -/
def small : State := { State.reset with platform := ⟨256, .listed [16, 17]⟩ }

/-- SRC at 0x00, AUX at 0x40, DST at 0x80 and iv = 00 01 .. 0F, as in 95_test_vectors.md. -/
def setUp (src aux : Bytes) (cap param : Word) : State :=
  { small with
    srcAddr := 0x00
    srcLen := BitVec.ofNat 32 src.length
    auxAddr := 0x40
    auxLen := BitVec.ofNat 32 aux.length
    dstAddr := 0x80
    dstCap := cap
    param := param
    iv0 := ⟨0x03020100, true⟩
    iv1 := ⟨0x07060504, true⟩
    iv2 := ⟨0x0B0A0908, true⟩
    iv3 := ⟨0x0F0E0D0C, true⟩
    buf := Memory.writeBytes (Memory.writeBytes [] 0x00 src) 0x40 aux }

/-- `setUp` with the command started. -/
def started (word : Word) (src aux : Bytes) (cap param : Word) : State :=
  (setUp src aux cap param).start word

/-- "ok n: bytes" of 95_test_vectors.md, with the RESULT value. -/
def endsOk (o : Host.Outcome State Fault Refusal) (out : Bytes) (result : Word) : Bool :=
  match o with
  | .next t =>
    t.statusWord == 2 && t.outLen == BitVec.ofNat 32 out.length && t.result == result &&
      (List.range (out.length + 1)).all fun i => t.buf.byte? (0x80 + i) == out[i]?
  | .fault _ | .refused _ => false

/-- "err CODE (i)" of 95_test_vectors.md. -/
def endsErr (o : Host.Outcome State Fault Refusal) (code : Byte) (info : BitVec 3) : Bool :=
  match o with
  | .next t =>
    t.done && t.err && t.errcode == code && t.errinfo == info && t.outLen == 0 && t.result == 0 &&
      t.buf.byte? 0x80 == none
  | .fault _ | .refused _ => false

/-- The command's one engine step. -/
def runWord (word : Word) (src aux : Bytes) (cap param : Word) : Host.Outcome State Fault Refusal :=
  step (started word src aux cap param)

/-! ### One step of each command (95_test_vectors.md L1, L2.2 to L2.5, L2.7) -/

/-- L2.2: lowercase, high nibble first. -/
theorem test_hex_enc :
    endsOk (runWord 0x00000001 [0x01, 0x23, 0xAB, 0xCD, 0xEF]
      [] 64 0)
      [0x30, 0x31, 0x32, 0x33, 0x61, 0x62, 0x63, 0x64, 0x65, 0x66] 0 = true := by decide
/-- L2.2. -/
theorem test_hex_enc_capacity :
    endsErr (runWord 0x00000001 [0x00] [] 1 0)
      0x13 3 = true := by decide
/-- L2.2: both cases. -/
theorem test_hex_dec :
    endsOk (runWord 0x00000002 [0x30, 0x61, 0x46, 0x31]
      [] 64 0)
      [0x0A, 0xF1] 0 = true := by decide
/-- L2.2: the data check comes before capacity. -/
theorem test_hex_dec_odd_before_capacity :
    endsErr (runWord 0x00000002 [0x61, 0x62, 0x63] [] 0 0)
      0x01 1 = true := by decide
/-- L2.3. -/
theorem test_b64_enc :
    endsOk (runWord 0x00000003 [0x68, 0x65, 0x6C, 0x6C, 0x6F]
      [] 64 0)
      [0x61, 0x47, 0x56, 0x73, 0x62, 0x47, 0x38, 0x3D] 0 = true := by decide
/-- L2.3. -/
theorem test_b64_enc_top_alphabet :
    endsOk (runWord 0x00000003 [0xFB, 0xFF]
      [] 64 0)
      [0x2B, 0x2F, 0x38, 0x3D] 0 = true := by decide
/-- L1.2. -/
theorem test_b64_dec :
    endsOk (runWord 0x00000004 [0x54, 0x57, 0x45, 0x3D]
      [] 64 0)
      [0x4D, 0x61] 0 = true := by decide
/-- L2.3, decision D12. -/
theorem test_b64_dec_discarded_bits :
    endsErr (runWord 0x00000004 [0x54, 0x52, 0x3D, 0x3D] [] 64 0)
      0x01 1 = true := by decide
/-- L2.3. -/
theorem test_hex_to_b64 :
    endsOk (runWord 0x00000005 [0x34, 0x39, 0x32, 0x37, 0x36, 0x64]
      [] 64 0)
      [0x53, 0x53, 0x64, 0x74] 0 = true := by decide
/-- L2.3. -/
theorem test_hex_to_b64_odd :
    endsErr (runWord 0x00000005 [0x34, 0x64, 0x36] [] 64 0)
      0x01 1 = true := by decide
/-- L2.3: lowercase. -/
theorem test_b64_to_hex :
    endsOk (runWord 0x00000006 [0x2F, 0x2F, 0x38, 0x3D]
      [] 64 0)
      [0x66, 0x66, 0x66, 0x66] 0 = true := by decide
/-- L2.3. -/
theorem test_b64_to_hex_capacity :
    endsErr (runWord 0x00000006 [0x54, 0x57, 0x46, 0x75] [] 5 0)
      0x13 3 = true := by decide
/-- L2.4. -/
theorem test_pad :
    endsOk (runWord 0x00000007 [0x59, 0x45, 0x4C, 0x4C, 0x4F, 0x57, 0x20, 0x53, 0x55, 0x42, 0x4D, 0x41, 0x52, 0x49, 0x4E, 0x45]
      [] 64 20)
      [0x59, 0x45, 0x4C, 0x4C, 0x4F, 0x57, 0x20, 0x53, 0x55, 0x42, 0x4D, 0x41, 0x52, 0x49, 0x4E, 0x45, 0x04, 0x04, 0x04, 0x04] 0 = true := by decide
/-- L2.4, decision D13. -/
theorem test_pad_count_over_255 :
    endsErr (runWord 0x00000007 [] [] 100 256)
      0x04 4 = true := by decide
/-- L2.4: V = 0 drops two bytes unchecked. -/
theorem test_unpad_unchecked :
    endsOk (runWord 0x00000008 [0x41, 0x42, 0x01, 0x02]
      [] 64 0)
      [0x41, 0x42] 0 = true := by decide
/-- L2.4: V = 1. -/
theorem test_unpad_v_disagreeing :
    endsErr (runWord 0x00001008 [0x41, 0x42, 0x01, 0x02] [] 64 0)
      0x06 1 = true := by decide
/-- L2.5. -/
theorem test_xor_fixed_b64 :
    endsOk (runWord 0x00000210 [0x54, 0x57, 0x45, 0x3D]
      [0x2F, 0x2F, 0x38, 0x3D] 64 0)
      [0x73, 0x70, 0x34, 0x3D] 0 = true := by decide
/-- L2.5. -/
theorem test_xor_fixed_aux_malformed :
    endsErr (runWord 0x00000110 [0x61, 0x62] [0x7A, 0x7A] 64 0)
      0x01 2 = true := by decide
/-- L2.5: the key cycles. -/
theorem test_xor_repeat :
    endsOk (runWord 0x00000011 [0x61, 0x62, 0x63]
      [0x01, 0x02] 64 0)
      [0x60, 0x60, 0x62] 0 = true := by decide
/-- L2.5, 90_conflicts.md C3. -/
theorem test_xor_repeat_empty_key :
    endsErr (runWord 0x00000011 [] [] 64 0)
      0x03 2 = true := by decide
/-- L1.1. -/
theorem test_hamming :
    endsOk (runWord 0x00000012 [0x74, 0x68, 0x69, 0x73, 0x20, 0x69, 0x73, 0x20, 0x61, 0x20, 0x74, 0x65, 0x73, 0x74]
      [0x77, 0x6F, 0x6B, 0x6B, 0x61, 0x20, 0x77, 0x6F, 0x6B, 0x6B, 0x61, 0x21, 0x21, 0x21] 64 0)
      [] 37 = true := by decide
/-- L2.5. -/
theorem test_hamming_lengths :
    endsErr (runWord 0x00000012 [0x01] [0x03, 0x04] 64 0)
      0x02 2 = true := by decide
/-- L2.6: CBC_ENC of "abc" sends (P xor iv) under the whole AUX buffer and sets CHAIN to iv. -/
theorem test_cbc_enc_request :
    (match runWord 0x20 [0x61, 0x62, 0x63] [0x59, 0x45, 0x4C, 0x4C, 0x4F, 0x57, 0x20, 0x53, 0x55, 0x42, 0x4D, 0x41, 0x52, 0x49, 0x4E, 0x45] 64 0 with
      | .next t => t.busy && t.bcpReq == some ⟨.enc, [0x59, 0x45, 0x4C, 0x4C, 0x4F, 0x57, 0x20, 0x53, 0x55, 0x42, 0x4D, 0x41, 0x52, 0x49, 0x4E, 0x45], (blockOfBytes [0x61, 0x63, 0x61, 0x0E, 0x09, 0x08, 0x0B, 0x0A, 0x05, 0x04, 0x07, 0x06, 0x01, 0x00, 0x03, 0x02])⟩ && t.chain == (blockOfBytes [0x00, 0x01, 0x02, 0x03, 0x04, 0x05, 0x06, 0x07, 0x08, 0x09, 0x0A, 0x0B, 0x0C, 0x0D, 0x0E, 0x0F])
      | .fault _ | .refused _ => false) = true := by decide
/-- The state in which the port has answered `y` to the only request of a CBC command. -/
def answered (word : Word) (src aux : Bytes) (y : Block) : State :=
  match runWord word src aux 64 0 with
  | .next t => { t with bcpReq := none, bcpAnswer := some y }
  | .fault _ | .refused _ => small
/-- L2.6: with the toy primitive's answer the ciphertext is in DST and CHAIN. -/
theorem test_cbc_enc_completes :
    endsOk (step (answered 0x20 [0x61, 0x62, 0x63] [0x59, 0x45, 0x4C, 0x4C, 0x4F, 0x57, 0x20, 0x53, 0x55, 0x42, 0x4D, 0x41, 0x52, 0x49, 0x4E, 0x45] (blockOfBytes [0x26, 0x2D, 0x42, 0x46, 0x5F, 0x2B, 0x59, 0x50, 0x46, 0x4A, 0x47, 0x53, 0x49, 0x4D, 0x47, 0x38]))) [0x26, 0x2D, 0x42, 0x46, 0x5F, 0x2B, 0x59, 0x50, 0x46, 0x4A, 0x47, 0x53, 0x49, 0x4D, 0x47, 0x38] 0 = true ∧
    (match step (answered 0x20 [0x61, 0x62, 0x63] [0x59, 0x45, 0x4C, 0x4C, 0x4F, 0x57, 0x20, 0x53, 0x55, 0x42, 0x4D, 0x41, 0x52, 0x49, 0x4E, 0x45] (blockOfBytes [0x26, 0x2D, 0x42, 0x46, 0x5F, 0x2B, 0x59, 0x50, 0x46, 0x4A, 0x47, 0x53, 0x49, 0x4D, 0x47, 0x38])) with
      | .next t => t.chain == (blockOfBytes [0x26, 0x2D, 0x42, 0x46, 0x5F, 0x2B, 0x59, 0x50, 0x46, 0x4A, 0x47, 0x53, 0x49, 0x4D, 0x47, 0x38])
      | .fault _ | .refused _ => false) = true := by decide
/-- L2.6: CBC_DEC.v of that ciphertext; the toy primitive answers P xor iv. -/
theorem test_cbc_dec_completes :
    endsOk (step (answered 0x1021 [0x26, 0x2D, 0x42, 0x46, 0x5F, 0x2B, 0x59, 0x50, 0x46, 0x4A, 0x47, 0x53, 0x49, 0x4D, 0x47, 0x38] [0x59, 0x45, 0x4C, 0x4C, 0x4F, 0x57, 0x20, 0x53, 0x55, 0x42, 0x4D, 0x41, 0x52, 0x49, 0x4E, 0x45] (blockOfBytes [0x61, 0x63, 0x61, 0x0E, 0x09, 0x08, 0x0B, 0x0A, 0x05, 0x04, 0x07, 0x06, 0x01, 0x00, 0x03, 0x02]))) [0x61, 0x62, 0x63] 0 = true := by decide
/-- L2.6: a last plaintext byte of 17 with V = 0 is InvalidLength (3), CHAIN is the ciphertext, and the
byte after the havoc range is untouched. -/
theorem test_cbc_dec_bad_padding :
    (match step (answered 0x21 [0x06, 0x0D, 0x0B, 0x0E, 0x14, 0x61, 0x1C, 0x14, 0x01, 0x0C, 0x06, 0x13, 0x0A, 0x0F, 0x5B, 0x18] [0x59, 0x45, 0x4C, 0x4C, 0x4F, 0x57, 0x20, 0x53, 0x55, 0x42, 0x4D, 0x41, 0x52, 0x49, 0x4E, 0x45] (blockOfBytes [0x41, 0x43, 0x41, 0x47, 0x41, 0x43, 0x41, 0x4F, 0x41, 0x43, 0x41, 0x47, 0x41, 0x43, 0x41, 0x1E])) with
      | .next t => t.statusWord == 0x00000406 && t.errinfo == 3 && t.outLen == 0 &&
          t.chain == (blockOfBytes [0x06, 0x0D, 0x0B, 0x0E, 0x14, 0x61, 0x1C, 0x14, 0x01, 0x0C, 0x06, 0x13, 0x0A, 0x0F, 0x5B, 0x18]) && t.buf.byte? 0x90 == none
      | .fault _ | .refused _ => false) = true := by decide

/-- R295: exactly the bytes of the havoc range become unspecified, 16 of them here. -/
theorem test_havoc_forgets_the_range :
    ({ small with buf := [(0x7F, 1), (0x80, 2), (0x8F, 3), (0x90, 4)] } : State).havoc (some (0x80, 16)) =
      { small with buf := [(0x7F, 1), (0x90, 4)] } := by decide

/-- R252: a length below 16 is never accepted, whatever the parameter says. -/
theorem test_key_of_15_bytes : KeyLens.accepts .parameter 15 = false ∧ KeyLens.accepts (.listed [15]) 15 = false := by
  decide

/-! ### The toy primitive of 95_test_vectors.md L2.6 -/

def toyE (k : Bytes) (x : Block) : Block :=
  blockOfBytes ((List.range 16).map fun j => x.bytes.getD ((j + 1) % 16) 0 ^^^ k.getD ((j + 1) % 16) 0)

def toyD (k : Bytes) (y : Block) : Block :=
  blockOfBytes ((List.range 16).map fun j => y.bytes.getD ((j + 15) % 16) 0 ^^^ k.getD j 0)

/-- L2.6: 16 bytes of plaintext grow to two blocks. -/
theorem test_cbc_encrypt_two_blocks :
    (cbcEncryptBlocks (toyE [0x59, 0x45, 0x4C, 0x4C, 0x4F, 0x57, 0x20, 0x53, 0x55, 0x42, 0x4D, 0x41, 0x52, 0x49, 0x4E, 0x45]) (blockOfBytes [0x00, 0x01, 0x02, 0x03, 0x04, 0x05, 0x06, 0x07, 0x08, 0x09, 0x0A, 0x0B, 0x0C, 0x0D, 0x0E, 0x0F]) (toBlocks (cbcPadded [0x59, 0x45, 0x4C, 0x4C, 0x4F, 0x57, 0x20, 0x53, 0x55, 0x42, 0x4D, 0x41, 0x52, 0x49, 0x4E, 0x45]))).1 =
      [0x01, 0x02, 0x03, 0x04, 0x05, 0x06, 0x07, 0x08, 0x09, 0x0A, 0x0B, 0x0C, 0x0D, 0x0E, 0x0F, 0x00, 0x57, 0x5F, 0x58, 0x5A, 0x41, 0x37, 0x4B, 0x4C, 0x58, 0x56, 0x5D, 0x4F, 0x57, 0x51, 0x55, 0x48] := by decide
/-- L2.6: and back, with validation. -/
theorem test_cbc_decrypt_two_blocks :
    (unpad (cbcDecryptBlocks (toyD [0x59, 0x45, 0x4C, 0x4C, 0x4F, 0x57, 0x20, 0x53, 0x55, 0x42, 0x4D, 0x41, 0x52, 0x49, 0x4E, 0x45]) (blockOfBytes [0x00, 0x01, 0x02, 0x03, 0x04, 0x05, 0x06, 0x07, 0x08, 0x09, 0x0A, 0x0B, 0x0C, 0x0D, 0x0E, 0x0F]) (toBlocks [0x01, 0x02, 0x03, 0x04, 0x05, 0x06, 0x07, 0x08, 0x09, 0x0A, 0x0B, 0x0C, 0x0D, 0x0E, 0x0F, 0x00, 0x57, 0x5F, 0x58, 0x5A, 0x41, 0x37, 0x4B, 0x4C, 0x58, 0x56, 0x5D, 0x4F, 0x57, 0x51, 0x55, 0x48])).1 true 16 .dst).toOption =
      some [0x59, 0x45, 0x4C, 0x4C, 0x4F, 0x57, 0x20, 0x53, 0x55, 0x42, 0x4D, 0x41, 0x52, 0x49, 0x4E, 0x45] := by decide

/-! ### The host interface (95_test_vectors.md L2.8) and reset (L2.9) -/

/-- `small` with "Man" and a zero byte in the first word. -/
def withMan : State := small.bufWrite 0x00 .four 0x006E614D

theorem test_buf_little_endian :
    (withMan.bufRead 0x01 .one).reply = some 0x61 ∧ (withMan.bufRead 0x00 .two).reply = some 0x614D := by
  decide
theorem test_buf_misaligned :
    (withMan.bufRead 0x01 .two).reply = some 0 ∧ (withMan.bufRead 0x01 .two).berr = true := by decide
theorem test_buf_last_word :
    (small.bufWrite 0xFC .four 0x11223344).buf = [(0xFC, 0x44), (0xFD, 0x33), (0xFE, 0x22), (0xFF, 0x11)] := by
  decide
theorem test_csr_malformed :
    (small.csrRead 0x02 .four).berr = true ∧ (small.csrRead 0x08 .two).berr = true ∧
      (small.csrWrite 0x100 .four 1).berr = true ∧ (small.csrRead 0x38 .four).berr = false := by decide
theorem test_status_w1c :
    ({ small with done := true, err := true, haz := true, berr := true, errcode := 1 } : State).statusWord
        = 0x0000011E ∧
      (State.csrWrite 0x08 .four 0x02
        { small with done := true, err := true, haz := true, berr := true, errcode := 1 }).statusWord
        = 0x0000011C := by decide

/-- A running command. -/
def running : State := started 0x00000001 [] [] 0 0

theorem test_busy_lockout :
    (running.csrWrite 0x0C .four 1).haz = true ∧ (running.csrWrite 0x0E .four 0).berr = true ∧
      (running.csrWrite 0x0E .four 0).haz = false ∧ (running.bufRead 0x00 .one).haz = true ∧
      (running.csrRead 0x50 .four).haz = false ∧ running.statusWord = 1 := by decide
theorem test_reset_reads :
    State.reset.csrValue .id = 0x43424307 ∧ State.reset.statusWord = 0 ∧ State.reset.irq = false := by decide
/-- L2.9: HEX_ENC of an empty SRC right after reset, whatever MEM_SIZE is. -/
theorem test_first_command_after_reset :
    (match step (State.reset.withFetchWord 32 1) with
      | .next t => t.statusWord == 2
      | .fault _ | .refused _ => false) = true := by decide
/-- L2.7: the range check does not wrap, and an empty buffer at MEM_SIZE is in range. -/
theorem test_range_boundaries :
    endsErr (step (State.start 1 { small with srcAddr := 0xFFFFFFFF, srcLen := 2 })) 0x11 1 = true ∧
      endsOk (step (State.start 1 { small with srcAddr := 256, dstAddr := 0x80 })) [] 0 = true := by decide
/-- L2.7: adjacent buffers do not overlap; one byte less and they do. -/
theorem test_overlap_boundaries :
    endsErr (step (State.start 1 { small with srcAddr := 2, srcLen := 2, dstCap := 4 })) 0x12 1 = true ∧
      (match step (State.start 1
          (small.bufWrite 0 .two 0 |> fun s => { s with srcLen := 2, dstAddr := 2, dstCap := 4 })) with
        | .next t => t.statusWord == 2
        | .fault _ | .refused _ => false) = true := by decide

/-! ### Witnesses: states and operands that meet the hypotheses of the statements, clause by clause -/

/-- The latched command of a started state. -/
def latchOf (s : State) : Latched :=
  match s.phase with
  | .busy lat _ => lat
  | .idle => s.latch 0

def key16 : Bytes := List.replicate 16 0x4B

/-- CBC_ENC waiting for its first answer. -/
def waiting : State :=
  match runWord 0x20 [0x61] key16 64 0 with
  | .next t => t
  | .fault _ | .refused _ => small

theorem witness_EngineStepRunsTheDecodedCommand :
    running.phase = .busy (latchOf running) .started ∧ (decode (latchOf running).word).toOption = some .hexEnc ∧
      running.agenda = [] ∧
      ({ running with agenda := [.engine, .bcp] } : State).agenda = .engine :: [.bcp] := by decide

theorem witness_IllegalWordCompletesWithIllegalCommand :
    let s := started 0x00000301 [] [] 0 0
    s.phase = .busy (latchOf s) .started ∧ s.agenda = [] ∧ (decode (latchOf s).word).toOption = none ∧
      small.phase = .idle ∧ (decode 0x00000400).toOption = none ∧ (0x00000100#32).extractLsb' 0 8 = 0 := by decide

theorem witness_UnansweredRequestHangsTheCommand :
    waiting.agenda = [] ∧ waiting.bcpReq.isSome = true ∧
      (match waiting.phase with
        | .busy _ (.cbc _) => true
        | .busy _ .started => false
        | .idle => false) = true := by decide

theorem witness_PortAnswersTheRequestInFlight :
    let s := { small with agenda := [.bcp] }
    s.agenda = .bcp :: [] ∧ s.bcpReq = none ∧ blockKeyOk s key16.length = true ∧
      ({ s with bcpReq := some ⟨.enc, key16, Block.zero⟩ } : State).bcpReq = some ⟨.enc, key16, Block.zero⟩ ∧
      ({ s with bcpReq := some ⟨.dec, key16, Block.zero⟩ } : State).bcpReq = some ⟨.dec, key16, Block.zero⟩ := by
  decide

theorem witness_ResetClearsTheDeviceInEitherPhase :
    ({ small with agenda := [.reset] } : State).agenda = .reset :: [] ∧
      ({ waiting with agenda := [.reset, .bcp] } : State).agenda = .reset :: [.bcp] ∧ waiting.busy = true := by
  decide

/-- For STATUS, CTRL, ID, the operand registers, the IV and the interrupt line: an Idle state; for the
interrupt line also one with DONE. -/
theorem witness_StatusReadsItsFieldsAndClearsOnOnes : small.phase = .idle := by decide
theorem witness_CtrlHoldsOnlyTheInterruptEnable : small.phase = .idle := by decide
theorem witness_IdIsConstant : small.phase = .idle := by decide
theorem witness_OperandRegistersReadBackAsWritten : small.phase = .idle := by decide
theorem witness_LatchedIvPacksRegistersLittleEndian : small.phase = .idle ∧ 0 < 16 ∧ 15 < 16 := by decide
theorem witness_IrqIsEnabledDone :
    ({ small with done := true } : State).phase = .idle ∧ ({ small with done := true } : State).done = true := by
  decide

theorem witness_ChainReadsPackedOrArbitrary :
    0 < 4 ∧ 3 < 4 ∧ running.busy = true ∧ small.chainWritten = false ∧
      ({ small with chainWritten := true } : State).phase = .idle ∧
      ({ small with chainWritten := true } : State).chainWritten = true := by decide

theorem witness_ReservedOffsetsReadZeroIgnoreWrites :
    (0x60 ≤ 0x60 ∧ 0x60 ≤ 0xFC ∧ 0x60 % 4 = 0) ∧ (0x60 ≤ 0xFC ∧ 0xFC ≤ 0xFC ∧ 0xFC % 4 = 0) ∧
      small.phase = .idle ∧ running.busy = true := by decide

theorem witness_RegistersReadAndReadOnlyOnesIgnoreWrites :
    let s := setUp [] [] 0 0
    s.phase = .idle ∧ s.iv0.written = true ∧ s.iv1.written = true ∧ s.iv2.written = true ∧ s.iv3.written = true := by
  decide

theorem witness_MalformedCsrAccessSetsBerrOnly :
    ¬(Width.four = .four ∧ 0xFD % 4 = 0 ∧ 0xFD ≤ 0xFC) ∧ ¬(Width.four = .four ∧ 0x100 % 4 = 0 ∧ 0x100 ≤ 0xFC) ∧
      ¬(Width.two = .four ∧ 0xFC % 4 = 0 ∧ 0xFC ≤ 0xFC) := by decide

theorem witness_MalformedBufAccessSetsBerrOnly :
    (0xFD % 2 ≠ 0 ∨ small.platform.memSize < 0xFD + 2) ∧ (0x100 % 1 ≠ 0 ∨ small.platform.memSize < 0x100 + 1) ∧
      (0xFE % 4 ≠ 0 ∨ small.platform.memSize < 0xFE + 4) := by decide

theorem witness_BufAccessesAreLittleEndian :
    small.phase = .idle ∧ (0xFF % 1 = 0 ∧ 0xFF + 1 ≤ small.platform.memSize) ∧
      (0xFE % 2 = 0 ∧ 0xFE + 2 ≤ small.platform.memSize) ∧ (0xFC % 4 = 0 ∧ 0xFC + 4 ≤ small.platform.memSize) ∧
      withMan.phase = .idle ∧ withMan.buf.byte? (0x00 + 3) = some 0x00 ∧ small.buf.byte? (0xFC + 3) = none := by
  decide

theorem witness_BusyLockoutDropsWritesAndSetsHaz :
    running.busy = true ∧ (0xFC % 4 = 0 ∧ 0xFC ≤ 0xFC) ∧ (0xFC % 4 = 0 ∧ 0xFC + 4 ≤ running.platform.memSize) ∧
      (0xFF % 1 = 0 ∧ 0xFF + 1 ≤ running.platform.memSize) := by decide

/-- All four IV registers written, and only the last. -/
theorem witness_CmdWriteWhileIdleStartsTheCommand :
    let s := setUp [] [] 0 0
    s.phase = .idle ∧ s.iv0.written = true ∧ s.iv1.written = true ∧ s.iv2.written = true ∧ s.iv3.written = true ∧
      (small.csrWrite 0x4C .four 0x11223344).iv3.written = true ∧
      (small.csrWrite 0x4C .four 0x11223344).iv0.written = false := by
  decide

/-- SRC one byte past the end, then AUX, then DST. -/
theorem witness_OperandOutOfRangeIsAddressRange :
    (let s := State.start 1 { setUp [] [] 0 0 with srcAddr := 250, srcLen := 7 }
     s.phase = .busy (latchOf s) .started ∧ ¬InRange s (latchOf s).srcAddr (latchOf s).srcLen) ∧
    (let s := State.start 0x10 { setUp [] [] 0 0 with srcLen := 1, auxAddr := 255, auxLen := 2 }
     s.phase = .busy (latchOf s) .started ∧ InRange s (latchOf s).srcAddr (latchOf s).srcLen ∧
       usesAux (.xorFixed .raw) = true ∧ ¬InRange s (latchOf s).auxAddr (latchOf s).auxLen) ∧
    (let s := State.start 1 { setUp [] [] 0 0 with srcLen := 1, dstAddr := 250, dstCap := 7 }
     s.phase = .busy (latchOf s) .started ∧ InRange s (latchOf s).srcAddr (latchOf s).srcLen ∧
       usesDst .hexEnc = true ∧ (usesAux .hexEnc = true → InRange s (latchOf s).auxAddr (latchOf s).auxLen) ∧
       ¬InRange s (latchOf s).dstAddr (latchOf s).dstCap) := by
  unfold InRange; decide

/-- DST one byte into SRC; then DST apart from SRC and one byte into AUX. -/
theorem witness_DestinationOverlapIsRefused :
    (let s := State.start 1 { setUp [] [] 0 0 with srcAddr := 3, srcLen := 2, dstAddr := 0, dstCap := 4 }
     let l := latchOf s
     s.phase = .busy l .started ∧ usesDst .hexEnc = true ∧ InRange s l.srcAddr l.srcLen ∧
       InRange s l.dstAddr l.dstCap ∧ ¬Apart l.dstAddr l.dstCap l.srcAddr l.srcLen) ∧
    (let s := State.start 0x10 { setUp [] [] 0 0 with srcLen := 1, auxAddr := 0x40, auxLen := 2, dstAddr := 0x41, dstCap := 1 }
     let l := latchOf s
     s.phase = .busy l .started ∧ usesDst (.xorFixed .raw) = true ∧ InRange s l.srcAddr l.srcLen ∧
       InRange s l.dstAddr l.dstCap ∧ InRange s l.auxAddr l.auxLen ∧
       Apart l.dstAddr l.dstCap l.srcAddr l.srcLen ∧ usesAux (.xorFixed .raw) = true ∧
       ¬Apart l.dstAddr l.dstCap l.auxAddr l.auxLen) := by
  unfold InRange Apart; decide

/-- A text that no bytes have, for the clauses on malformed text: an even number of hex digits can only
come from half as many bytes, and the letter g from none. -/
theorem witness_HexDecodeInvertsHexEncodeUpToCase (b : Bytes) : [0x30#8].map lowerHex ≠ hexEncode b := by
  cases b with
  | nil => decide
  | cons x r =>
    intro h
    have := congrArg List.length h
    simp only [hexEncode, List.flatMap_cons, List.length_append, List.length_map, List.length_cons,
      List.length_nil] at this
    omega

theorem b64Encode_length_ne_one (b : Bytes) : (b64Encode b).length ≠ 1 := by
  match b with
  | [] => simp [b64Encode]
  | [_] => simp [b64Encode]
  | [_, _] => simp [b64Encode]
  | _ :: _ :: _ :: _ => simp [b64Encode]

theorem witness_B64DecodeAcceptsExactlyCanonicalText (b : Bytes) : [0x41#8] ≠ b64Encode b := by
  intro h
  exact b64Encode_length_ne_one b (congrArg List.length h).symm

theorem witness_B64EncodeSlicesTheAccumulator : 3 * 0 < [0x4D#8].length ∧ 3 * 1 < [0x4D#8, 0x61, 0x6E, 0x79].length := by
  decide

/-- The shortest and the longest run, and a last byte equal to the length and one above it. -/
theorem witness_UnpadRemovesTheClaimedBytes :
    (1 ≤ 1 ∧ 1 ≤ 255 ∧ [0x01#8] = [] ++ List.replicate 1 (BitVec.ofNat 8 1)) ∧
      (1 ≤ 16 ∧ 16 ≤ 16 ∧ List.replicate 16 0x10#8 = [] ++ List.replicate 16 (BitVec.ofNat 8 16)) ∧
      ([0x41#8, 0x02] = [0x41] ++ [0x02] ∧ (0x02#8).toNat ≤ [0x41#8, 0x02].length) ∧
      ([0x05#8] = [] ++ [0x05] ∧ [0x05#8].length < (0x05#8).toNat) := by decide

theorem no_run_in_nil (out : Bytes) (k : Nat) (h : 1 ≤ k) :
    ([] : Bytes) ≠ out ++ List.replicate k (BitVec.ofNat 8 k) := by
  intro e
  have := congrArg List.length e
  simp at this
  omega

/-- SRC and DST of a state built by `started` are ready when SRC has at most 0x80 bytes and DST at most
0x80 bytes of room: the boundary is met by `ready_at_the_boundary`. -/
theorem ready_of {s : State} (h : (InRange s (latchOf s).srcAddr (latchOf s).srcLen ∧
      InRange s (latchOf s).dstAddr (latchOf s).dstCap) ∧
      Apart (latchOf s).dstAddr (latchOf s).dstCap (latchOf s).srcAddr (latchOf s).srcLen) :
    SrcDstReady s (latchOf s) := ⟨h.1.1, h.1.2, h.2⟩

theorem ready_at_the_boundary :
    let s := started 1 (List.replicate 0x40 0) [] 0x80 0
    s.phase = .busy (latchOf s) .started ∧ SrcDstReady s (latchOf s) :=
  ⟨by decide, ready_of (by unfold InRange Apart; decide)⟩

/-- A capacity that is just enough, and one byte less. -/
theorem witness_HexEncWritesLowercaseDigits :
    (let s := started 1 [0x00] [] 2 0
     s.phase = .busy (latchOf s) .started ∧ SrcDstReady s (latchOf s) ∧
       2 * (latchOf s).srcLen.toNat ≤ (latchOf s).dstCap.toNat) ∧
    (let s := started 1 [0x00] [] 1 0
     s.phase = .busy (latchOf s) .started ∧ SrcDstReady s (latchOf s) ∧
       (latchOf s).dstCap.toNat < 2 * (latchOf s).srcLen.toNat) :=
  ⟨⟨by decide, ready_of (by unfold InRange Apart; decide), by decide⟩,
    ⟨by decide, ready_of (by unfold InRange Apart; decide), by decide⟩⟩

/-- "0A" with room for one byte and for none, and "0", which no bytes have. -/
theorem witness_HexDecWritesTheBytesOfTheText :
    (let s := started 2 [0x30, 0x41] [] 1 0
     s.phase = .busy (latchOf s) .started ∧ SrcDstReady s (latchOf s) ∧
       Represents .hex (srcBytes s (latchOf s)) [0x0A] ∧ [0x0A#8].length ≤ (latchOf s).dstCap.toNat) ∧
    (let s := started 2 [0x30, 0x41] [] 0 0
     SrcDstReady s (latchOf s) ∧ Represents .hex (srcBytes s (latchOf s)) [0x0A] ∧
       (latchOf s).dstCap.toNat < [0x0A#8].length) ∧
    (let s := started 2 [0x30] [] 1 0
     SrcDstReady s (latchOf s) ∧ ∀ b, ¬Represents .hex (srcBytes s (latchOf s)) b) :=
  ⟨⟨by decide, ready_of (by unfold InRange Apart; decide), by unfold Represents; decide, by decide⟩,
    ⟨ready_of (by unfold InRange Apart; decide), by unfold Represents; decide, by decide⟩,
    ⟨ready_of (by unfold InRange Apart; decide), witness_HexDecodeInvertsHexEncodeUpToCase⟩⟩

/-- One byte of SRC with room for four characters and for three. -/
theorem witness_B64EncWritesTheText :
    (let s := started 3 [0x4D] [] 4 0
     s.phase = .busy (latchOf s) .started ∧ SrcDstReady s (latchOf s) ∧
       4 * (((latchOf s).srcLen.toNat + 2) / 3) ≤ (latchOf s).dstCap.toNat) ∧
    (let s := started 3 [0x4D] [] 3 0
     SrcDstReady s (latchOf s) ∧ (latchOf s).dstCap.toNat < 4 * (((latchOf s).srcLen.toNat + 2) / 3)) :=
  ⟨⟨by decide, ready_of (by unfold InRange Apart; decide), by decide⟩,
    ⟨ready_of (by unfold InRange Apart; decide), by decide⟩⟩

/-- "TQ==" with room for its byte and for none, and "A", which no bytes have. -/
theorem witness_B64DecWritesTheBytesOfTheText :
    (let s := started 4 [0x54, 0x51, 0x3D, 0x3D] [] 1 0
     s.phase = .busy (latchOf s) .started ∧ SrcDstReady s (latchOf s) ∧
       srcBytes s (latchOf s) = b64Encode [0x4D] ∧ [0x4D#8].length ≤ (latchOf s).dstCap.toNat) ∧
    (let s := started 4 [0x54, 0x51, 0x3D, 0x3D] [] 0 0
     SrcDstReady s (latchOf s) ∧ srcBytes s (latchOf s) = b64Encode [0x4D] ∧
       (latchOf s).dstCap.toNat < [0x4D#8].length) ∧
    (let s := started 4 [0x41] [] 1 0
     SrcDstReady s (latchOf s) ∧ ∀ b, srcBytes s (latchOf s) ≠ b64Encode b) :=
  ⟨⟨by decide, ready_of (by unfold InRange Apart; decide), by decide, by decide⟩,
    ⟨ready_of (by unfold InRange Apart; decide), by decide, by decide⟩,
    ⟨ready_of (by unfold InRange Apart; decide), witness_B64DecodeAcceptsExactlyCanonicalText⟩⟩

/-- "4d" with room for four characters and for three; "0" is malformed. -/
theorem witness_HexToB64ComposesThroughBytes :
    (let s := started 5 [0x34, 0x64] [] 4 0
     s.phase = .busy (latchOf s) .started ∧ SrcDstReady s (latchOf s) ∧
       Represents .hex (srcBytes s (latchOf s)) [0x4D] ∧
       (b64Encode [0x4D]).length ≤ (latchOf s).dstCap.toNat) ∧
    (let s := started 5 [0x34, 0x64] [] 3 0
     SrcDstReady s (latchOf s) ∧ Represents .hex (srcBytes s (latchOf s)) [0x4D] ∧
       (latchOf s).dstCap.toNat < (b64Encode [0x4D]).length) ∧
    (let s := started 5 [0x30] [] 4 0
     SrcDstReady s (latchOf s) ∧ ∀ b, ¬Represents .hex (srcBytes s (latchOf s)) b) :=
  ⟨⟨by decide, ready_of (by unfold InRange Apart; decide), by unfold Represents; decide, by decide⟩,
    ⟨ready_of (by unfold InRange Apart; decide), by unfold Represents; decide, by decide⟩,
    ⟨ready_of (by unfold InRange Apart; decide), witness_HexDecodeInvertsHexEncodeUpToCase⟩⟩

/-- "TQ==" with room for two characters and for one; "A" is malformed. -/
theorem witness_B64ToHexComposesThroughBytes :
    (let s := started 6 [0x54, 0x51, 0x3D, 0x3D] [] 2 0
     s.phase = .busy (latchOf s) .started ∧ SrcDstReady s (latchOf s) ∧
       srcBytes s (latchOf s) = b64Encode [0x4D] ∧ 2 * [0x4D#8].length ≤ (latchOf s).dstCap.toNat) ∧
    (let s := started 6 [0x54, 0x51, 0x3D, 0x3D] [] 1 0
     SrcDstReady s (latchOf s) ∧ srcBytes s (latchOf s) = b64Encode [0x4D] ∧
       (latchOf s).dstCap.toNat < 2 * [0x4D#8].length) ∧
    (let s := started 6 [0x41] [] 1 0
     SrcDstReady s (latchOf s) ∧ ∀ b, srcBytes s (latchOf s) ≠ b64Encode b) :=
  ⟨⟨by decide, ready_of (by unfold InRange Apart; decide), by decide, by decide⟩,
    ⟨ready_of (by unfold InRange Apart; decide), by decide, by decide⟩,
    ⟨ready_of (by unfold InRange Apart; decide), witness_B64DecodeAcceptsExactlyCanonicalText⟩⟩

/-- PARAM at n and at n + 255 with and without room, one below n, and one above n + 255. -/
theorem witness_PadWritesSourceAndCount :
    (let s := started 7 [0x61, 0x62, 0x63] [] 3 3
     s.phase = .busy (latchOf s) .started ∧ SrcDstReady s (latchOf s) ∧
       (latchOf s).srcLen.toNat ≤ (latchOf s).param.toNat ∧
       (latchOf s).param.toNat ≤ (latchOf s).srcLen.toNat + 255 ∧
       (latchOf s).param.toNat ≤ (latchOf s).dstCap.toNat) ∧
    (let s := started 7 [0x61] [] 0x80 256
     SrcDstReady s (latchOf s) ∧ (latchOf s).srcLen.toNat ≤ (latchOf s).param.toNat ∧
       (latchOf s).param.toNat ≤ (latchOf s).srcLen.toNat + 255 ∧
       (latchOf s).dstCap.toNat < (latchOf s).param.toNat) ∧
    (let s := started 7 [0x61, 0x62, 0x63] [] 64 2
     SrcDstReady s (latchOf s) ∧ (latchOf s).param.toNat < (latchOf s).srcLen.toNat) ∧
    (let s := started 7 [0x61] [] 64 257
     SrcDstReady s (latchOf s) ∧ (latchOf s).srcLen.toNat + 255 < (latchOf s).param.toNat) :=
  ⟨⟨by decide, ready_of (by unfold InRange Apart; decide), by decide, by decide, by decide⟩,
    ⟨ready_of (by unfold InRange Apart; decide), by decide, by decide, by decide⟩,
    ⟨ready_of (by unfold InRange Apart; decide), by decide⟩,
    ⟨ready_of (by unfold InRange Apart; decide), by decide⟩⟩

/-- "A" and one pad byte with room for one byte and for none; the empty text has no run. -/
theorem witness_ValidatedUnpadWritesTheRest :
    (let s := started 0x1008 [0x41, 0x01] [] 1 0
     s.phase = .busy (latchOf s) .started ∧ SrcDstReady s (latchOf s) ∧ 1 ≤ 1 ∧ 1 ≤ 255 ∧
       srcBytes s (latchOf s) = [0x41] ++ List.replicate 1 (BitVec.ofNat 8 1) ∧
       [0x41#8].length ≤ (latchOf s).dstCap.toNat) ∧
    (let s := started 0x1008 [0x41, 0x01] [] 0 0
     SrcDstReady s (latchOf s) ∧ srcBytes s (latchOf s) = [0x41] ++ List.replicate 1 (BitVec.ofNat 8 1) ∧
       (latchOf s).dstCap.toNat < [0x41#8].length) ∧
    (let s := started 0x1008 [] [] 1 0
     SrcDstReady s (latchOf s) ∧
       ∀ out k, 1 ≤ k → k ≤ 255 → srcBytes s (latchOf s) ≠ out ++ List.replicate k (BitVec.ofNat 8 k)) :=
  ⟨⟨by decide, ready_of (by unfold InRange Apart; decide), by decide, by decide, by decide, by decide⟩,
    ⟨ready_of (by unfold InRange Apart; decide), by decide, by decide⟩,
    ⟨ready_of (by unfold InRange Apart; decide), fun out k h _ => no_run_in_nil out k h⟩⟩

/-- The empty text; a last byte equal to the length; 0, with and without room; and one above the length. -/
theorem witness_UnvalidatedUnpadDropsTheClaimedCount :
    (let s := started 8 [] [] 0 0
     s.phase = .busy (latchOf s) .started ∧ SrcDstReady s (latchOf s) ∧ (latchOf s).srcLen.toNat = 0) ∧
    (let s := started 8 [0x41, 0x02] [] 0 0
     SrcDstReady s (latchOf s) ∧ srcBytes s (latchOf s) = [0x41] ++ [0x02] ∧
       (0x02#8).toNat ≤ (latchOf s).srcLen.toNat ∧
       (latchOf s).srcLen.toNat - (0x02#8).toNat ≤ (latchOf s).dstCap.toNat) ∧
    (let s := started 8 [0x41, 0x00] [] 1 0
     SrcDstReady s (latchOf s) ∧ srcBytes s (latchOf s) = [0x41] ++ [0x00] ∧
       (0x00#8).toNat ≤ (latchOf s).srcLen.toNat ∧
       (latchOf s).dstCap.toNat < (latchOf s).srcLen.toNat - (0x00#8).toNat) ∧
    (let s := started 8 [0x41, 0x03] [] 1 0
     SrcDstReady s (latchOf s) ∧ srcBytes s (latchOf s) = [0x41] ++ [0x03] ∧
       (latchOf s).srcLen.toNat < (0x03#8).toNat) :=
  ⟨⟨by decide, ready_of (by unfold InRange Apart; decide), by decide⟩,
    ⟨ready_of (by unfold InRange Apart; decide), by decide, by decide, by decide⟩,
    ⟨ready_of (by unfold InRange Apart; decide), by decide, by decide, by decide⟩,
    ⟨ready_of (by unfold InRange Apart; decide), by decide, by decide⟩⟩

theorem allReady_of {s : State} (h : ((InRange s (latchOf s).srcAddr (latchOf s).srcLen ∧
      InRange s (latchOf s).dstAddr (latchOf s).dstCap) ∧
      Apart (latchOf s).dstAddr (latchOf s).dstCap (latchOf s).srcAddr (latchOf s).srcLen) ∧
      InRange s (latchOf s).auxAddr (latchOf s).auxLen ∧
      Apart (latchOf s).dstAddr (latchOf s).dstCap (latchOf s).auxAddr (latchOf s).auxLen) :
    AllReady s (latchOf s) := ⟨ready_of h.1, h.2.1, h.2.2⟩

/-- Each encoding of one byte, with just enough room; RAW without; and unequal lengths. -/
theorem witness_XorFixedWritesTheBytewiseXor :
    (let s := started 0x10 [0x01] [0xFF] 1 0
     s.phase = .busy (latchOf s) .started ∧ AllReady s (latchOf s) ∧
       Represents .raw (srcBytes s (latchOf s)) [0x01] ∧ Represents .raw (auxBytes s (latchOf s)) [0xFF] ∧
       (latchOf s).srcLen.toNat ≤ (latchOf s).dstCap.toNat) ∧
    (let s := started 0x110 [0x30, 0x41] [0x30, 0x61] 2 0
     AllReady s (latchOf s) ∧ Represents .hex (srcBytes s (latchOf s)) [0x0A] ∧
       Represents .hex (auxBytes s (latchOf s)) [0x0A] ∧ (latchOf s).srcLen.toNat ≤ (latchOf s).dstCap.toNat) ∧
    (let s := started 0x210 [0x54, 0x51, 0x3D, 0x3D] [0x41, 0x41, 0x3D, 0x3D] 4 0
     AllReady s (latchOf s) ∧ Represents .b64 (srcBytes s (latchOf s)) [0x4D] ∧
       Represents .b64 (auxBytes s (latchOf s)) [0x00] ∧ (latchOf s).srcLen.toNat ≤ (latchOf s).dstCap.toNat) ∧
    (let s := started 0x10 [0x01, 0x02] [0xFF] 1 0
     AllReady s (latchOf s) ∧ Represents .raw (srcBytes s (latchOf s)) [0x01, 0x02] ∧
       Represents .raw (auxBytes s (latchOf s)) [0xFF] ∧ [0x01#8, 0x02].length ≠ [0xFF#8].length ∧
       (latchOf s).dstCap.toNat < (latchOf s).srcLen.toNat) :=
  ⟨⟨by decide, allReady_of (by unfold InRange Apart; decide), by unfold Represents; decide,
      by unfold Represents; decide, by decide⟩,
    ⟨allReady_of (by unfold InRange Apart; decide), by unfold Represents; decide,
      by unfold Represents; decide, by decide⟩,
    ⟨allReady_of (by unfold InRange Apart; decide), by unfold Represents; decide,
      by unfold Represents; decide, by decide⟩,
    ⟨allReady_of (by unfold InRange Apart; decide), by unfold Represents; decide,
      by unfold Represents; decide, by decide, by decide⟩⟩

/-- A key longer than the text, with just enough room and with none; and the empty key. -/
theorem witness_XorRepeatCyclesTheKey :
    (let s := started 0x11 [0x10] [0x01, 0x02] 1 0
     s.phase = .busy (latchOf s) .started ∧ AllReady s (latchOf s) ∧
       Represents .raw (srcBytes s (latchOf s)) [0x10] ∧ Represents .raw (auxBytes s (latchOf s)) [0x01, 0x02] ∧
       [0x01#8, 0x02] ≠ [] ∧ (latchOf s).srcLen.toNat ≤ (latchOf s).dstCap.toNat) ∧
    (let s := started 0x11 [0x10] [0x01, 0x02] 0 0
     AllReady s (latchOf s) ∧ Represents .raw (srcBytes s (latchOf s)) [0x10] ∧
       Represents .raw (auxBytes s (latchOf s)) [0x01, 0x02] ∧
       (latchOf s).dstCap.toNat < (latchOf s).srcLen.toNat) ∧
    (let s := started 0x11 [] [] 0 0
     AllReady s (latchOf s) ∧ Represents .raw (srcBytes s (latchOf s)) [] ∧
       Represents .raw (auxBytes s (latchOf s)) []) :=
  ⟨⟨by decide, allReady_of (by unfold InRange Apart; decide), by unfold Represents; decide,
      by unfold Represents; decide, by decide, by decide⟩,
    ⟨allReady_of (by unfold InRange Apart; decide), by unfold Represents; decide,
      by unfold Represents; decide, by decide⟩,
    ⟨allReady_of (by unfold InRange Apart; decide), by unfold Represents; decide,
      by unfold Represents; decide⟩⟩

/-- Equal and unequal lengths, with a DST that is out of range. -/
theorem witness_HammingCountsDifferingBits :
    (let s := { started 0x12 [0x00] [0xFF] 0xFFFFFFFF 0 with dstAddr := 0xFFFFFFFF }
     s.phase = .busy (latchOf s) .started ∧ s.platform.memSize ≤ 2 ^ 28 ∧
       InRange s (latchOf s).srcAddr (latchOf s).srcLen ∧ InRange s (latchOf s).auxAddr (latchOf s).auxLen ∧
       Represents .raw (srcBytes s (latchOf s)) [0x00] ∧ Represents .raw (auxBytes s (latchOf s)) [0xFF]) ∧
    (let s := started 0x12 [0x01] [0x03, 0x04] 0 0
     Represents .raw (srcBytes s (latchOf s)) [0x01] ∧ Represents .raw (auxBytes s (latchOf s)) [0x03, 0x04] ∧
       [0x01#8].length ≠ [0x03#8, 0x04].length) := by
  unfold InRange Represents; decide

/-- Malformed SRC; then a well-formed SRC with a malformed AUX. -/
theorem witness_MalformedXorOperandsReportInOrder :
    (let s := started 0x110 [0x30] [0x30] 0 0
     s.phase = .busy (latchOf s) .started ∧ AllReady s (latchOf s) ∧
       ∀ x, ¬Represents .hex (srcBytes s (latchOf s)) x) ∧
    (let s := started 0x110 [0x30, 0x30] [0x30] 0 0
     AllReady s (latchOf s) ∧ Represents .hex (srcBytes s (latchOf s)) [0x00] ∧
       ∀ y, ¬Represents .hex (auxBytes s (latchOf s)) y) :=
  ⟨⟨by decide, allReady_of (by unfold InRange Apart; decide), witness_HexDecodeInvertsHexEncodeUpToCase⟩,
    ⟨allReady_of (by unfold InRange Apart; decide), by unfold Represents; decide,
      witness_HexDecodeInvertsHexEncodeUpToCase⟩⟩

theorem witness_XorLaws : [0x01#8].length = [0x02#8].length ∧ [0x01#8] ≠ [] := by decide

/-- The toy primitive's inverse law on one block of its vectors, and the identity for all blocks. -/
theorem witness_CbcRoundTrip :
    toyD key16 (toyE key16 Block.zero) = Block.zero ∧ ∀ x : Block, id (id x) = x :=
  ⟨by decide, fun _ => rfl⟩

/-- One block, with exactly the room it needs, and the shortest accepted key. -/
theorem witness_CbcEncWritesTheChainedCiphertext :
    let s := started 0x20 [0x61] key16 16 0
    s.phase = .busy (latchOf s) .started ∧ AllReady s (latchOf s) ∧
      blockKeyOk s (latchOf s).auxLen.toNat = true ∧
      16 * ((latchOf s).srcLen.toNat / 16 + 1) ≤ (latchOf s).dstCap.toNat :=
  ⟨by decide, allReady_of (by unfold InRange Apart; decide), by decide, by decide⟩

/-- One block and no block; an empty plaintext un-pads with V = 0 and not with V = 1. -/
theorem witness_CbcDecWritesThePlaintextOrHavoc :
    ((toBlocks (srcBytes (started 0x21 key16 key16 16 0) (latchOf (started 0x21 key16 key16 16 0)))).head?.isSome
      = true) ∧
    (let s := started 0x21 key16 key16 16 0
     s.phase = .busy (latchOf s) .started ∧ AllReady s (latchOf s) ∧ s.bcpReq = none ∧ s.bcpAnswer = none ∧
       blockKeyOk s (latchOf s).auxLen.toNat = true ∧ (latchOf s).srcLen.toNat % 16 = 0 ∧
       (latchOf s).srcLen.toNat ≤ (latchOf s).dstCap.toNat) ∧
    (let s := started 0x21 [] key16 0 0
     AllReady s (latchOf s) ∧ (latchOf s).srcLen.toNat % 16 = 0 ∧
       (unpad (cbcDecryptBlocks (Config.blockDecrypt small.platform.keyLens key16) (latchOf s).iv (toBlocks (srcBytes s (latchOf s)))).1
         false 16 .dst).toOption = some [] ∧
       (unpad (cbcDecryptBlocks (Config.blockDecrypt small.platform.keyLens key16) (latchOf s).iv (toBlocks (srcBytes s (latchOf s)))).1
         true 16 .dst).toOption = none) :=
  ⟨by decide, ⟨by decide, allReady_of (by unfold InRange Apart; decide), by decide, by decide, by decide, by decide,
      by decide⟩,
    ⟨allReady_of (by unfold InRange Apart; decide), by decide, by decide, by decide⟩⟩

/-- 15 key bytes; 16 with one byte of room too few; a ciphertext of 17 bytes. -/
theorem witness_CbcPreChecksReportInOrder :
    (let s := started 0x20 [0x61] (List.replicate 15 0) 16 0
     s.phase = .busy (latchOf s) .started ∧ AllReady s (latchOf s) ∧ (latchOf s).auxLen.toNat < 16 ∧
       ¬blockKeyOk s (latchOf s).auxLen.toNat = true) ∧
    (let s := started 0x20 [0x61] key16 15 0
     AllReady s (latchOf s) ∧ blockKeyOk s (latchOf s).auxLen.toNat = true ∧
       (latchOf s).dstCap.toNat < 16 * ((latchOf s).srcLen.toNat / 16 + 1)) ∧
    (let s := started 0x21 (List.replicate 17 0) key16 32 0
     AllReady s (latchOf s) ∧ (latchOf s).srcLen.toNat % 16 ≠ 0) ∧
    (let s := started 0x21 key16 key16 15 0
     AllReady s (latchOf s) ∧ (latchOf s).srcLen.toNat % 16 = 0 ∧
       (latchOf s).dstCap.toNat < (latchOf s).srcLen.toNat) :=
  ⟨⟨by decide, allReady_of (by unfold InRange Apart; decide), by decide, by decide⟩,
    ⟨allReady_of (by unfold InRange Apart; decide), by decide, by decide⟩,
    ⟨allReady_of (by unfold InRange Apart; decide), by decide⟩,
    ⟨allReady_of (by unfold InRange Apart; decide), by decide, by decide⟩⟩

/-- A started CBC_ENC in BUF, for the statements about every step. -/
def cbcStarted : State := started 0x20 [0x61] key16 16 0

theorem cbcStarted_inv : Inv cbcStarted where
  memSizeOk := by decide
  bufOk := by decide
  errcodeLegal := by decide
  errinfoLegal := by decide
  errHasCode := by decide
  errorNoResult := by decide
  noErrorNoInfo := by decide
  phaseOk :=
    ⟨⟨by decide, by decide, by decide, by decide, by decide, by decide, by decide, by decide,
        by unfold IvHolds; decide, by unfold IvHolds; decide, by unfold IvHolds; decide,
        by unfold IvHolds; decide⟩,
      by decide, by decide, by decide, by decide, by decide, by decide, by decide, by decide⟩

/-- The invariant holds of a running command, and its next step exists and sets CHAIN. -/
theorem witness_EveryStepKeepsTheInvariant :
    Inv cbcStarted ∧ (match step cbcStarted with
      | .next t => t.busy
      | .fault _ | .refused _ => false) = true := ⟨cbcStarted_inv, by decide⟩

theorem witness_EngineWritesOnlyTheDestination :
    Inv cbcStarted ∧ cbcStarted.phase = .busy (latchOf cbcStarted) .started ∧
      (match engineStep cbcStarted with
        | .next _ => true
        | .fault _ | .refused _ => false) = true := ⟨cbcStarted_inv, by decide, by decide⟩

theorem witness_OnlyCbcCommandsWriteChain :
    Inv cbcStarted ∧ (match step cbcStarted with
      | .next t => t.chainWritten != cbcStarted.chainWritten
      | .fault _ | .refused _ => false) = true := ⟨cbcStarted_inv, by decide⟩

/-- A CBC_ENC whose only request has been answered: its next engine step completes it. -/
def answeredOnce : State := answered 0x20 [0x61] key16 Block.zero

/-- A start, a completion and a reset. -/
theorem witness_OnlyTheseEventsChangeThePhase :
    (match step { small with agenda := [.host (.csrWrite 0x0C .four 1)] } with
      | .next t => !small.busy && t.busy
      | .fault _ | .refused _ => false) = true ∧
    (match step running with
      | .next t => running.busy && !t.busy
      | .fault _ | .refused _ => false) = true ∧
    (match step { running with agenda := [.reset] } with
      | .next t => running.busy && !t.busy
      | .fault _ | .refused _ => false) = true := by decide

theorem witness_HostCannotDisturbARunningCommand :
    running.busy = true ∧
      ({ running with agenda := [.host (.bufRead 0 .one)] } : State).agenda = .host (.bufRead 0 .one) :: [] := by
  decide

theorem witness_HazAndBerrAreSticky :
    (match step { small with haz := true, berr := true, agenda := [.host (.csrWrite 0x08 .four 0x18)] } with
      | .next t => !t.haz && !t.berr
      | .fault _ | .refused _ => false) = true := by decide

theorem witness_UnusedOperandsAreIgnored :
    (usesAux .hexEnc = false ∧ usesDst (.hamming .raw) = false ∧ Instr.hexEnc ≠ .pad ∧ Instr.hexEnc ≠ .cbcEnc) ∧
    (cbcStarted.phase = .busy (latchOf cbcStarted) .started ∧
      (decode (latchOf cbcStarted).word).toOption = some .cbcEnc ∧ Instr.cbcEnc ≠ .pad ∧
      (match engineStep cbcStarted with
        | .next t => t.busy
        | .fault _ | .refused _ => false) = true) ∧
    ((decode (latchOf answeredOnce).word).toOption = some .cbcEnc ∧ answeredOnce.busy = true ∧
      (match engineStep answeredOnce with
        | .next t => !t.busy
        | .fault _ | .refused _ => false) = true) := by
  decide

theorem witness_WrittenOperandBytesReadAsWritten :
    let s := started 0x10 [0x01] [0x02] 1 0
    [0x01#8].length = (latchOf s).srcLen.toNat ∧ s.buf.byte? ((latchOf s).srcAddr.toNat + 0) = [0x01#8][0]? ∧
      [0x02#8].length = (latchOf s).auxLen.toNat ∧ s.buf.byte? ((latchOf s).auxAddr.toNat + 0) = [0x02#8][0]? := by
  decide

end Sys2Proof.Tests
end

section
/-! Reset and the invariant (00_scope.md R7; 10_state.md R49). -/

namespace Sys2Proof.Machine

/-- The type of `Config.memExtra` carries R7's constraint, so it holds of the opaque MEM_SIZE. -/
theorem config_memSize_bounds : 16 ≤ Config.memSize ∧ Config.memSize ≤ 2 ^ 28 := by
  have extra := Config.memExtra.isLt
  unfold Config.memSize
  omega

/-- The reset input re-establishes the invariant from any state: only MEM_SIZE's constraint is needed,
as the platform is all of the old state that the invariant looks at after a reset. -/
theorem applyReset_inv {s : State} (h : 16 ≤ s.platform.memSize ∧ s.platform.memSize ≤ 2 ^ 28) :
    Inv s.applyReset where
  memSizeOk := h
  bufOk := ⟨Memory.wf_nil, List.forall_mem_nil _⟩
  errcodeLegal := List.mem_cons_self
  errinfoLegal := Nat.zero_le 4
  errHasCode := fun err => absurd err Bool.false_ne_true
  errorNoResult := fun _ => ⟨rfl, rfl⟩
  noErrorNoInfo := fun _ => rfl
  phaseOk := ⟨rfl, rfl⟩

theorem applyReset_reset : State.reset.applyReset = State.reset := rfl

/-- Settles O52: the reset state is what the reset input makes of itself, and MEM_SIZE meets R7. -/
theorem resetMeetsTheInvariant : Obligations.ResetMeetsTheInvariant := by
  unfold Obligations.ResetMeetsTheInvariant
  rw [← applyReset_reset]
  exact applyReset_inv config_memSize_bounds

end Sys2Proof.Machine
end

section
/-! What the host's bus can do, said once: where each register sits in the CSR aperture, what a
well-formed access does in each phase, and the three things a transaction can do to the state
(20_memory.md R66, R67; 40_host_and_command.md R122 to R128). -/

namespace Sys2Proof.Machine

theorem busy_eq_false_iff {s : State} : s.busy = false ↔ s.phase = .idle := by
  cases h : s.phase <;> simp [State.busy, h]

theorem busy_eq_true_iff {s : State} : s.busy = true ↔ ∃ lat progress, s.phase = .busy lat progress := by
  cases h : s.phase <;> simp [State.busy, h]

/-! ### The CSR aperture -/

theorem csrAccessOk_iff {off : Nat} {w : Width} :
    csrAccessOk off w = true ↔ w = .four ∧ off % 4 = 0 ∧ off ≤ 0xFC := by
  simp [csrAccessOk, and_assoc]

/-- No register stands above CHAIN3 (10_state.md R23, R43). -/
theorem csrAt_of_high {off : Nat} (h : 0x60 ≤ off) : csrAt off = .reserved := by
  simp (disch := omega) only [csrAt, if_neg]

/-- The register map, slot by slot: every slot below the end of CHAIN3 is reserved or holds the register
of that offset (10_state.md R23). -/
theorem csrAt_low : ∀ off < 0x60, csrAt off = .reserved ∨ csrOffset (csrAt off) = some off := by
  decide

/-- A register stands at its own offset and at no other. -/
theorem off_of_csrAt {off a : Nat} {c : Csr} (h : csrAt off = c) (hc : csrOffset c = some a) : off = a := by
  subst h
  have named : csrAt off ≠ .reserved := fun hr => by simp [hr, csrOffset] at hc
  have low : off < 0x60 := not_le.mp fun high => named (csrAt_of_high high)
  have own := (csrAt_low off low).resolve_left named
  exact Option.some.inj (own.symm.trans hc)

theorem csrRead_ok {off : Nat} {w : Width} (hok : csrAccessOk off w = true) (s : State) :
    s.csrRead off w = { s with reply := some (s.csrValue (csrAt off)), draws := s.draws + 1 } :=
  if_pos hok

theorem csrWrite_busy {off : Nat} {w : Width} (hok : csrAccessOk off w = true) {s : State}
    (hb : s.busy = true) (v : Word) : s.csrWrite off w v = { s with haz := true, reply := none } := by
  rw [State.csrWrite, if_pos hok, if_pos hb]

theorem csrWrite_idle {off : Nat} {w : Width} (hok : csrAccessOk off w = true) {s : State}
    (hp : s.phase = .idle) (v : Word) :
    s.csrWrite off w v = { s.csrStore (csrAt off) v with reply := none } := by
  rw [State.csrWrite, if_pos hok, if_neg (by simp [busy_eq_false_iff.mpr hp])]

/-! ### What a store to a register can do -/

/-- `t` differs from `s` in no field that the engine or the port uses: at most in the host's own
registers, in flags that were cleared and in the model's own fields. -/
structure SameEngineState (s t : State) : Prop where
  platform : t.platform = s.platform
  err : t.err = true → s.err = true
  errcode : t.errcode = s.errcode
  outLen : t.outLen = s.outLen
  result : t.result = s.result
  errinfo : t.errinfo = s.errinfo
  chain : t.chain = s.chain
  chainWritten : t.chainWritten = s.chainWritten
  buf : t.buf = s.buf
  phase : t.phase = s.phase
  bcpReq : t.bcpReq = s.bcpReq
  bcpAnswer : t.bcpAnswer = s.bcpAnswer

/-- Only a CMD write reaches the engine. -/
theorem csrStore_sameEngineState {c : Csr} (hc : c ≠ .cmd) (v : Word) (s : State) :
    SameEngineState s (s.csrStore c v) := by
  cases c with
  | cmd => exact absurd rfl hc
  | status =>
    have err : (s.clearStatus v).err = true → s.err = true := by simp +contextual
    exact ⟨rfl, err, rfl, rfl, rfl, rfl, rfl, rfl, rfl, rfl, rfl, rfl⟩
  | _ => exact ⟨rfl, id, rfl, rfl, rfl, rfl, rfl, rfl, rfl, rfl, rfl, rfl⟩

@[simp] theorem csrStore_chain (c : Csr) (v : Word) (s : State) : (s.csrStore c v).chain = s.chain := by
  cases c <;> rfl

@[simp] theorem csrStore_chainWritten (c : Csr) (v : Word) (s : State) :
    (s.csrStore c v).chainWritten = s.chainWritten := by
  cases c <;> rfl

/-- Only a STATUS write of 1 to its bit clears HAZ (10_state.md R30). -/
theorem csrStore_clears_haz {c : Csr} {v : Word} {s : State} (h : s.haz = true)
    (h' : (s.csrStore c v).haz = false) : c = .status ∧ v.getLsbD 3 = true := by
  cases c with
  | status => exact ⟨rfl, by simpa [State.csrStore, h] using h'⟩
  | _ => exact absurd (h.symm.trans h') (by decide)

/-- Only a STATUS write of 1 to its bit clears BERR (10_state.md R31). -/
theorem csrStore_clears_berr {c : Csr} {v : Word} {s : State} (h : s.berr = true)
    (h' : (s.csrStore c v).berr = false) : c = .status ∧ v.getLsbD 4 = true := by
  cases c with
  | status => exact ⟨rfl, by simpa [State.csrStore, h] using h'⟩
  | _ => exact absurd (h.symm.trans h') (by decide)

/-! ### What a host transaction can do -/

/-- A transaction raises flags, answers and draws; or stores to a register of an Idle device; or writes
bytes inside BUF of an Idle device. -/
theorem hostStep_cases (op : HostOp) (s : State) :
    (∃ haz berr reply draws, (s.haz = true → haz = true) ∧ (s.berr = true → berr = true) ∧
      hostStep op s = { s with haz := haz, berr := berr, reply := reply, draws := draws }) ∨
    (s.phase = .idle ∧ ∃ off v, op = .csrWrite off .four v ∧
      hostStep op s = { s.csrStore (csrAt off) v with reply := none }) ∨
    (s.phase = .idle ∧ ∃ a bs, a + bs.length ≤ s.platform.memSize ∧
      hostStep op s = { s with buf := s.buf.writeBytes a bs, reply := none }) := by
  cases op with
  | csrRead off w =>
    refine .inl ?_
    simp only [hostStep, State.csrRead]
    split
    · exact ⟨s.haz, s.berr, _, _, id, id, rfl⟩
    · exact ⟨s.haz, true, _, s.draws, id, fun _ => rfl, rfl⟩
  | csrWrite off w v =>
    cases hok : csrAccessOk off w with
    | false =>
      have malformed : s.csrWrite off w v = { s with berr := true, reply := none } := by
        simp [State.csrWrite, hok]
      exact .inl ⟨s.haz, true, none, s.draws, id, fun _ => rfl, malformed⟩
    | true =>
      obtain ⟨rfl, -, -⟩ := csrAccessOk_iff.mp hok
      cases hb : s.busy with
      | true => exact .inl ⟨true, s.berr, _, s.draws, fun _ => rfl, id, csrWrite_busy hok hb v⟩
      | false =>
        have hp := busy_eq_false_iff.mp hb
        exact .inr (.inl ⟨hp, off, v, rfl, csrWrite_idle hok hp v⟩)
  | bufRead off w =>
    refine .inl ?_
    simp only [hostStep, State.bufRead]
    split
    · split
      · exact ⟨true, s.berr, _, _, fun _ => rfl, id, rfl⟩
      · exact ⟨s.haz, s.berr, _, _, id, id, rfl⟩
    · exact ⟨s.haz, true, _, s.draws, id, fun _ => rfl, rfl⟩
  | bufWrite off w v =>
    simp only [hostStep, State.bufWrite]
    split
    · rename_i hok
      split
      · exact .inl ⟨true, s.berr, _, s.draws, fun _ => rfl, id, rfl⟩
      · rename_i hb
        have hp := busy_eq_false_iff.mp (Bool.eq_false_iff.mpr hb)
        have inside : off + ((wordBytes v).take (widthBytes w)).length ≤ s.platform.memSize := by
          simp only [bufAccessOk, Bool.and_eq_true, decide_eq_true_eq] at hok
          have := List.length_take_le (widthBytes w) (wordBytes v)
          omega
        exact .inr (.inr ⟨hp, _, _, inside, rfl⟩)
    · exact .inl ⟨s.haz, true, _, s.draws, id, fun _ => rfl, rfl⟩

end Sys2Proof.Machine
end

section
/-! Every step keeps the invariant. What a running command has whatever its progress (`Running`) and
where a CBC pass stands between two blocks (`PassAt`) are named apart, since the states inside one engine
step meet these and not yet the whole invariant. -/

namespace Sys2Proof.Machine

/-- The three kinds of phase. -/
theorem phase_cases (s : State) :
    s.phase = .idle ∨ (∃ lat, s.phase = .busy lat .started) ∨ ∃ lat run, s.phase = .busy lat (.cbc run) := by
  rcases s.phase with _ | ⟨lat, _ | run⟩ <;> simp

theorem phaseOk_of_idle {s : State} (hp : s.phase = .idle) (hreq : s.bcpReq = none)
    (hans : s.bcpAnswer = none) : PhaseOk s := by
  simp only [PhaseOk, hp]
  exact ⟨hreq, hans⟩

theorem Inv.port_quiet_of_idle {s : State} (h : Inv s) (hp : s.phase = .idle) :
    s.bcpReq = none ∧ s.bcpAnswer = none := by
  have hphase := h.phaseOk
  simpa only [PhaseOk, hp] using hphase

/-! ### A running command -/

/-- What holds from the start step to the completion, of the fields that no engine step writes before
the completion (10_state.md R46; 40_host_and_command.md R129). -/
structure Running (s : State) (lat : Latched) : Prop where
  memSizeOk : 16 ≤ s.platform.memSize ∧ s.platform.memSize ≤ 2 ^ 28
  bufOk : s.buf.wf ∧ s.buf.below s.platform.memSize
  latch : LatchMatches s lat
  done : s.done = false
  err : s.err = false
  errcode : s.errcode = 0
  outLen : s.outLen = 0
  result : s.result = 0
  errinfo : s.errinfo = 0

theorem Inv.running {s : State} {lat : Latched} {progress : Progress} (h : Inv s)
    (hp : s.phase = .busy lat progress) : Running s lat := by
  have hphase := h.phaseOk
  simp only [PhaseOk, hp] at hphase
  obtain ⟨latch, done, err, errcode, outLen, result, errinfo, -⟩ := hphase
  exact ⟨h.memSizeOk, h.bufOk, latch, done, err, errcode, outLen, result, errinfo⟩

theorem Inv.port_quiet_of_started {s : State} {lat : Latched} (h : Inv s)
    (hp : s.phase = .busy lat .started) : s.bcpReq = none ∧ s.bcpAnswer = none := by
  have hphase := h.phaseOk
  simp only [PhaseOk, hp] at hphase
  obtain ⟨-, -, -, -, -, -, -, quiet⟩ := hphase
  exact quiet

theorem Inv.cbcRunOk {s : State} {lat : Latched} {run : CbcRun} (h : Inv s)
    (hp : s.phase = .busy lat (.cbc run)) : CbcRunOk s lat run := by
  have hphase := h.phaseOk
  simp only [PhaseOk, hp] at hphase
  obtain ⟨-, -, -, -, -, -, -, runOk⟩ := hphase
  exact runOk

/-- Nothing of `Running` is in the fields of the phase, CHAIN, the port or the model's own, or in the
sticky flags. -/
theorem Running.update {s : State} {lat : Latched} (h : Running s lat) (haz berr : Bool) (chain : Block)
    (chainWritten : Bool) (phase : Phase) (req : Option BcpRequest) (answer : Option Block)
    (agenda : List Event) (reply : Option Word) (draws : Nat) :
    Running
      { s with
        haz := haz, berr := berr, chain := chain, chainWritten := chainWritten, phase := phase
        bcpReq := req, bcpAnswer := answer, agenda := agenda, reply := reply, draws := draws } lat := by
  obtain ⟨memSizeOk, bufOk, ⟨⟩, done, err, errcode, outLen, result, errinfo⟩ := h
  exact ⟨memSizeOk, bufOk, by constructor <;> assumption, done, err, errcode, outLen, result, errinfo⟩

/-- While a command runs the invariant is `Running` and what its progress asks. -/
theorem Running.inv {s : State} {lat : Latched} (h : Running s lat) (hphase : PhaseOk s) : Inv s where
  memSizeOk := h.memSizeOk
  bufOk := h.bufOk
  errcodeLegal := by simp [h.errcode]
  errinfoLegal := by simp [h.errinfo]
  errHasCode := fun err => absurd (h.err.symm.trans err) (by decide)
  errorNoResult := fun _ => ⟨h.outLen, h.result⟩
  noErrorNoInfo := fun _ => h.errinfo
  phaseOk := hphase

theorem Running.inv_started {s : State} {lat : Latched} (h : Running s lat)
    (hp : s.phase = .busy lat .started) (hreq : s.bcpReq = none) (hans : s.bcpAnswer = none) : Inv s := by
  refine h.inv ?_
  simp only [PhaseOk, hp]
  exact ⟨h.latch, h.done, h.err, h.errcode, h.outLen, h.result, h.errinfo, hreq, hans⟩

theorem Running.inv_cbc {s : State} {lat : Latched} {run : CbcRun} (h : Running s lat)
    (hp : s.phase = .busy lat (.cbc run)) (hrun : CbcRunOk s lat run) : Inv s := by
  refine h.inv ?_
  simp only [PhaseOk, hp]
  exact ⟨h.latch, h.done, h.err, h.errcode, h.outLen, h.result, h.errinfo, hrun⟩

/-! ### Steps that leave the command alone -/

/-- The invariant says nothing of the sticky flags or of the model's own fields. -/
theorem Inv.update {s : State} (h : Inv s) (haz berr : Bool) (agenda : List Event) (reply : Option Word)
    (draws : Nat) :
    Inv { s with haz := haz, berr := berr, agenda := agenda, reply := reply, draws := draws } := by
  have running {lat : Latched} {progress : Progress} (hp : s.phase = .busy lat progress) :=
    (h.running hp).update haz berr s.chain s.chainWritten s.phase s.bcpReq s.bcpAnswer agenda reply draws
  rcases phase_cases s with hp | ⟨lat, hp⟩ | ⟨lat, run, hp⟩
  · obtain ⟨hreq, hans⟩ := h.port_quiet_of_idle hp
    obtain ⟨memSizeOk, bufOk, errcodeLegal, errinfoLegal, errHasCode, errorNoResult, noErrorNoInfo, -⟩ := h
    exact ⟨memSizeOk, bufOk, errcodeLegal, errinfoLegal, errHasCode, errorNoResult, noErrorNoInfo,
      phaseOk_of_idle hp hreq hans⟩
  · obtain ⟨hreq, hans⟩ := h.port_quiet_of_started hp
    exact (running hp).inv_started hp hreq hans
  · obtain ⟨decodes, dstInRange, fits, keyOk, keyLen, chainSet, passed, waiting⟩ := h.cbcRunOk hp
    exact (running hp).inv_cbc hp ⟨decodes, dstInRange, fits, keyOk, keyLen, chainSet, passed, waiting⟩

/-- A store to any register but CMD keeps the invariant of an Idle device. -/
theorem Inv.of_sameEngineState {s t : State} (h : Inv s) (hp : s.phase = .idle)
    (same : SameEngineState s t) : Inv t := by
  obtain ⟨hreq, hans⟩ := h.port_quiet_of_idle hp
  obtain ⟨platform, err, errcode, outLen, result, errinfo, -, -, buf, phase, bcpReq, bcpAnswer⟩ := same
  refine ⟨?_, ?_, ?_, ?_, ?_, ?_, ?_, phaseOk_of_idle (phase.trans hp) (bcpReq.trans hreq)
    (bcpAnswer.trans hans)⟩
  · rw [platform]; exact h.memSizeOk
  · rw [buf, platform]; exact h.bufOk
  · rw [errcode]; exact h.errcodeLegal
  · rw [errinfo]; exact h.errinfoLegal
  · rw [errcode]; exact fun e => h.errHasCode (err e)
  · rw [errcode, outLen, result]; exact h.errorNoResult
  · rw [errcode, errinfo]; exact h.noErrorNoInfo

/-- Bytes written inside BUF keep the invariant of an Idle device. -/
theorem Inv.writeBytes {s : State} (h : Inv s) (hp : s.phase = .idle) {a : Nat} {bs : Bytes}
    (inside : a + bs.length ≤ s.platform.memSize) : Inv { s with buf := s.buf.writeBytes a bs } := by
  obtain ⟨hreq, hans⟩ := h.port_quiet_of_idle hp
  obtain ⟨memSizeOk, ⟨wf, below⟩, errcodeLegal, errinfoLegal, errHasCode, errorNoResult, noErrorNoInfo, -⟩ := h
  exact ⟨memSizeOk, ⟨Memory.writeBytes_wf wf a bs, Memory.writeBytes_below below inside⟩, errcodeLegal,
    errinfoLegal, errHasCode, errorNoResult, noErrorNoInfo, phaseOk_of_idle hp hreq hans⟩

/-! ### The start step -/

theorem DataReg.read_of_written {r : DataReg} (h : r.written = true) (d : Nat) : r.read d = r.value :=
  if_pos h

/-- Byte j of a block of four words is byte j mod 4 of word j div 4 (10_state.md R41). -/
theorem blockOfWords_getElem? (w0 w1 w2 w3 : Word) {j : Nat} (hj : j < 16) :
    (blockOfWords w0 w1 w2 w3).bytes[j]? =
      some (([w0, w1, w2, w3].getD (j / 4) 0).extractLsb' (8 * (j % 4)) 8) := by
  interval_cases j <;> rfl

/-- The word in place r of a block is what register IVr must read. -/
theorem ivHolds_blockOfWords {w0 w1 w2 w3 : Word} {r d : Nat} {reg : DataReg} (hr : r < 4)
    (h : [w0, w1, w2, w3].getD r 0 = reg.read d) : IvHolds (blockOfWords w0 w1 w2 w3) r reg := by
  intro written i hi
  rw [blockOfWords_getElem? _ _ _ _ (by omega), show (4 * r + i) / 4 = r by omega,
    show (4 * r + i) % 4 = i by omega, h, DataReg.read_of_written written]

/-- The latch step takes the registers as they stand (10_state.md R46; 40_host_and_command.md R130). -/
theorem latch_matches (w : Word) (s : State) : LatchMatches (s.start w) (s.latch w) where
  word := rfl
  srcAddr := rfl
  srcLen := rfl
  auxAddr := rfl
  auxLen := rfl
  dstAddr := rfl
  dstCap := rfl
  param := rfl
  iv0 := ivHolds_blockOfWords (by decide) rfl
  iv1 := ivHolds_blockOfWords (by decide) rfl
  iv2 := ivHolds_blockOfWords (by decide) rfl
  iv3 := ivHolds_blockOfWords (by decide) rfl

theorem Inv.start {s : State} (h : Inv s) (hp : s.phase = .idle) (w : Word) : Inv (s.start w) := by
  obtain ⟨hreq, hans⟩ := h.port_quiet_of_idle hp
  have running : Running (s.start w) (s.latch w) :=
    ⟨h.memSizeOk, h.bufOk, latch_matches w s, rfl, rfl, rfl, rfl, rfl, rfl⟩
  exact running.inv_started rfl hreq hans

theorem Inv.csrStore {s : State} (h : Inv s) (hp : s.phase = .idle) (c : Csr) (v : Word) :
    Inv (s.csrStore c v) := by
  by_cases hc : c = .cmd
  · subst hc
    exact h.start hp v
  · exact h.of_sameEngineState hp (csrStore_sameEngineState hc v s)

/-- A host transaction keeps the invariant. -/
theorem Inv.hostStep {s : State} (h : Inv s) (op : HostOp) : Inv (hostStep op s) := by
  rcases hostStep_cases op s with ⟨haz, berr, reply, draws, -, -, he⟩ | ⟨hp, off, v, -, he⟩ |
    ⟨hp, a, bs, inside, he⟩
  · rw [he]
    exact h.update haz berr s.agenda reply draws
  · rw [he]
    have stored := h.csrStore hp (csrAt off) v
    exact stored.update _ _ _ none _
  · rw [he]
    exact (h.writeBytes hp inside).update s.haz s.berr s.agenda none s.draws

/-! ### The completion step -/

/-- The outcome's output, if it has any bytes, fits a destination that lies inside BUF. -/
def OutputFits (s : State) (lat : Latched) (o : CmdOutcome) : Prop :=
  ∀ r, o = .ok r → r.out = [] ∨ (r.out.length ≤ lat.dstCap.toNat ∧ InRange s lat.dstAddr lat.dstCap)

theorem OutcomeFits.outputFits {s : State} {lat : Latched} {o : CmdOutcome} (h : OutcomeFits s lat o) :
    OutputFits s lat o := by
  rintro r rfl
  exact h.2

/-- A write that fits keeps BUF canonical and inside the memory. -/
theorem writeBytes_ok_of_fits {s : State} {lat : Latched} {out : Bytes} (wf : s.buf.wf)
    (below : s.buf.below s.platform.memSize)
    (fits : out = [] ∨ (out.length ≤ lat.dstCap.toNat ∧ InRange s lat.dstAddr lat.dstCap)) :
    (s.buf.writeBytes lat.dstAddr.toNat out).wf ∧
      (s.buf.writeBytes lat.dstAddr.toNat out).below s.platform.memSize := by
  refine ⟨Memory.writeBytes_wf wf _ _, ?_⟩
  rcases fits with rfl | ⟨short, inside⟩
  · exact below
  · unfold InRange at inside
    exact Memory.writeBytes_below below (by omega)

/-- An error's havoc keeps BUF canonical and inside the memory. -/
theorem havoc_buf_ok {s : State} {n : Nat} (wf : s.buf.wf) (below : s.buf.below n)
    (range : Option (Nat × Nat)) : (s.havoc range).buf.wf ∧ (s.havoc range).buf.below n := by
  cases range with
  | none => exact ⟨wf, below⟩
  | some r => exact ⟨Memory.forget_wf wf r.1 r.2, Memory.forget_below below r.1 r.2⟩

/-- The completion of a running command, with the port quiet, ends in the invariant of an Idle device. -/
theorem Running.complete {s : State} {lat : Latched} (h : Running s lat) (hreq : s.bcpReq = none)
    (hans : s.bcpAnswer = none) {o : CmdOutcome} (fits : OutputFits s lat o) : Inv (s.complete lat o) := by
  obtain ⟨wf, below⟩ := h.bufOk
  cases o with
  | ok r =>
    exact {
      memSizeOk := h.memSizeOk
      bufOk := writeBytes_ok_of_fits wf below (fits r rfl)
      errcodeLegal := List.mem_cons_self
      errinfoLegal := Nat.zero_le 4
      errHasCode := fun err => absurd err Bool.false_ne_true
      errorNoResult := fun code => absurd rfl code
      noErrorNoInfo := fun _ => rfl
      phaseOk := phaseOk_of_idle rfl hreq hans }
  | err e range chain =>
    exact {
      memSizeOk := h.memSizeOk
      bufOk := havoc_buf_ok wf below range
      errcodeLegal := e.code.number_legal
      errinfoLegal := e.info.number_le
      errHasCode := fun _ => e.code.number_ne_zero
      errorNoResult := fun _ => ⟨h.outLen, h.result⟩
      noErrorNoInfo := fun code => absurd code e.code.number_ne_zero
      phaseOk := phaseOk_of_idle rfl hreq hans }

/-! ### A CBC pass -/

/-- A CBC pass between two blocks: the loop of 43_cbc.md R255 and R256 has done the first `index` blocks,
whether or not the request for the next one has gone out. -/
structure PassAt (s : State) (lat : Latched) (run : CbcRun) : Prop where
  decodes : decode lat.word = .ok run.instr
  dstInRange : lat.dstAddr.toNat + lat.dstCap.toNat ≤ s.platform.memSize
  fits : 16 * run.blocks.length ≤ lat.dstCap.toNat
  keyOk : blockKeyOk s run.key.length = true
  keyLen : run.key.length = lat.auxLen.toNat
  chainSet : s.chainWritten = true
  passed : cbcPass s.platform.keyLens run.op run.key lat.iv (run.blocks.take run.index) = (run.out, s.chain)

theorem CbcRunOk.passAt {s : State} {lat : Latched} {run : CbcRun} (h : CbcRunOk s lat run) :
    PassAt s lat run :=
  ⟨h.decodes, h.dstInRange, h.fits, h.keyOk, h.keyLen, h.chainSet, h.passed⟩

/-- The output of a pass has 16 bytes for each block done, so it fits the destination. -/
theorem PassAt.out_length_le {s : State} {lat : Latched} {run : CbcRun} (h : PassAt s lat run) :
    run.out.length ≤ lat.dstCap.toNat := by
  have hlen : run.out.length = 16 * (run.blocks.take run.index).length := by
    rw [← cbcPass_length s.platform.keyLens run.op run.key lat.iv, h.passed]
  have := List.length_take_le' run.index run.blocks
  have := h.fits
  omega

/-- What CBC_ENC and CBC_DEC end with fits the destination: un-padding only shortens. -/
theorem PassAt.outputFits {s : State} {lat : Latched} {run : CbcRun} (h : PassAt s lat run)
    (chain : Block) : OutputFits s lat (cbcOutcome lat run chain) := by
  intro r hr
  refine .inr ⟨?_, h.dstInRange⟩
  have hout := h.out_length_le
  cases hop : run.op with
  | enc =>
    simp only [cbcOutcome, hop, CmdOutcome.ok.injEq] at hr
    subst hr
    exact hout
  | dec =>
    cases hu : unpad run.out run.validate 16 .dst with
    | error e => simp [cbcOutcome, hop, hu] at hr
    | ok out =>
      simp only [cbcOutcome, hop, hu, CmdOutcome.ok.injEq] at hr
      subst hr
      exact (unpad_length_le hu).trans hout

/-- From a pass between two blocks the engine issues the next request or completes: both meet the
invariant. -/
theorem PassAt.advance {s : State} {lat : Latched} {run : CbcRun} (h : PassAt s lat run)
    (running : Running s lat) : Inv (cbcAdvance lat run s) := by
  cases hb : run.blocks[run.index]? with
  | some b =>
    rw [cbcAdvance_request hb]
    have waits := running.update s.haz s.berr s.chain s.chainWritten (.busy lat (.cbc run))
      (some ⟨run.op, run.key, cbcInput run.op b s.chain⟩) none s.agenda s.reply s.draws
    obtain ⟨decodes, dstInRange, fits, keyOk, keyLen, chainSet, passed⟩ := h
    exact waits.inv_cbc rfl
      ⟨decodes, dstInRange, fits, keyOk, keyLen, chainSet, passed, b, hb, .inl ⟨rfl, rfl⟩⟩
  | none =>
    rw [cbcAdvance_complete hb]
    have quiet := running.update s.haz s.berr s.chain s.chainWritten s.phase none none s.agenda s.reply
      s.draws
    exact quiet.complete rfl rfl (h.outputFits s.chain)

/-- The port's answer for block b takes the pass one block on. -/
theorem PassAt.next {s : State} {lat : Latched} {run : CbcRun} {b : Block} (h : PassAt s lat run)
    (hb : run.blocks[run.index]? = some b) :
    let y := cbcAnswer s.platform.keyLens run.op run.key b s.chain
    PassAt { s with chain := cbcNext run.op b y } lat
      { run with index := run.index + 1, out := run.out ++ cbcEmit run.op y s.chain } := by
  have hpass := cbcPass_append s.platform.keyLens run.op run.key lat.iv (run.blocks.take run.index) b
  obtain ⟨decodes, dstInRange, fits, keyOk, keyLen, chainSet, passed⟩ := h
  refine ⟨decodes, dstInRange, fits, keyOk, keyLen, chainSet, ?_⟩
  simp only [List.take_add_one, hb, Option.toList_some]
  rw [hpass, passed]

/-- An engine step of a CBC pass: it waits for the answer, or takes it and goes on. -/
theorem Inv.cbcStep {s : State} {lat : Latched} {run : CbcRun} (h : Inv s)
    (hp : s.phase = .busy lat (.cbc run)) : Inv (cbcStep lat run s) := by
  have runOk := h.cbcRunOk hp
  obtain ⟨b, hb, ⟨hreq, -⟩ | ⟨hreq, hans⟩⟩ := runOk.waiting
  · simpa only [Machine.cbcStep, hreq] using h
  · simp only [Machine.cbcStep, hreq, hans]
    rw [cbcTake_eq hb]
    exact (runOk.passAt.next hb).advance
      ((h.running hp).update s.haz s.berr _ s.chainWritten s.phase s.bcpReq s.bcpAnswer s.agenda s.reply
        s.draws)

/-! ### The first engine step of a command -/

theorem toBlocks_length (b : Bytes) : (toBlocks b).length = b.length / 16 := by
  simp [toBlocks]

theorem cbcPadded_length (p : Bytes) : (cbcPadded p).length = p.length + cbcPadLen p.length := by
  simp [cbcPadded]

/-- The pass over no block leaves no output and the IV as the chaining value. -/
theorem cbcPass_nil (lens : KeyLens) (op : BcpOp) (key : Bytes) (iv : Block) :
    cbcPass lens op key iv [] = ([], iv) := by
  cases op <;> rfl

/-- What the pre-checks of a CBC command leave when they pass: a run of that command that has done no
block, with a destination in range that has room for every block and a key the primitive accepts. -/
theorem cbcPreOf_ok {i : Instr} {s : State} {lat : Latched} {run : CbcRun}
    (hi : i = .cbcEnc ∨ ∃ v, i = .cbcDec v) (h : cbcPreOf i s lat = .ok run) :
    run.instr = i ∧ run.index = 0 ∧ run.out = [] ∧ run.key = auxBytes s lat ∧
      InRange s lat.dstAddr lat.dstCap ∧ blockKeyOk s lat.auxLen.toNat = true ∧
      16 * run.blocks.length ≤ lat.dstCap.toNat := by
  rcases hi with rfl | ⟨v, rfl⟩
  · obtain ⟨rfl, inside, keyOk, room⟩ := cbcEncPre_ok h
    have blocks : 16 * (toBlocks (cbcPadded (srcBytes s lat))).length ≤ lat.dstCap.toNat := by
      rw [toBlocks_length, cbcPadded_length, srcBytes_length]
      omega
    exact ⟨rfl, rfl, rfl, rfl, inside, keyOk, blocks⟩
  · obtain ⟨rfl, inside, keyOk, -, room⟩ := cbcDecPre_ok h
    have blocks : 16 * (toBlocks (srcBytes s lat)).length ≤ lat.dstCap.toNat := by
      rw [toBlocks_length, srcBytes_length]
      omega
    exact ⟨rfl, rfl, rfl, rfl, inside, keyOk, blocks⟩

/-- A CBC command that has passed its pre-checks begins its pass before block 0 (43_cbc.md R253). -/
theorem passAt_begin {i : Instr} {s : State} {lat : Latched} {run : CbcRun}
    (hi : i = .cbcEnc ∨ ∃ v, i = .cbcDec v) (hd : decode lat.word = .ok i)
    (h : cbcPreOf i s lat = .ok run) (draws : Nat) :
    PassAt { s with chain := lat.iv, chainWritten := true, draws := draws } lat run := by
  obtain ⟨instr, index, out, key, inside, keyOk, blocks⟩ := cbcPreOf_ok hi h
  have keyLen : run.key.length = lat.auxLen.toNat := by rw [key, auxBytes_length]
  refine ⟨instr ▸ hd, inside, blocks, ?_, keyLen, rfl, ?_⟩
  · rw [keyLen]
    exact keyOk
  · rw [index, List.take_zero, cbcPass_nil, out]

/-- The engine step that decodes and runs a command just started. -/
theorem Inv.exec {s t : State} {lat : Latched} {i : Instr} (h : Inv s)
    (hp : s.phase = .busy lat .started) (hd : decode lat.word = .ok i) (he : exec i s = .next t) :
    Inv t := by
  obtain ⟨hreq, hans⟩ := h.port_quiet_of_started hp
  rcases exec_cases i s with ⟨idle, -⟩ | ⟨lat', progress, busy, hcase⟩
  · exact nomatch hp.symm.trans idle
  · obtain ⟨rfl, -⟩ : lat = lat' ∧ .started = progress := by simpa using hp.symm.trans busy
    rcases hcase with ⟨u, o, fits, hx⟩ | ⟨run, hi, hpre, hx⟩
    · cases hx.symm.trans he
      have drawn : Running (s.drawOperands u lat) lat :=
        (h.running hp).update s.haz s.berr s.chain s.chainWritten s.phase s.bcpReq s.bcpAnswer s.agenda
          s.reply _
      exact drawn.complete hreq hans fits.outputFits
    · cases hx.symm.trans he
      exact (passAt_begin hi hd hpre _).advance
        ((h.running hp).update s.haz s.berr lat.iv true s.phase s.bcpReq s.bcpAnswer s.agenda s.reply _)

/-! ### Every agent -/

theorem Inv.engineStep {s t : State} (h : Inv s) (he : engineStep s = .next t) : Inv t := by
  rcases engineStep_cases s with ⟨hp, hx⟩ | ⟨lat, e, hp, hd, hx⟩ | ⟨lat, i, hp, hd, hx⟩ |
    ⟨lat, run, hp, hx⟩
  · cases hx.symm.trans he
    exact h
  · cases hx.symm.trans he
    obtain ⟨hreq, hans⟩ := h.port_quiet_of_started hp
    exact (h.running hp).complete hreq hans nofun
  · exact h.exec hp hd (hx.symm.trans he)
  · cases hx.symm.trans he
    exact h.cbcStep hp

/-- The port's move: a request in flight belongs to a CBC pass, which then has its answer. -/
theorem Inv.bcpStep {s : State} (h : Inv s) : Inv (bcpStep s) := by
  cases hreq : s.bcpReq with
  | none => simpa only [Machine.bcpStep, hreq] using h
  | some r =>
    simp only [Machine.bcpStep, hreq]
    rcases phase_cases s with hp | ⟨lat, hp⟩ | ⟨lat, run, hp⟩
    · exact nomatch hreq.symm.trans (h.port_quiet_of_idle hp).1
    · exact nomatch hreq.symm.trans (h.port_quiet_of_started hp).1
    · have answered := (h.running hp).update s.haz s.berr s.chain s.chainWritten s.phase none
        (some (bcpFunction s.platform.keyLens r)) s.agenda s.reply s.draws
      obtain ⟨decodes, dstInRange, fits, keyOk, keyLen, chainSet, passed, b, hb, hwait⟩ := h.cbcRunOk hp
      obtain ⟨rfl, -⟩ : r = ⟨run.op, run.key, cbcInput run.op b s.chain⟩ ∧ s.bcpAnswer = none := by
        simpa [hreq] using hwait
      exact answered.inv_cbc hp
        ⟨decodes, dstInRange, fits, keyOk, keyLen, chainSet, passed, b, hb, .inr ⟨rfl, rfl⟩⟩

theorem Inv.agentStep {s t : State} (h : Inv s) {e : Event} (he : agentStep e s = .next t) : Inv t := by
  cases e with
  | host op =>
    cases he
    exact h.hostStep op
  | engine => exact h.engineStep he
  | bcp =>
    cases he
    exact h.bcpStep
  | reset =>
    cases he
    exact applyReset_inv h.memSizeOk

/-- Settles O53, agent by agent: the moves still to come are no part of the invariant. -/
theorem everyStepKeepsTheInvariant : Obligations.EveryStepKeepsTheInvariant := by
  intro s t h hs
  rcases step_cases s with ⟨-, he⟩ | ⟨e, rest, -, he⟩
  · exact h.engineStep (he.symm.trans hs)
  · exact (h.update s.haz s.berr rest s.reply s.draws).agentStep (he.symm.trans hs)

end Sys2Proof.Machine
end

section
/-! The rules of every step that no single command states: which moves change the phase, clear a sticky
flag or write CHAIN (10_state.md R22, R30, R31, R42). Each is said of the agents one by one first. -/

namespace Sys2Proof.Machine

/-- A step is the move of one agent: the engine's, also when no move is listed, or the head of the
agenda. -/
theorem step_moves {s t : State} (h : step s = .next t) :
    (∃ agenda, (s.agenda = [] ∨ ∃ rest, s.agenda = .engine :: rest) ∧
      engineStep { s with agenda := agenda } = .next t) ∨
    (∃ op rest, s.agenda = .host op :: rest ∧ t = hostStep op { s with agenda := rest }) ∨
    (∃ rest, s.agenda = .bcp :: rest ∧ t = bcpStep { s with agenda := rest }) ∨
    (∃ rest, s.agenda = .reset :: rest ∧ t = State.applyReset { s with agenda := rest }) := by
  rcases step_cases s with ⟨hag, he⟩ | ⟨e, rest, hag, he⟩
  · exact .inl ⟨s.agenda, .inl hag, he.symm.trans h⟩
  · have hmove := he.symm.trans h
    cases e with
    | engine => exact .inl ⟨rest, .inr ⟨rest, hag⟩, hmove⟩
    | host op =>
      cases hmove
      exact .inr (.inl ⟨op, rest, hag, rfl⟩)
    | bcp =>
      cases hmove
      exact .inr (.inr (.inl ⟨rest, hag, rfl⟩))
    | reset =>
      cases hmove
      exact .inr (.inr (.inr ⟨rest, hag, rfl⟩))

/-! ### The port's move -/

/-- The port's move writes only the request and the answer. -/
theorem bcpStep_eq (s : State) : ∃ req answer, bcpStep s = { s with bcpReq := req, bcpAnswer := answer } := by
  unfold bcpStep
  split
  · exact ⟨s.bcpReq, s.bcpAnswer, rfl⟩
  · exact ⟨_, _, rfl⟩

theorem bcpStep_busy (s : State) : (bcpStep s).busy = s.busy := by
  obtain ⟨req, answer, he⟩ := bcpStep_eq s
  rw [he]
  rfl

/-! ### The host's moves -/

/-- A host transaction leaves Busy or Idle as it is, unless it is the CMD write of an Idle device. -/
theorem hostStep_busy (op : HostOp) (s : State) :
    (hostStep op s).busy = s.busy ∨ (s.busy = false ∧ ∃ v, op = .csrWrite 0x0C .four v) := by
  rcases hostStep_cases op s with ⟨haz, berr, reply, draws, -, -, he⟩ | ⟨hp, off, v, hop, he⟩ |
    ⟨-, a, bs, -, he⟩
  · exact .inl (by rw [he]; rfl)
  · by_cases hc : csrAt off = .cmd
    · have hoff : off = 0x0C := off_of_csrAt hc rfl
      exact .inr ⟨busy_eq_false_iff.mpr hp, v, hoff ▸ hop⟩
    · have same := (csrStore_sameEngineState hc v s).phase
      exact .inl (by rw [he, State.busy, State.busy, same])
  · exact .inl (by rw [he]; rfl)

/-- The host clears a sticky flag only by a write of 1 to its bit of STATUS while Idle. -/
theorem hostStep_clears_haz {op : HostOp} {s : State} (h : s.haz = true) (h' : (hostStep op s).haz = false) :
    s.phase = .idle ∧ ∃ v, op = .csrWrite 0x08 .four v ∧ v.getLsbD 3 = true := by
  rcases hostStep_cases op s with ⟨haz, berr, reply, draws, raised, -, he⟩ | ⟨hp, off, v, hop, he⟩ |
    ⟨-, a, bs, -, he⟩
  · rw [he] at h'
    exact nomatch (raised h).symm.trans h'
  · rw [he] at h'
    obtain ⟨hc, hbit⟩ := csrStore_clears_haz h h'
    have hoff : off = 0x08 := off_of_csrAt hc rfl
    exact ⟨hp, v, hoff ▸ hop, hbit⟩
  · rw [he] at h'
    exact nomatch h.symm.trans h'

theorem hostStep_clears_berr {op : HostOp} {s : State} (h : s.berr = true)
    (h' : (hostStep op s).berr = false) :
    s.phase = .idle ∧ ∃ v, op = .csrWrite 0x08 .four v ∧ v.getLsbD 4 = true := by
  rcases hostStep_cases op s with ⟨haz, berr, reply, draws, -, raised, he⟩ | ⟨hp, off, v, hop, he⟩ |
    ⟨-, a, bs, -, he⟩
  · rw [he] at h'
    exact nomatch (raised h).symm.trans h'
  · rw [he] at h'
    obtain ⟨hc, hbit⟩ := csrStore_clears_berr h h'
    have hoff : off = 0x08 := off_of_csrAt hc rfl
    exact ⟨hp, v, hoff ▸ hop, hbit⟩
  · rw [he] at h'
    exact nomatch h.symm.trans h'

/-- `t` has CHAIN as `s` has it: its value and whether it has been written. -/
def SameChain (s t : State) : Prop := t.chain = s.chain ∧ t.chainWritten = s.chainWritten

/-- The host writes no CHAIN register: they are read-only (10_state.md R42). -/
theorem hostStep_sameChain (op : HostOp) (s : State) : SameChain s (hostStep op s) := by
  rcases hostStep_cases op s with ⟨haz, berr, reply, draws, -, -, he⟩ | ⟨-, off, v, -, he⟩ |
    ⟨-, a, bs, -, he⟩ <;> rw [he]
  · exact ⟨rfl, rfl⟩
  · exact ⟨csrStore_chain _ _ _, csrStore_chainWritten _ _ _⟩
  · exact ⟨rfl, rfl⟩

/-! ### The engine's move -/

/-- A completion whose outcome sets no chaining value leaves CHAIN. -/
theorem complete_sameChain {s : State} {lat : Latched} {o : CmdOutcome} (h : OutcomeFits s lat o)
    (t : State) : SameChain t (t.complete lat o) := by
  cases o with
  | ok r =>
    obtain ⟨hc, -⟩ := h
    simp [SameChain, State.complete, hc]
  | err e range chain =>
    obtain ⟨-, rfl⟩ := h
    simp [SameChain, State.complete]

/-- A CBC run is one of CBC_ENC or of CBC_DEC. -/
theorem CbcRun.instr_cases (run : CbcRun) : run.instr = .cbcEnc ∨ ∃ v, run.instr = .cbcDec v := by
  cases hop : run.op with
  | enc => exact .inl (by simp only [CbcRun.instr, hop])
  | dec => exact .inr ⟨run.validate, by simp only [CbcRun.instr, hop]⟩

/-- The engine leaves CHAIN, unless the command it runs is CBC_ENC or CBC_DEC. -/
theorem engineStep_sameChain {s t : State} (h : Inv s) (he : engineStep s = .next t) :
    SameChain s t ∨ ∃ lat progress, s.phase = .busy lat progress ∧
      (decode lat.word = .ok .cbcEnc ∨ ∃ v, decode lat.word = .ok (.cbcDec v)) := by
  rcases engineStep_cases s with ⟨-, hx⟩ | ⟨lat, e, -, -, hx⟩ | ⟨lat, i, hp, hd, hx⟩ | ⟨lat, run, hp, -⟩
  · cases hx.symm.trans he
    exact .inl ⟨rfl, rfl⟩
  · cases hx.symm.trans he
    have fits : OutcomeFits s lat (.err ⟨.illegalCommand, .command⟩ none none) := ⟨rfl, rfl⟩
    exact .inl (complete_sameChain fits s)
  · rcases exec_cases i s with ⟨idle, -⟩ | ⟨lat', progress, -, ⟨u, o, fits, hr⟩ | ⟨run, hi, -, -⟩⟩
    · exact nomatch hp.symm.trans idle
    · cases (hx.trans hr).symm.trans he
      exact .inl (complete_sameChain fits (s.drawOperands u lat'))
    · exact .inr ⟨lat, .started, hp, by simpa [hd] using hi⟩
  · exact .inr ⟨lat, .cbc run, hp, by simpa [(h.cbcRunOk hp).decodes] using run.instr_cases⟩

/-! ### The rules of every step -/

/-- STATUS bit by bit (10_state.md R26). -/
theorem statusWord_getLsbD (s : State) (i : Nat) :
    s.statusWord.getLsbD i =
      if i < 8 then [s.busy, s.done, s.err, s.haz, s.berr].getD i false else s.errcode.getLsbD (i - 8) := by
  have fields : s.statusWord.getLsbD i =
      (0#16 ++ s.errcode ++ 0#3 ++ BitVec.ofBool s.berr ++ BitVec.ofBool s.haz ++ BitVec.ofBool s.err
        ++ BitVec.ofBool s.done ++ BitVec.ofBool s.busy).getLsbD i := rfl
  rw [fields]
  simp only [BitVec.getLsbD_append, BitVec.getLsbD_ofBool, BitVec.getLsbD_zero]
  by_cases low : i < 8
  · interval_cases i <;> simp
  · simp (disch := omega) only [Nat.sub_sub, if_neg]
    split
    · rfl
    · exact (BitVec.getLsbD_of_ge _ _ (by omega)).symm

/-- Only a CMD write leaves Idle (40_host_and_command.md R129). -/
theorem cmdWrite_of_step_to_busy {s t : State} (h : step s = .next t) (hs : s.busy = false)
    (ht : t.busy = true) : ∃ w rest, s.agenda = .host (.csrWrite 0x0C .four w) :: rest := by
  rcases step_moves h with ⟨agenda, -, he⟩ | ⟨op, rest, hag, rfl⟩ | ⟨rest, -, rfl⟩ | ⟨rest, -, rfl⟩
  · rcases (engineStep_frame he).2 with ⟨-, rfl⟩ | ⟨hb, -⟩
    · exact nomatch ht.symm.trans hs
    · exact nomatch hb.symm.trans hs
  · rcases hostStep_busy op { s with agenda := rest } with same | ⟨-, v, rfl⟩
    · exact nomatch ht.symm.trans (same.trans hs)
    · exact ⟨v, rest, hag⟩
  · exact nomatch ht.symm.trans ((bcpStep_busy _).trans hs)
  · exact nomatch ht

/-- Only a completion, which sets DONE and is an engine move, or a reset leaves Busy
(40_host_and_command.md R132; 70_reset_and_hazards.md R330). -/
theorem completion_or_reset_of_step_to_idle {s t : State} (h : step s = .next t) (hs : s.busy = true)
    (ht : t.busy = false) :
    t.done = true ∧ (s.agenda = [] ∨ ∃ rest, s.agenda = .engine :: rest) ∨
      ∃ rest, s.agenda = .reset :: rest := by
  rcases step_moves h with ⟨agenda, hag, he⟩ | ⟨op, rest, -, rfl⟩ | ⟨rest, -, rfl⟩ | ⟨rest, hag, -⟩
  · rcases (engineStep_frame he).2 with ⟨-, rfl⟩ | ⟨-, hb | ⟨hdone, -⟩⟩
    · exact nomatch hs.symm.trans ht
    · exact nomatch hb.symm.trans ht
    · exact .inl ⟨hdone, hag⟩
  · rcases hostStep_busy op { s with agenda := rest } with same | ⟨idle, -⟩
    · exact nomatch hs.symm.trans (same.symm.trans ht)
    · exact nomatch hs.symm.trans idle
  · have idle : s.busy = false := (bcpStep_busy { s with agenda := rest }).symm.trans ht
    exact nomatch hs.symm.trans idle
  · exact .inr ⟨rest, hag⟩

/-- Settles O54; STATUS.BUSY is the phase itself. -/
theorem onlyTheseEventsChangeThePhase : Obligations.OnlyTheseEventsChangeThePhase := by
  intro s t h
  have bit : (s.csrValue .status).getLsbD 0 = s.busy := statusWord_getLsbD s 0
  exact ⟨cmdWrite_of_step_to_busy h, completion_or_reset_of_step_to_idle h, by rw [bit, busy_eq_true_iff]⟩

/-- Settles O56, agent by agent: the engine and the port leave both flags, and the host clears one only
by its bit of STATUS. -/
theorem hazAndBerrAreSticky : Obligations.HazAndBerrAreSticky := by
  intro s t h
  rcases step_moves h with ⟨agenda, -, he⟩ | ⟨op, rest, hag, rfl⟩ | ⟨rest, -, rfl⟩ | ⟨rest, hag, -⟩
  · have same := (engineStep_frame he).1
    exact ⟨fun hs ht => (nomatch (same.haz.trans hs).symm.trans ht),
      fun hs ht => (nomatch (same.berr.trans hs).symm.trans ht)⟩
  · refine ⟨fun hs ht => .inl ?_, fun hs ht => .inl ?_⟩
    · obtain ⟨hp, v, rfl, hbit⟩ := hostStep_clears_haz (s := { s with agenda := rest }) hs ht
      exact ⟨v, rest, busy_eq_false_iff.mpr hp, hbit, hag⟩
    · obtain ⟨hp, v, rfl, hbit⟩ := hostStep_clears_berr (s := { s with agenda := rest }) hs ht
      exact ⟨v, rest, busy_eq_false_iff.mpr hp, hbit, hag⟩
  · obtain ⟨req, answer, hb⟩ := bcpStep_eq { s with agenda := rest }
    rw [hb]
    exact ⟨fun hs ht => (nomatch hs.symm.trans ht),
      fun hs ht => (nomatch hs.symm.trans ht)⟩
  · exact ⟨fun _ _ => .inr ⟨rest, hag⟩, fun _ _ => .inr ⟨rest, hag⟩⟩

/-- Settles O58, agent by agent: neither the host nor the port writes CHAIN, and the engine only in a CBC
command. -/
theorem onlyCbcCommandsWriteChain : Obligations.OnlyCbcCommandsWriteChain := by
  intro s t hinv h changed
  have unless_same : ¬SameChain s t := fun ⟨hc, hw⟩ => changed.elim (· hc) (· hw)
  rcases step_moves h with ⟨agenda, -, he⟩ | ⟨op, rest, -, rfl⟩ | ⟨rest, -, rfl⟩ | ⟨rest, hag, -⟩
  · have hinv' := hinv.update s.haz s.berr agenda s.reply s.draws
    exact .inr ((engineStep_sameChain hinv' he).resolve_left unless_same)
  · exact absurd (hostStep_sameChain op { s with agenda := rest }) unless_same
  · obtain ⟨req, answer, hb⟩ := bcpStep_eq { s with agenda := rest }
    rw [hb] at unless_same
    exact absurd ⟨rfl, rfl⟩ unless_same
  · exact .inl ⟨rest, hag⟩

end Sys2Proof.Machine
end

section
/-! The registers one by one (10_state.md R23 to R50): what each reads as, what a write to it does, and how
IV and CHAIN pack their 16 bytes. -/

namespace Sys2Proof.Machine

/-! ### The bits of STATUS and CTRL -/

theorem statusWord_reserved_low (s : State) : s.statusWord.extractLsb' 5 3 = 0 := by
  ext i hi
  have bit := statusWord_getLsbD s (5 + i)
  rw [if_pos (by omega)] at bit
  rw [BitVec.getElem_extractLsb', bit]
  interval_cases i <;> simp

theorem statusWord_errcode (s : State) : s.statusWord.extractLsb' 8 8 = s.errcode := by
  ext i hi
  have bit := statusWord_getLsbD s (8 + i)
  rw [if_neg (by omega), Nat.add_sub_cancel_left] at bit
  rw [BitVec.getElem_extractLsb', bit, BitVec.getLsbD_eq_getElem hi]

theorem statusWord_reserved_high (s : State) : s.statusWord.extractLsb' 16 16 = 0 := by
  ext i hi
  have bit := statusWord_getLsbD s (16 + i)
  rw [if_neg (by omega), BitVec.getLsbD_of_ge s.errcode _ (by omega)] at bit
  rw [BitVec.getElem_extractLsb', bit]
  simp

theorem ctrlWord_getLsbD_zero (s : State) : s.ctrlWord.getLsbD 0 = s.ie := by
  cases h : s.ie <;> simp [State.ctrlWord, h]

/-- CTRL after IE has been set from bit 0 of v: the bits above read 0 (10_state.md R25). -/
theorem ctrlWord_of_ie {s : State} {v : Word} (h : s.ie = v.getLsbD 0) : s.ctrlWord = v &&& 1 := by
  rw [State.ctrlWord, h]
  refine Eq.trans ?_ BitVec.and_one_eq_setWidth_ofBool_getLsbD.symm
  cases v.getLsbD 0 <;> rfl

/-- Settles O11: STATUS is read from `statusWord` bit by bit, and a write is `clearStatus`. -/
theorem statusReadsItsFieldsAndClearsOnOnes : Obligations.StatusReadsItsFieldsAndClearsOnOnes := by
  intro s
  have bits := statusWord_getLsbD s
  exact ⟨⟨bits 0, bits 1, bits 2, bits 3, bits 4, statusWord_reserved_low s, statusWord_errcode s,
    statusWord_reserved_high s⟩, fun hp w => csrWrite_idle rfl hp w, rfl⟩

/-- Settles O12: the write stores bit 0 in IE, from which CTRL and irq are read. -/
theorem ctrlHoldsOnlyTheInterruptEnable : Obligations.CtrlHoldsOnlyTheInterruptEnable := by
  intro s v hp
  have write : s.csrWrite 0x04 .four v = { s with ie := v.getLsbD 0, reply := none } :=
    csrWrite_idle rfl hp v
  refine ⟨write, ?_, ?_, rfl⟩
  · rw [write, csrRead_ok rfl]
    exact congrArg some (ctrlWord_of_ie rfl)
  · rw [write]
    rfl

/-- Settles O13: ID has no cell behind it, so a read is the constant and a store does nothing. -/
theorem idIsConstant : Obligations.IdIsConstant := by
  intro s v
  refine ⟨?_, fun hp => csrWrite_idle rfl hp v⟩
  rw [csrRead_ok rfl]
  rfl

/-- Settles O25: each of the four writes reaches IE or DONE through its store. -/
theorem irqIsEnabledDone : Obligations.IrqIsEnabledDone := by
  intro s
  have ie : (s.csrValue .ctrl).getLsbD 0 = s.ie := ctrlWord_getLsbD_zero s
  have done : (s.csrValue .status).getLsbD 1 = s.done := statusWord_getLsbD s 1
  refine ⟨by rw [ie, done, State.irq], fun hp => ⟨fun hdone => ?_, ?_, ?_, fun w => ?_⟩⟩
  · rw [csrWrite_idle rfl hp]
    exact hdone
  · rw [csrWrite_idle rfl hp]
    rfl
  · rw [csrWrite_idle rfl hp]
    simp [State.irq, State.csrStore, csrAt]
  · rw [csrWrite_idle rfl hp]
    exact Bool.and_false s.ie

/-! ### Storage, read-only and reserved registers -/

/-- The registers that hold what the host writes (10_state.md R34 to R37, R41). -/
def storageCsrs : List Csr :=
  [.srcAddr, .srcLen, .auxAddr, .auxLen, .dstAddr, .dstCap, .param, .iv0, .iv1, .iv2, .iv3]

/-- The slots that ignore a host write (10_state.md R23, R43). -/
def ignoringCsrs : List Csr :=
  [.id, .outLen, .result, .errinfo, .chain0, .chain1, .chain2, .chain3, .reserved]

theorem csrValue_csrStore {c : Csr} (hc : c ∈ storageCsrs) (v : Word) (s : State) :
    ({ s.csrStore c v with reply := none } : State).csrValue c = v := by
  simp only [storageCsrs, List.mem_cons, List.not_mem_nil, or_false] at hc
  rcases hc with rfl | rfl | rfl | rfl | rfl | rfl | rfl | rfl | rfl | rfl | rfl <;> rfl

theorem csrStore_ignored {c : Csr} (hc : c ∈ ignoringCsrs) (v : Word) (s : State) : s.csrStore c v = s := by
  simp only [ignoringCsrs, List.mem_cons, List.not_mem_nil, or_false] at hc
  rcases hc with rfl | rfl | rfl | rfl | rfl | rfl | rfl | rfl | rfl <;> rfl

theorem csrWrite_ignored {off : Nat} {w : Width} (hok : csrAccessOk off w = true)
    (hc : csrAt off ∈ ignoringCsrs) {s : State} (hp : s.phase = .idle) (v : Word) :
    s.csrWrite off w v = { s with reply := none } := by
  rw [csrWrite_idle hok hp, csrStore_ignored hc]

theorem csrRead_reply {off : Nat} {w : Width} (hok : csrAccessOk off w = true) (s : State) :
    (s.csrRead off w).reply = some (s.csrValue (csrAt off)) := by
  rw [csrRead_ok hok]

/-- Settles O14: each of the eleven offsets is a well-formed access to a storage register. -/
theorem operandRegistersReadBackAsWritten : Obligations.OperandRegistersReadBackAsWritten := by
  intro s v hp
  have write {off : Nat} (hok : csrAccessOk off .four = true) := csrWrite_idle hok hp v
  refine ⟨fun off hoff => ?_, write rfl, write rfl, write rfl, write rfl, write rfl, write rfl, write rfl,
    write rfl, write rfl, write rfl, write rfl⟩
  have map : ∀ off ∈ [0x10, 0x14, 0x18, 0x1C, 0x20, 0x24, 0x28, 0x40, 0x44, 0x48, 0x4C],
      csrAccessOk off .four = true ∧ csrAt off ∈ storageCsrs := by decide
  obtain ⟨hok, hstorage⟩ := map off hoff
  rw [csrRead_reply hok, write hok, csrValue_csrStore hstorage]

/-- Settles O17: a reserved slot has no cell behind it, and a Busy write is locked out as any other. -/
theorem reservedOffsetsReadZeroIgnoreWrites : Obligations.ReservedOffsetsReadZeroIgnoreWrites := by
  intro s off v hoff
  have hok : csrAccessOk off .four = true := csrAccessOk_iff.mpr ⟨rfl, by omega, by omega⟩
  have hc : csrAt off = .reserved := by
    rcases hoff with rfl | rfl | ⟨high, -, -⟩
    · rfl
    · rfl
    · exact csrAt_of_high high
  refine ⟨?_, by rw [csrRead_ok hok], fun hp => csrWrite_ignored hok ?_ hp v,
    fun hb => csrWrite_busy hok hb v⟩
  · rw [csrRead_reply hok, hc]
    rfl
  · rw [hc]
    decide

/-- Settles O19: reads come from `csrValue`, and the read-only registers ignore a store. -/
theorem registersReadAndReadOnlyOnesIgnoreWrites :
    Obligations.RegistersReadAndReadOnlyOnesIgnoreWrites := by
  intro s v
  have ivReply {off : Nat} {reg : DataReg} (hok : csrAccessOk off .four = true)
      (hreg : s.csrValue (csrAt off) = reg.read s.draws) (written : reg.written = true) :
      (s.csrRead off .four).reply = some reg.value := by
    rw [csrRead_reply hok, hreg, DataReg.read_of_written written]
  refine ⟨csrRead_reply rfl s, csrRead_reply rfl s, csrRead_reply rfl s, ?_, ivReply rfl rfl, ivReply rfl rfl,
    ivReply rfl rfl, ivReply rfl rfl, fun hp off hoff => ?_⟩
  · rw [BitVec.ofNat_toNat]
    exact csrRead_reply rfl s
  · have map : ∀ off ∈ [0x00, 0x2C, 0x30, 0x34, 0x50, 0x54, 0x58, 0x5C],
        csrAccessOk off .four = true ∧ csrAt off ∈ ignoringCsrs := by decide
    obtain ⟨hok, hignoring⟩ := map off hoff
    exact csrWrite_ignored hok hignoring hp v

/-! ### IV and CHAIN -/

/-- A CMD write while Idle latches the registers (40_host_and_command.md R129, R130). -/
theorem cmdWrite_phase {s : State} (hp : s.phase = .idle) (w : Word) :
    (s.csrWrite 0x0C .four w).phase = .busy (s.latch w) .started := by
  rw [csrWrite_idle rfl hp]
  rfl

/-- Settles O15: the four writes leave the words in IV0 to IV3, and the latch packs them. -/
theorem latchedIvPacksRegistersLittleEndian : Obligations.LatchedIvPacksRegistersLittleEndian := by
  intro s w0 w1 w2 w3 word hp t
  have stored : t =
      { s with iv0 := ⟨w0, true⟩, iv1 := ⟨w1, true⟩, iv2 := ⟨w2, true⟩, iv3 := ⟨w3, true⟩, reply := none } := by
    simp [t, csrWrite_idle, csrAccessOk, csrAt, State.csrStore, hp]
  have idle : t.phase = .idle := by rw [stored, hp]
  have packed : (t.latch word).iv = blockOfWords w0 w1 w2 w3 := by
    rw [stored]
    rfl
  refine ⟨t.latch word, cmdWrite_phase idle word, fun j hj => ?_⟩
  rw [packed, blockOfWords_getElem? w0 w1 w2 w3 hj]

/-- Byte i of a word made of bytes, little-endian (20_memory.md R65). -/
theorem bytesWord_extractLsb' (b : Bytes) {i : Nat} (hi : i < 4) :
    (bytesWord b).extractLsb' (8 * i) 8 = b.getD i 0 := by
  have fields (k : Nat) : (bytesWord b).getLsbD k =
      (b.getD 3 0 ++ b.getD 2 0 ++ b.getD 1 0 ++ b.getD 0 0).getLsbD k := rfl
  ext j hj
  rw [BitVec.getElem_extractLsb', fields, ← BitVec.getLsbD_eq_getElem]
  simp only [BitVec.getLsbD_append]
  interval_cases i <;> simp (disch := omega) only [if_pos, if_neg] <;> congr 1 <;> omega

/-- Byte i of register CHAINr is byte 4r + i of the block (10_state.md R42). -/
theorem blockWord_extractLsb' (b : Block) {r i : Nat} (hr : r < 4) (hi : i < 4) :
    b.bytes[4 * r + i]? = some ((blockWord b r).extractLsb' (8 * i) 8) := by
  have inside : 4 * r + i < b.bytes.length := by
    rw [b.size_eq]
    omega
  rw [blockWord, bytesWord_extractLsb' _ hi]
  simp [List.getD_eq_getElem?_getD, List.getElem?_eq_getElem inside]

theorem csrValue_chain (s : State) {r : Nat} (hr : r < 4) :
    s.csrValue (csrAt (0x50 + 4 * r)) = s.chainWord r := by
  interval_cases r <;> rfl

/-- Settles O16: a CHAIN read is `chainWord`, by the phase and by whether CHAIN has been written. -/
theorem chainReadsPackedOrArbitrary : Obligations.ChainReadsPackedOrArbitrary := by
  intro s r hr
  have reply : (s.csrRead (0x50 + 4 * r) .four).reply = some (s.chainWord r) := by
    rw [csrRead_reply (csrAccessOk_iff.mpr ⟨rfl, by omega, by omega⟩), csrValue_chain s hr]
  refine ⟨fun free => ?_, fun hp written => ⟨blockWord s.chain r, ?_, fun i hi =>
    blockWord_extractLsb' s.chain hr hi⟩⟩
  · rw [reply, State.chainWord, if_pos (by simpa using free)]
  · rw [reply, State.chainWord, if_neg (by simp [busy_eq_false_iff.mpr hp, written])]

/-! ### The state after reset -/

/-- Settles O9: every register of the list is a field of `State.reset`, and the unspecified ones are not
written. -/
theorem resetStateIsAsListed : Obligations.ResetStateIsAsListed := by
  refine ⟨rfl, rfl, rfl, rfl, ?_, ?_, fun _ => rfl, rfl, rfl, rfl⟩
  · decide
  · intro c hc d
    simp only [List.mem_cons, List.not_mem_nil, or_false] at hc
    rcases hc with rfl | rfl | rfl | rfl | rfl | rfl | rfl | rfl <;> rfl

end Sys2Proof.Machine
end

section
/-! The rules of BUF and of the accesses to it (20_memory.md R61 to R70; 40_host_and_command.md R126 to
R128): malformed accesses, the little-endian packing of well-formed ones, the lockout while Busy, and what
the engine reads and writes there. -/

namespace Sys2Proof.Machine

/-! ### Malformed accesses -/

/-- A width is the number of its bytes. -/
theorem eq_widthBytes {w : Width} {n : Nat}
    (h : w = .one ∧ n = 1 ∨ w = .two ∧ n = 2 ∨ w = .four ∧ n = 4) : n = widthBytes w := by
  rcases h with ⟨rfl, rfl⟩ | ⟨rfl, rfl⟩ | ⟨rfl, rfl⟩ <;> rfl

theorem widthBytes_le_four (w : Width) : widthBytes w ≤ 4 := by cases w <;> decide

theorem bufAccessOk_iff {memSize off : Nat} {w : Width} :
    bufAccessOk memSize off w = true ↔ off % widthBytes w = 0 ∧ off + widthBytes w ≤ memSize := by
  simp [bufAccessOk]

theorem csrWrite_malformed {off : Nat} {w : Width} (h : ¬csrAccessOk off w = true) (v : Word) (s : State) :
    s.csrWrite off w v = { s with berr := true, reply := none } :=
  if_neg h

theorem csrRead_malformed {off : Nat} {w : Width} (h : ¬csrAccessOk off w = true) (s : State) :
    s.csrRead off w = { s with berr := true, reply := some 0 } :=
  if_neg h

theorem bufWrite_malformed {s : State} {off : Nat} {w : Width}
    (h : ¬bufAccessOk s.platform.memSize off w = true) (v : Word) :
    s.bufWrite off w v = { s with berr := true, reply := none } :=
  if_neg h

theorem bufRead_malformed {s : State} {off : Nat} {w : Width}
    (h : ¬bufAccessOk s.platform.memSize off w = true) :
    s.bufRead off w = { s with berr := true, reply := some 0 } :=
  if_neg h

/-- Settles O20: the three conditions are those of `csrAccessOk`, which both accesses test first. -/
theorem malformedCsrAccessSetsBerrOnly : Obligations.MalformedCsrAccessSetsBerrOnly := by
  intro s off w v malformed
  rw [← csrAccessOk_iff] at malformed
  exact ⟨csrWrite_malformed malformed v s, csrRead_malformed malformed s⟩

/-- Settles O21: a misaligned access and one past the end both fail `bufAccessOk`, which both accesses test
first. -/
theorem malformedBufAccessSetsBerrOnly : Obligations.MalformedBufAccessSetsBerrOnly := by
  intro s off n w v width malformed
  obtain rfl := eq_widthBytes width
  have rejected : ¬bufAccessOk s.platform.memSize off w = true := by
    rw [bufAccessOk_iff]
    omega
  exact ⟨bufWrite_malformed rejected v, bufRead_malformed rejected⟩

/-! ### Words as bytes -/

/-- A word is its four bytes. -/
theorem word_eq_of_bytes {x y : Word}
    (h : ∀ i < 4, x.extractLsb' (8 * i) 8 = y.extractLsb' (8 * i) 8) : x = y := by
  ext k hk
  have bit := congrArg (·.getLsbD (k % 8)) (h (k / 8) (by omega))
  simpa [BitVec.getLsbD_extractLsb', Nat.div_add_mod, Nat.mod_lt, hk] using bit

theorem wordBytes_getElem? (v : Word) {i : Nat} (hi : i < 4) :
    (wordBytes v)[i]? = some (v.extractLsb' (8 * i) 8) := by
  interval_cases i <;> rfl

theorem wordBytes_take_getElem? (v : Word) {i n : Nat} (hi : i < n) (hn : n ≤ 4) :
    ((wordBytes v).take n)[i]? = some (v.extractLsb' (8 * i) 8) := by
  rw [List.getElem?_take_of_lt hi, wordBytes_getElem? v (by omega)]

theorem wordBytes_take_length (v : Word) {n : Nat} (hn : n ≤ 4) : ((wordBytes v).take n).length = n :=
  List.length_take_of_le hn

theorem ofNat_mod_getLsbD (v : Word) {k : Nat} (m : Nat) (hk : k < 32) :
    (BitVec.ofNat 32 (v.toNat % 2 ^ m)).getLsbD k = (decide (k < m) && v.getLsbD k) := by
  rw [BitVec.getLsbD_ofNat, Nat.testBit_mod_two_pow, BitVec.testBit_toNat, decide_eq_true hk, Bool.true_and]

/-- The n low bytes of a word make, zero-extended, the word modulo 2^(8n) (20_memory.md R65). -/
theorem bytesWord_take_wordBytes (v : Word) {n : Nat} (hn : n ≤ 4) :
    bytesWord ((wordBytes v).take n) = BitVec.ofNat 32 (v.toNat % 2 ^ (8 * n)) := by
  refine word_eq_of_bytes fun i hi => ?_
  rw [bytesWord_extractLsb' _ hi, List.getD_eq_getElem?_getD]
  ext j hj
  rw [BitVec.getElem_extractLsb', ofNat_mod_getLsbD v _ (by omega)]
  by_cases low : i < n
  · rw [wordBytes_take_getElem? v low hn]
    simp [show 8 * i + j < 8 * n by omega]
  · rw [List.getElem?_eq_none (by rw [wordBytes_take_length v hn]; omega)]
    simp [show ¬8 * i + j < 8 * n by omega]

/-- Few enough bytes are the low bytes of the word they make. -/
theorem take_wordBytes_bytesWord {bs : Bytes} (h : bs.length ≤ 4) :
    (wordBytes (bytesWord bs)).take bs.length = bs := by
  refine List.ext_getElem? fun i => ?_
  by_cases hi : i < bs.length
  · rw [wordBytes_take_getElem? _ hi h, bytesWord_extractLsb' bs (by omega)]
    simp [hi]
  · rw [List.getElem?_eq_none (by rw [wordBytes_take_length _ h]; omega),
      List.getElem?_eq_none (by omega)]

/-- A word made of n bytes is zero-extended (20_memory.md R65). -/
theorem bytesWord_toNat_lt {bs : Bytes} (h : bs.length ≤ 4) :
    (bytesWord bs).toNat < 2 ^ (8 * bs.length) := by
  have packed := bytesWord_take_wordBytes (bytesWord bs) h
  rw [take_wordBytes_bytesWord h] at packed
  rw [packed, BitVec.toNat_ofNat]
  exact (Nat.mod_le _ _).trans_lt (Nat.mod_lt _ (Nat.two_pow_pos _))

/-- One byte of a word, zero-extended, as a number. -/
theorem bytesWord_singleton_extractLsb' (v : Word) (i : Nat) :
    bytesWord [v.extractLsb' (8 * i) 8] = BitVec.ofNat 32 (v.toNat / 2 ^ (8 * i) % 256) := by
  have low := bytesWord_take_wordBytes (v >>> (8 * i)) (n := 1) (by decide)
  have shifted : (v >>> (8 * i)).extractLsb' 0 8 = v.extractLsb' (8 * i) 8 := by
    ext j hj
    simp
  rw [BitVec.toNat_ushiftRight, Nat.shiftRight_eq_div_pow] at low
  rw [← shifted]
  exact low

/-! ### Well-formed accesses while Idle -/

theorem bufWrite_idle {s : State} {off : Nat} {w : Width} (hp : s.phase = .idle)
    (hok : bufAccessOk s.platform.memSize off w = true) (v : Word) :
    s.bufWrite off w v =
      { s with buf := s.buf.writeBytes off ((wordBytes v).take (widthBytes w)), reply := none } := by
  simp [State.bufWrite, hok, busy_eq_false_iff.mpr hp]

theorem bufRead_idle {s : State} {off : Nat} {w : Width} (hp : s.phase = .idle)
    (hok : bufAccessOk s.platform.memSize off w = true) :
    s.bufRead off w =
      { s with
        reply := some (bytesWord (s.buf.readBytes s.draws off (widthBytes w)))
        draws := s.draws + widthBytes w } := by
  simp [State.bufRead, hok, busy_eq_false_iff.mpr hp]

/-- A well-formed read of bytes that have all been written returns them. -/
theorem bufRead_reply_of_written {s : State} {off : Nat} {w : Width} {bs : Bytes} (hp : s.phase = .idle)
    (hok : bufAccessOk s.platform.memSize off w = true) (hlen : bs.length = widthBytes w)
    (written : ∀ i, i < bs.length → s.buf.byte? (off + i) = bs[i]?) :
    (s.bufRead off w).reply = some (bytesWord bs) := by
  rw [bufRead_idle hp hok, ← hlen, Memory.readBytes_of_written _ _ _ written]

/-- Byte i of the word of a BUF read: the byte that stands there, or the free byte drawn for it. -/
theorem bytesWord_readBytes_extractLsb' (m : Memory) (d a : Nat) {n i : Nat} (hi : i < n) (hn : n ≤ 4) :
    (bytesWord (m.readBytes d a n)).extractLsb' (8 * i) 8 =
      (m.byte? (a + i)).getD (Config.freeByte (d + i)) := by
  rw [bytesWord_extractLsb' _ (by omega), List.getD_eq_getElem?_getD, Memory.readBytes_getElem? _ _ _ _ hi,
    Option.getD_some]

/-- Settles O22: the write stores `wordBytes v` cut to the width, the read packs what stands there with
`bytesWord`. -/
theorem bufAccessesAreLittleEndian : Obligations.BufAccessesAreLittleEndian := by
  intro s off n w v hp width aligned inside t
  obtain rfl := eq_widthBytes width
  have hn := widthBytes_le_four w
  have hok := bufAccessOk_iff.mpr ⟨aligned, inside⟩
  have write : t = { s with
      buf := s.buf.writeBytes off ((wordBytes v).take (widthBytes w)), reply := none } :=
    bufWrite_idle hp hok v
  have hlen := wordBytes_take_length v hn
  obtain ⟨stored, kept⟩ := stored_writeBytes s.buf off ((wordBytes v).take (widthBytes w))
  have byte : ∀ i, i < widthBytes w →
      t.buf.byte? (off + i) = some (v.extractLsb' (8 * i) 8) := fun i hi => by
    rw [write, stored i (by omega), wordBytes_take_getElem? v hi hn]
  have idle : t.phase = .idle := by rw [write, hp]
  have size : t.platform.memSize = s.platform.memSize := by rw [write]
  refine ⟨⟨t.buf, by rw [write], byte, ?_⟩, ?_, fun four i hi => ?_, ?_⟩
  · rw [write]
    simpa only [hlen] using kept
  · rw [← bytesWord_take_wordBytes v hn]
    refine bufRead_reply_of_written idle (size ▸ hok) hlen ?_
    rw [write]
    exact stored
  · rw [← bytesWord_singleton_extractLsb' v i]
    have single : bufAccessOk t.platform.memSize (off + i) .one = true :=
      bufAccessOk_iff.mpr ⟨Nat.mod_one _, by rw [size, widthBytes]; omega⟩
    refine bufRead_reply_of_written idle single rfl fun j hj => ?_
    obtain rfl : j = 0 := by simpa using hj
    exact byte i (by omega)
  · refine ⟨_, _, bufRead_idle hp hok, ?_, fun i hi => ?_⟩
    · simpa using bytesWord_toNat_lt (bs := s.buf.readBytes s.draws off (widthBytes w)) (by simpa using hn)
    · rw [bytesWord_readBytes_extractLsb' _ _ _ hi hn]
      exact ⟨fun b hb => by rw [hb, Option.getD_some], fun hb => by rw [hb, Option.getD_none]⟩

/-! ### The host while Busy -/

/-- While Busy a host transaction only raises flags, answers and draws. -/
theorem hostStep_of_busy (op : HostOp) {s : State} (hb : s.busy = true) :
    ∃ haz berr reply draws, (s.haz = true → haz = true) ∧ (s.berr = true → berr = true) ∧
      hostStep op s = { s with haz := haz, berr := berr, reply := reply, draws := draws } := by
  have notIdle : s.phase ≠ .idle := fun hp => nomatch (busy_eq_false_iff.mpr hp).symm.trans hb
  rcases hostStep_cases op s with raised | ⟨hp, -⟩ | ⟨hp, -⟩
  · exact raised
  · exact absurd hp notIdle
  · exact absurd hp notIdle

/-- Settles O55: the step is the transaction, after its move has been taken off the agenda. -/
theorem hostCannotDisturbARunningCommand : Obligations.HostCannotDisturbARunningCommand := by
  intro s op rest hb hag
  obtain ⟨haz, berr, reply, draws, hazKept, berrKept, he⟩ :=
    hostStep_of_busy op (s := { s with agenda := rest }) hb
  refine ⟨haz, berr, reply, draws, ?_, hazKept, berrKept⟩
  simp only [step, hag, agentStep, he]

/-! ### What the engine reads and writes -/

/-- Settles O60: both operands are read by `Memory.readBytes`, which draws only for unwritten bytes. -/
theorem writtenOperandBytesReadAsWritten : Obligations.WrittenOperandBytesReadAsWritten := by
  intro s lat bs
  refine ⟨fun hlen written => ?_, fun hlen written => ?_⟩
  · rw [srcBytes, ← hlen, Memory.readBytes_of_written _ _ _ written]
  · rw [auxBytes, ← hlen, Memory.readBytes_of_written _ _ _ written]

/-- `t` has every BUF byte outside the latched destination range as `s` has it (20_memory.md R61). -/
def SameOutsideDst (lat : Latched) (s t : State) : Prop :=
  ∀ a, a < lat.dstAddr.toNat ∨ lat.dstAddr.toNat + lat.dstCap.toNat ≤ a → t.buf.byte? a = s.buf.byte? a

theorem SameOutsideDst.of_buf_eq {lat : Latched} {s t : State} (h : t.buf = s.buf) : SameOutsideDst lat s t :=
  fun a _ => congrArg (·.byte? a) h

/-- What an outcome does to BUF, its output or its havoc, lies in the destination range. -/
def WithinDst (lat : Latched) (o : CmdOutcome) : Prop :=
  match o with
  | .ok r => r.out.length ≤ lat.dstCap.toNat
  | .err _ none _ => True
  | .err _ (some (a, n)) _ => a = lat.dstAddr.toNat ∧ n ≤ lat.dstCap.toNat

theorem OutcomeFits.withinDst {s : State} {lat : Latched} {o : CmdOutcome} (h : OutcomeFits s lat o) :
    WithinDst lat o := by
  cases o with
  | ok r =>
    rcases h.2 with empty | ⟨short, -⟩
    · simp [WithinDst, empty]
    · exact short
  | err e range chain =>
    obtain ⟨rfl, -⟩ := h
    trivial

/-- A CBC pass ends within the destination: what is left of its output, or the havoc of the whole of it
(43_cbc.md R257, R258). -/
theorem PassAt.withinDst {s : State} {lat : Latched} {run : CbcRun} (h : PassAt s lat run) (chain : Block) :
    WithinDst lat (cbcOutcome lat run chain) := by
  have room := h.out_length_le
  cases hop : run.op with
  | enc => simpa only [cbcOutcome, hop, WithinDst] using room
  | dec =>
    cases hu : unpad run.out run.validate 16 .dst with
    | ok out => simpa only [cbcOutcome, hop, hu, WithinDst] using (unpad_length_le hu).trans room
    | error e => simpa only [cbcOutcome, hop, hu, WithinDst, true_and] using room

theorem complete_sameOutsideDst {lat : Latched} {o : CmdOutcome} (h : WithinDst lat o) (s : State) :
    SameOutsideDst lat s (s.complete lat o) := by
  intro a outside
  cases o with
  | ok r =>
    have short : r.out.length ≤ lat.dstCap.toNat := h
    exact Memory.byte?_writeBytes_outside s.buf (by omega)
  | err e range chain =>
    cases range with
    | none => rfl
    | some range =>
      obtain ⟨start, short⟩ : range.1 = lat.dstAddr.toNat ∧ range.2 ≤ lat.dstCap.toNat := h
      exact Memory.byte?_forget_outside s.buf (by omega)

/-- From a pass between two blocks the engine writes BUF only by completing. -/
theorem PassAt.advance_sameOutsideDst {s : State} {lat : Latched} {run : CbcRun} (h : PassAt s lat run) :
    SameOutsideDst lat s (cbcAdvance lat run s) := by
  cases hb : run.blocks[run.index]? with
  | some b => exact .of_buf_eq (by rw [cbcAdvance_request hb])
  | none =>
    rw [cbcAdvance_complete hb]
    exact complete_sameOutsideDst (h.withinDst s.chain) { s with bcpReq := none, bcpAnswer := none }

theorem cbcStep_sameOutsideDst {s : State} {lat : Latched} {run : CbcRun} (h : CbcRunOk s lat run) :
    SameOutsideDst lat s (cbcStep lat run s) := by
  obtain ⟨b, hb, ⟨hreq, -⟩ | ⟨hreq, hans⟩⟩ := h.waiting
  · exact .of_buf_eq (by simp only [cbcStep, hreq])
  · simp only [cbcStep, hreq, hans]
    rw [cbcTake_eq hb]
    exact (h.passAt.next hb).advance_sameOutsideDst

theorem exec_sameOutsideDst {s t : State} {lat : Latched} {i : Instr} (hp : s.phase = .busy lat .started)
    (hd : decode lat.word = .ok i) (he : exec i s = .next t) : SameOutsideDst lat s t := by
  rcases exec_cases i s with ⟨idle, -⟩ | ⟨lat', progress, busy, hcase⟩
  · exact nomatch hp.symm.trans idle
  · obtain ⟨rfl, -⟩ : lat = lat' ∧ .started = progress := by simpa using hp.symm.trans busy
    rcases hcase with ⟨u, o, fits, hx⟩ | ⟨run, hi, hpre, hx⟩
    · cases hx.symm.trans he
      exact complete_sameOutsideDst fits.withinDst (s.drawOperands u lat)
    · cases hx.symm.trans he
      exact (passAt_begin hi hd hpre _).advance_sameOutsideDst

/-- An engine step of a running command writes BUF only in the command's destination. -/
theorem engineStep_sameOutsideDst {s t : State} {lat : Latched} {progress : Progress} (h : Inv s)
    (hp : s.phase = .busy lat progress) (he : engineStep s = .next t) : SameOutsideDst lat s t := by
  rcases engineStep_cases s with ⟨idle, -⟩ | ⟨lat', e, hq, -, hx⟩ | ⟨lat', i, hq, hd, hx⟩ |
    ⟨lat', run, hq, hx⟩
  · exact nomatch hp.symm.trans idle
  all_goals obtain ⟨rfl, rfl⟩ : lat = lat' ∧ progress = _ := by simpa using hp.symm.trans hq
  · cases hx.symm.trans he
    exact .of_buf_eq rfl
  · exact exec_sameOutsideDst hq hd (hx.symm.trans he)
  · cases hx.symm.trans he
    exact cbcStep_sameOutsideDst (h.cbcRunOk hq)

/-- Settles O57: BUF by the range of each outcome, the host's registers and flags by the engine's frame. -/
theorem engineWritesOnlyTheDestination : Obligations.EngineWritesOnlyTheDestination := by
  intro s t lat pr hinv hp he
  obtain ⟨iv0, iv1, iv2, iv3, ie, cmd, srcAddr, srcLen, auxAddr, auxLen, dstAddr, dstCap, param, haz, berr⟩ :=
    (engineStep_frame he).1
  exact ⟨engineStep_sameOutsideDst hinv hp he, iv0, iv1, iv2, iv3, ie, cmd, srcAddr, srcLen, auxAddr, auxLen,
    dstAddr, dstCap, param, haz, berr⟩

end Sys2Proof.Machine
end

section
/-! The command word (30_encoding.md R90 to R97): a word and its fields determine each other, and the decoder
accepts the fields of the 13 commands and no others. -/

namespace Sys2Proof

/-! ### A word and its fields -/

theorem ofBool_getLsbD_eq_extractLsb' (w : Word) (k : Nat) :
    BitVec.ofBool (w.getLsbD k) = w.extractLsb' k 1 := by
  ext j hj
  obtain rfl : j = 0 := by omega
  simp

/-- The fields cover the word: neighbouring slices join, from bit 31 down. -/
theorem CmdWord.toWord_ofWord (w : Word) : (CmdWord.ofWord w).toWord = w := by
  have joined : w.extractLsb' 13 19 ++ w.extractLsb' 12 1 ++ w.extractLsb' 10 2 ++ w.extractLsb' 8 2 ++
      w.extractLsb' 0 8 = w.extractLsb' 0 32 := by
    simp (disch := decide) only [BitVec.extractLsb'_append_extractLsb'_eq_extractLsb']
  simp only [CmdWord.toWord, CmdWord.ofWord, ofBool_getLsbD_eq_extractLsb']
  exact joined.trans BitVec.extractLsb'_eq_self

theorem CmdWord.extractLsb'_toWord (c : CmdWord) (start len : Nat) :
    c.toWord.extractLsb' start len =
      BitVec.extractLsb' start len (c.high ++ BitVec.ofBool c.v ++ c.low ++ c.enc ++ c.op) := rfl

open BitVec in
/-- No two fields share a bit: each slice of the joined word is one field. -/
theorem CmdWord.ofWord_toWord (c : CmdWord) : CmdWord.ofWord c.toWord = c := by
  have op : c.toWord.extractLsb' 0 8 = c.op := by
    rw [extractLsb'_toWord, extractLsb'_append_eq_right]
  have enc : c.toWord.extractLsb' 8 2 = c.enc := by
    rw [extractLsb'_toWord, extractLsb'_append_eq_of_le (by decide)]
    exact extractLsb'_append_eq_right
  have low : c.toWord.extractLsb' 10 2 = c.low := by
    rw [extractLsb'_toWord, extractLsb'_append_eq_of_le (by decide), extractLsb'_append_eq_of_le (by decide)]
    exact extractLsb'_append_eq_right
  have v : BitVec.ofBool (c.toWord.getLsbD 12) = BitVec.ofBool c.v := by
    rw [ofBool_getLsbD_eq_extractLsb', extractLsb'_toWord, extractLsb'_append_eq_of_le (by decide),
      extractLsb'_append_eq_of_le (by decide), extractLsb'_append_eq_of_le (by decide)]
    exact extractLsb'_append_eq_right
  have high : c.toWord.extractLsb' 13 19 = c.high := by
    rw [extractLsb'_toWord, extractLsb'_append_eq_of_le (by decide), extractLsb'_append_eq_of_le (by decide),
      extractLsb'_append_eq_of_le (by decide), extractLsb'_append_eq_of_le (by decide)]
    exact extractLsb'_eq_self
  rw [CmdWord.ofWord, op, enc, low, BitVec.ofBool_eq_iff_eq.mp v, high]

theorem CmdWord.ofWord_eq_iff {w : Word} {c : CmdWord} : CmdWord.ofWord w = c ↔ w = c.toWord :=
  ⟨fun h => h ▸ (CmdWord.toWord_ofWord w).symm, fun h => h ▸ CmdWord.ofWord_toWord c⟩

/-! ### The decoder on the fields -/

theorem Enc.ofBits_eq_some_iff {e : Enc} : ∀ {b : BitVec 2}, Enc.ofBits b = some e ↔ b = e.bits := by
  cases e <;> decide

theorem fields_of_decodePlain {c : CmdWord} {i j : Instr} (h : decodePlain j c = .ok i)
    (row : j.fields = ⟨c.op, 0, c.low, false, c.high⟩) : c = i.fields := by
  simp only [decodePlain] at h
  split_ifs at h with three enc v
  obtain rfl := Except.ok.inj h
  rw [row, ← not_not.mp enc, ← Bool.eq_false_iff.mpr v]

theorem fields_of_decodeV {c : CmdWord} {i : Instr} {j : Bool → Instr} (h : decodeV j c = .ok i)
    (row : (j c.v).fields = ⟨c.op, 0, c.low, c.v, c.high⟩) : c = i.fields := by
  simp only [decodeV] at h
  split_ifs at h with three enc
  obtain rfl := Except.ok.inj h
  rw [row, ← not_not.mp enc]

theorem fields_of_decodeXor {c : CmdWord} {i : Instr} {j : Enc → Instr} (h : decodeXor j c = .ok i)
    (row : ∀ e, (j e).fields = ⟨c.op, e.bits, c.low, false, c.high⟩) : c = i.fields := by
  cases enc : Enc.ofBits c.enc with
  | none => simp [decodeXor, enc] at h
  | some e =>
    simp only [decodeXor, enc] at h
    split_ifs at h with v
    obtain rfl := Except.ok.inj h
    rw [row, ← Enc.ofBits_eq_some_iff.mp enc, ← Bool.eq_false_iff.mpr v]

theorem decodeFields_fields (i : Instr) : decodeFields i.fields = .ok i := by
  cases i with
  | xorFixed e => cases e <;> rfl
  | xorRepeat e => cases e <;> rfl
  | hamming e => cases e <;> rfl
  | _ => rfl

/-- The decoder row by row: what it accepts in a row is what that row's command writes. -/
theorem fields_of_decodeFields {c : CmdWord} {i : Instr} (h : decodeFields c = .ok i) : c = i.fields := by
  obtain ⟨op, enc, low, v, high⟩ := c
  simp only [decodeFields, ite_eq_iff, reduceCtorEq, and_false, false_or, or_false, not_or, not_not] at h
  obtain ⟨⟨rfl, rfl⟩, h⟩ := h
  rcases h with ⟨rfl, h⟩ | ⟨-, ⟨rfl, h⟩ | ⟨-, ⟨rfl, h⟩ | ⟨-, ⟨rfl, h⟩ | ⟨-, ⟨rfl, h⟩ | ⟨-, ⟨rfl, h⟩ |
    ⟨-, ⟨rfl, h⟩ | ⟨-, ⟨rfl, h⟩ | ⟨-, ⟨rfl, h⟩ | ⟨-, ⟨rfl, h⟩ | ⟨-, ⟨rfl, h⟩ | ⟨-, ⟨rfl, h⟩ |
    ⟨-, rfl, h⟩⟩⟩⟩⟩⟩⟩⟩⟩⟩⟩⟩
  exacts [fields_of_decodePlain h rfl, fields_of_decodePlain h rfl, fields_of_decodePlain h rfl,
    fields_of_decodePlain h rfl, fields_of_decodePlain h rfl, fields_of_decodePlain h rfl,
    fields_of_decodePlain h rfl, fields_of_decodeV h rfl, fields_of_decodeXor h fun _ => rfl,
    fields_of_decodeXor h fun _ => rfl, fields_of_decodeXor h fun _ => rfl, fields_of_decodePlain h rfl,
    fields_of_decodeV h rfl]

theorem decodeFields_eq_ok_iff {c : CmdWord} {i : Instr} : decodeFields c = .ok i ↔ c = i.fields :=
  ⟨fields_of_decodeFields, fun h => h ▸ decodeFields_fields i⟩

theorem decode_eq_ok_iff {w : Word} {i : Instr} : decode w = .ok i ↔ w = encode i := by
  rw [decode, decodeFields_eq_ok_iff, CmdWord.ofWord_eq_iff, encode]

/-- Settles O1: the decoder accepts a word's fields exactly for the command that has them, and a word and
its fields determine each other. -/
theorem wordDecodesToExactlyItsInstruction : Obligations.WordDecodesToExactlyItsInstruction :=
  fun _ _ => decode_eq_ok_iff

/-- Settles O3: each of the nine words is its command's word. -/
theorem listedCommandWordsDecode : Obligations.ListedCommandWordsDecode := by
  have word {w : Word} {i : Instr} (h : w = encode i) : decode w = .ok i := decode_eq_ok_iff.mpr h
  exact ⟨word rfl, word rfl, word rfl, word rfl, word rfl, word rfl, word rfl, word rfl, word rfl⟩

/-! ### Which words are legal -/

/-- What a command writes is legal (30_encoding.md R91 to R95). -/
theorem encode_wellFormed (i : Instr) : (CmdWord.ofWord (encode i)).wellFormed = true :=
  match i with
  | .hexEnc => Laws.EncodedWordIsLegal.hexEnc
  | .hexDec => Laws.EncodedWordIsLegal.hexDec
  | .b64Enc => Laws.EncodedWordIsLegal.b64Enc
  | .b64Dec => Laws.EncodedWordIsLegal.b64Dec
  | .hexToB64 => Laws.EncodedWordIsLegal.hexToB64
  | .b64ToHex => Laws.EncodedWordIsLegal.b64ToHex
  | .pad => Laws.EncodedWordIsLegal.pad
  | .unpad v => Laws.EncodedWordIsLegal.unpad v
  | .xorFixed e => Laws.EncodedWordIsLegal.xorFixed e
  | .xorRepeat e => Laws.EncodedWordIsLegal.xorRepeat e
  | .hamming e => Laws.EncodedWordIsLegal.hamming e
  | .cbcEnc => Laws.EncodedWordIsLegal.cbcEnc
  | .cbcDec v => Laws.EncodedWordIsLegal.cbcDec v

/-- In each row of the opcode map the decoder takes every ENC and V that the row allows. -/
theorem decodeFields_isOk_of_row :
    ∀ op ∈ [0x01#8, 0x02, 0x03, 0x04, 0x05, 0x06, 0x07, 0x08, 0x10, 0x11, 0x12, 0x20, 0x21],
      ∀ enc v, CmdWord.wellFormed ⟨op, enc, 0, v, 0⟩ = true →
        (decodeFields ⟨op, enc, 0, v, 0⟩).isOk = true := by
  decide

theorem exists_eq_ok_of_isOk {ε α : Type} {x : Except ε α} (h : x.isOk = true) : ∃ a, x = .ok a := by
  cases x with
  | ok a => exact ⟨a, rfl⟩
  | error e => exact nomatch h

theorem decodeFields_of_wellFormed {c : CmdWord} (h : c.wellFormed = true) : ∃ i, decodeFields c = .ok i := by
  obtain ⟨op, enc, low, v, high⟩ := c
  have legal := h
  simp only [CmdWord.wellFormed, CmdWord.opKnown, Bool.and_eq_true, beq_iff_eq, List.contains_iff_mem] at h
  obtain ⟨⟨⟨⟨rfl, rfl⟩, known⟩, -⟩, -⟩ := h
  exact exists_eq_ok_of_isOk (decodeFields_isOk_of_row op known enc v legal)

theorem decode_isOk_iff_wellFormed {w : Word} :
    (∃ i, decode w = .ok i) ↔ (CmdWord.ofWord w).wellFormed = true := by
  refine ⟨fun ⟨i, h⟩ => ?_, decodeFields_of_wellFormed⟩
  rw [decode_eq_ok_iff.mp h]
  exact encode_wellFormed i

theorem toNat_mem_map_iff {n : Nat} {x : BitVec n} {l : List (BitVec n)} :
    x.toNat ∈ l.map BitVec.toNat ↔ x ∈ l :=
  List.mem_map_of_injective fun _ _ => BitVec.eq_of_toNat_eq

theorem encLegal_iff : ∀ (enc : BitVec 2) (isXor : Bool),
    (enc == 0 || (isXor && enc != 3)) = true ↔ enc.toNat ≠ 3 ∧ (enc.toNat ≠ 0 → isXor = true) := by
  decide

/-- Settles O2: decode accepts the well-formed words, whose conditions are those of the statement on the
fields as bit vectors. -/
theorem decodeAcceptsExactlyTheLegalWords : Obligations.DecodeAcceptsExactlyTheLegalWords := by
  intro w op enc
  have known : (CmdWord.ofWord w).opKnown = true ↔
      op ∈ [0x01, 0x02, 0x03, 0x04, 0x05, 0x06, 0x07, 0x08, 0x10, 0x11, 0x12, 0x20, 0x21] :=
    List.contains_iff_mem.trans toNat_mem_map_iff.symm
  have isXor : (CmdWord.ofWord w).isXor = true ↔ op ∈ [0x10, 0x11, 0x12] :=
    List.contains_iff_mem.trans toNat_mem_map_iff.symm
  have hasV : (CmdWord.ofWord w).hasV = true ↔ op ∈ [0x08, 0x21] :=
    List.contains_iff_mem.trans toNat_mem_map_iff.symm
  have v : (!(CmdWord.ofWord w).v || (CmdWord.ofWord w).hasV) = true ↔
      (w.getLsbD 12 = true → (CmdWord.ofWord w).hasV = true) := by
    rw [Bool.or_eq_true, Bool.not_eq_true', ← Bool.not_eq_true, imp_iff_not_or]
    rfl
  rw [decode_isOk_iff_wellFormed]
  simp only [CmdWord.wellFormed, Bool.and_eq_true, beq_iff_eq, and_assoc, encLegal_iff, known, isXor, v, hasV]
  rfl

end Sys2Proof
end

section
/-! What an illegal word does (30_encoding.md R98). -/

namespace Sys2Proof.Machine

/-- No command has OP 0x00 (30_encoding.md R95). -/
theorem opcode_ne_zero (i : Instr) : i.opcode ≠ 0 := by
  cases i <;> simp [Instr.opcode]

theorem decode_of_opZero {w : Word} (op : w.extractLsb' 0 8 = 0) (i : Instr) : decode w ≠ .ok i := by
  intro h
  have fields : CmdWord.ofWord w = i.fields := CmdWord.ofWord_eq_iff.mpr (decode_eq_ok_iff.mp h)
  exact opcode_ne_zero i ((congrArg CmdWord.op fields).symm.trans op)

theorem illegalCommand_eq (s : State) (lat : Latched) :
    s.illegalCommand lat =
      { s with err := true, errcode := 0x10, errinfo := 0, done := true, phase := .idle } := by
  simp [State.illegalCommand, State.complete, State.havoc, State.setChain, State.errorEntry, ErrCode.number,
    Operand.number]

theorem engineStep_of_illegal {s : State} {lat : Latched} (hp : s.phase = .busy lat .started)
    (illegal : ∀ i, decode lat.word ≠ .ok i) :
    engineStep s = .next
      { s with err := true, errcode := 0x10, errinfo := 0, done := true, phase := .idle } := by
  cases hd : decode lat.word with
  | ok i => exact absurd hd (illegal i)
  | error e =>
    rw [← illegalCommand_eq s lat]
    simp only [engineStep, hp, hd]

/-- A CMD write while Idle is the start step (40_host_and_command.md R129). -/
theorem step_cmdWrite {s : State} {w : Word} {rest : List Event} (hp : s.phase = .idle)
    (hag : s.agenda = .host (.csrWrite 0x0C .four w) :: rest) :
    step s = .next { ({ s with agenda := rest } : State).start w with reply := none } := by
  have write := csrWrite_idle (off := 0x0C) (w := .four) rfl (s := { s with agenda := rest }) hp w
  simp only [step, hag, agentStep, hostStep, write]
  rfl

theorem step_of_engine_next {s : State} {rest : List Event} (hag : s.agenda = .engine :: rest) :
    step s = engineStep { s with agenda := rest } := by
  simp only [step, hag, agentStep]

/-- Settles O5: the CMD write is the start step, the engine's step on what it latched is the error entry
alone, and no command has OP 0. -/
theorem illegalWordCompletesWithIllegalCommand : Obligations.IllegalWordCompletesWithIllegalCommand := by
  refine ⟨fun s lat hp hag illegal => ?_, fun s w rest hp illegal hag => ?_, fun w => decode_of_opZero⟩
  · rw [← engineStep_of_illegal hp illegal]
    simp only [step, hag]
  · have run := run_two 0 (step_cmdWrite hp hag)
      ((step_of_engine_next rfl).trans (engineStep_of_illegal rfl illegal))
    refine ⟨s.draws + 4, ?_⟩
    rw [hp]
    exact run

end Sys2Proof.Machine
end

section
/-! A command ignores the operand registers its row of the opcode map does not list (30_encoding.md R95,
R96). The step of a one-step command is a function of the operands its row lists (`exec_usedOperands`). A
CBC pass carries its latched values along, so two runs whose latched PARAMs differ go on side by side. -/

namespace Sys2Proof.Machine

/-! ### One-step commands -/

/-- The commands that run to their outcome in one engine step (40_host_and_command.md R135). -/
def OneStep (i : Instr) : Prop := i ≠ .cbcEnc ∧ ∀ v, i ≠ .cbcDec v

theorem oneStep_or_cbc (i : Instr) : OneStep i ∨ i = .cbcEnc ∨ ∃ v, i = .cbcDec v := by
  by_cases enc : i = .cbcEnc
  · exact .inr (.inl enc)
  · by_cases dec : ∃ v, i = .cbcDec v
    · exact .inr (.inr dec)
    · exact .inl ⟨enc, not_exists.mp dec⟩

/-- The latched values that a row of the opcode map lists, every other one at a fixed value. Of the
one-step commands only PAD lists PARAM, and none lists the IV (30_encoding.md R95). -/
def Latched.usedOperands (i : Instr) (lat : Latched) : Latched where
  word := 0
  srcAddr := lat.srcAddr
  srcLen := lat.srcLen
  auxAddr := if usesAux i then lat.auxAddr else 0
  auxLen := if usesAux i then lat.auxLen else 0
  dstAddr := if usesDst i then lat.dstAddr else 0
  dstCap := if usesDst i then lat.dstCap else 0
  param := if i = .pad then lat.param else 0
  iv := Block.zero

theorem outcomeOf_eq_ok_iff {x : Res CmdOk} {r : CmdOk} : outcomeOf x = .ok r ↔ x = .ok r := by
  cases x <;> simp [outcomeOf]

/-- HAMMING's outcome has no output (42_xor.md R226). -/
theorem hammingF_out {enc : Enc} {s : State} {lat : Latched} {r : CmdOk} (h : hammingF enc s lat = .ok r) :
    r.out = [] := by
  rw [hammingF, outcomeOf_eq_ok_iff] at h
  simp only [res_bind_eq_ok, res_pure, Except.ok.injEq] at h
  obtain ⟨_, _, _, _, _, _, _, _, _, _, rfl⟩ := h
  rfl

/-- A completion looks at the latched values only for the place of the output. -/
theorem complete_of_no_output {o : CmdOutcome} (h : ∀ r, o = .ok r → r.out = []) (lat lat' : Latched)
    (s : State) : s.complete lat o = s.complete lat' o := by
  cases o with
  | ok r => simp only [State.complete, State.succeed, h r rfl, Memory.writeBytes_nil]
  | err e range chain => rfl

/-- No command function names a latched value that its row does not list, so both sides unfold to the same
step. HAMMING's step alone names one, the place for its output, of which there is none. -/
theorem exec_usedOperands {i : Instr} (h : OneStep i) (s : State) (lat : Latched) :
    exec i { s with phase := .busy lat .started } =
      exec i { s with phase := .busy (lat.usedOperands i) .started } := by
  cases i with
  | cbcEnc => exact absurd rfl h.1
  | cbcDec v => exact absurd rfl (h.2 v)
  | hamming e =>
    exact congrArg Host.Outcome.next
      (complete_of_no_output (fun _ => hammingF_out) lat (lat.usedOperands (.hamming e)) _)
  | _ => rfl

theorem exec_congr {i : Instr} (h : OneStep i) {lat lat' : Latched}
    (same : lat.usedOperands i = lat'.usedOperands i) (s : State) :
    exec i { s with phase := .busy lat .started } = exec i { s with phase := .busy lat' .started } := by
  rw [exec_usedOperands h, same, ← exec_usedOperands h]

/-! ### Two runs with different latched PARAMs -/

theorem withLatchedParam_of_idle {s : State} (hp : s.phase = .idle) (p : Word) : s.withLatchedParam p = s := by
  simp only [State.withLatchedParam, hp]

theorem withLatchedParam_of_busy {s : State} {lat : Latched} {progress : Progress}
    (hp : s.phase = .busy lat progress) (p : Word) :
    s.withLatchedParam p = { s with phase := .busy { lat with param := p } progress } := by
  simp only [State.withLatchedParam, hp]

theorem complete_withLatchedParam (lat : Latched) (o : CmdOutcome) (s : State) (phase : Phase) (p : Word) :
    ({ s with phase := phase } : State).complete { lat with param := p } o =
      (s.complete lat o).withLatchedParam p := by
  obtain ⟨-, -, idle⟩ := complete_frame lat o s
  rw [withLatchedParam_of_idle idle, complete_phase]
  cases o <;> rfl

theorem cbcAdvance_withLatchedParam (lat : Latched) (run : CbcRun) (s : State) (phase : Phase) (p : Word) :
    cbcAdvance { lat with param := p } run { s with phase := phase } =
      (cbcAdvance lat run s).withLatchedParam p := by
  cases hb : run.blocks[run.index]? with
  | some b =>
    rw [cbcAdvance_request hb, cbcAdvance_request hb]
    rfl
  | none =>
    rw [cbcAdvance_complete hb, cbcAdvance_complete hb]
    exact complete_withLatchedParam lat _ { s with bcpReq := none, bcpAnswer := none } phase p

theorem cbcTake_withLatchedParam (y : Block) (lat : Latched) (run : CbcRun) (s : State) (phase : Phase)
    (p : Word) :
    cbcTake y { lat with param := p } run { s with phase := phase } =
      (cbcTake y lat run s).withLatchedParam p := by
  cases hop : run.op with
  | enc =>
    simp only [cbcTake, hop]
    exact cbcAdvance_withLatchedParam lat _ { s with chain := y } phase p
  | dec =>
    simp only [cbcTake, hop]
    exact cbcAdvance_withLatchedParam lat _ { s with chain := (run.blocks[run.index]?).getD s.chain } phase p

theorem cbcStep_withLatchedParam {s : State} {lat : Latched} {run : CbcRun}
    (hp : s.phase = .busy lat (.cbc run)) (p : Word) :
    cbcStep { lat with param := p } run (s.withLatchedParam p) = (cbcStep lat run s).withLatchedParam p := by
  rw [withLatchedParam_of_busy hp]
  cases hreq : s.bcpReq with
  | some r => simp only [cbcStep, hreq, withLatchedParam_of_busy hp]
  | none =>
    cases hans : s.bcpAnswer with
    | some y =>
      simp only [cbcStep, hreq, hans]
      exact cbcTake_withLatchedParam y lat run s _ p
    | none =>
      simp only [cbcStep, hreq, hans]
      exact cbcAdvance_withLatchedParam lat run s _ p

theorem exec_eq_runCbc {i : Instr} (h : i = .cbcEnc ∨ ∃ v, i = .cbcDec v) (s : State) :
    exec i s = runCbc (cbcPreOf i) s := by
  rcases h with rfl | ⟨v, rfl⟩ <;> rfl

/-- The pre-checks of a CBC command do not look at PARAM. -/
theorem cbcPreOf_withLatchedParam (i : Instr) (s : State) (lat : Latched) (phase : Phase) (p : Word) :
    cbcPreOf i { s with phase := phase } { lat with param := p } = cbcPreOf i s lat := by
  cases i <;> rfl

theorem runCbc_withLatchedParam {i : Instr} {s t : State} {lat : Latched} {progress : Progress}
    (hp : s.phase = .busy lat progress) (h : runCbc (cbcPreOf i) s = .next t) (p : Word) :
    runCbc (cbcPreOf i) (s.withLatchedParam p) = .next (t.withLatchedParam p) := by
  rw [withLatchedParam_of_busy hp]
  cases hpre : cbcPreOf i s lat with
  | error e =>
    simp only [runCbc, hp, hpre, Host.Outcome.next.injEq] at h
    simp only [runCbc, cbcPreOf_withLatchedParam, hpre, ← h]
    exact congrArg Host.Outcome.next (complete_withLatchedParam lat _ (s.drawOperands true lat) _ p)
  | ok run =>
    simp only [runCbc, hp, hpre, Host.Outcome.next.injEq] at h
    simp only [runCbc, cbcPreOf_withLatchedParam, hpre, ← h]
    exact congrArg Host.Outcome.next (cbcAdvance_withLatchedParam lat run
      { s.drawOperands true lat with chain := lat.iv, chainWritten := true } _ p)

/-- A one-step command ends Idle. -/
theorem exec_idle_of_oneStep {i : Instr} (hi : OneStep i) {s t : State} (h : exec i s = .next t) :
    t.phase = .idle := by
  rcases exec_cases i s with ⟨idle, he⟩ | ⟨lat, progress, -, ⟨u, o, -, he⟩ | ⟨run, cbc, -, -⟩⟩
  · cases he.symm.trans h
    exact idle
  · cases he.symm.trans h
    exact (complete_frame lat o _).2.2
  · rcases cbc with rfl | ⟨v, rfl⟩
    · exact absurd rfl hi.1
    · exact absurd rfl (hi.2 v)

theorem exec_withLatchedParam {i : Instr} (hpad : i ≠ .pad) {s t : State} {lat : Latched}
    (hp : s.phase = .busy lat .started) (h : exec i s = .next t) (p : Word) :
    exec i (s.withLatchedParam p) = .next (t.withLatchedParam p) := by
  rcases oneStep_or_cbc i with hi | cbc
  · rw [withLatchedParam_of_idle (exec_idle_of_oneStep hi h), withLatchedParam_of_busy hp, ← h,
      exec_congr hi (lat' := lat) (by simp only [Latched.usedOperands, if_neg hpad]), ← hp]
  · rw [exec_eq_runCbc cbc] at h ⊢
    exact runCbc_withLatchedParam hp h p

/-- Every engine step of a command other than PAD ignores the latched PARAM (30_encoding.md R96). -/
theorem engineStep_withLatchedParam {i : Instr} (hpad : i ≠ .pad) {s t : State} {lat : Latched}
    {progress : Progress} (hp : s.phase = .busy lat progress) (hd : decode lat.word = .ok i)
    (h : engineStep s = .next t) (p : Word) :
    engineStep (s.withLatchedParam p) = .next (t.withLatchedParam p) := by
  cases progress with
  | started =>
    simp only [engineStep, hp, hd] at h
    rw [← exec_withLatchedParam hpad hp h p, withLatchedParam_of_busy hp]
    simp only [engineStep, hd]
  | cbc run =>
    simp only [engineStep, hp, Host.Outcome.next.injEq] at h
    rw [← h, ← cbcStep_withLatchedParam hp, withLatchedParam_of_busy hp]
    rfl

/-- Settles O59: latched values that differ in operands a row does not list have the same used operands. -/
theorem unusedOperandsAreIgnored : Obligations.UnusedOperandsAreIgnored := by
  intro i s lat a b p c d iv run
  refine ⟨fun noAux => ?_, fun noDst => ?_, fun hpad enc dec => ?_, fun enc dec => ?_,
    fun progress t hp hd hpad h => engineStep_withLatchedParam hpad hp hd h p,
    fun t idle => withLatchedParam_of_idle idle p⟩
  · have hi : OneStep i := (oneStep_or_cbc i).resolve_right (by rintro (rfl | ⟨v, rfl⟩) <;> cases noAux)
    exact exec_congr hi (by simp [Latched.usedOperands, noAux]) s
  · have hi : OneStep i := (oneStep_or_cbc i).resolve_right (by rintro (rfl | ⟨v, rfl⟩) <;> cases noDst)
    exact exec_congr hi (by simp [Latched.usedOperands, noDst]) s
  · exact exec_congr ⟨enc, dec⟩ (by simp [Latched.usedOperands, hpad]) s
  · exact exec_congr ⟨enc, dec⟩ (lat := { lat with iv := iv }) (lat' := lat) rfl s

end Sys2Proof.Machine
end

section
/-! The host's side of a command (40_host_and_command.md R122 to R136): a CSR read, the lockout while Busy,
the start by a CMD write, and the engine's step on a started command and on an unanswered request. -/

namespace Sys2Proof.Machine

/-! ### Host accesses -/

/-- Settles O18: the conditions of a well-formed access are those of `csrAccessOk`, on which the read
branches. -/
theorem csrReadHasNoSideEffect : Obligations.CsrReadHasNoSideEffect := by
  intro s off w
  by_cases hok : csrAccessOk off w = true
  · exact ⟨_, _, .inl ⟨csrRead_ok hok s, csrAccessOk_iff.mp hok⟩⟩
  · exact ⟨0, 0, .inr ⟨csrRead_malformed hok s, rfl, mt csrAccessOk_iff.mpr hok⟩⟩

theorem bufWrite_busy {s : State} {off : Nat} {w : Width} (hok : bufAccessOk s.platform.memSize off w = true)
    (hb : s.busy = true) (v : Word) : s.bufWrite off w v = { s with haz := true, reply := none } := by
  rw [State.bufWrite, if_pos hok, if_pos hb]

theorem bufRead_busy {s : State} {off : Nat} {w : Width} (hok : bufAccessOk s.platform.memSize off w = true)
    (hb : s.busy = true) :
    s.bufRead off w =
      { s with
        haz := true
        reply := some (bytesWord (freeBytes s.draws (widthBytes w)))
        draws := s.draws + widthBytes w } := by
  rw [State.bufRead, if_pos hok, if_pos hb]

/-- Settles O23: a well-formed access while Busy takes the lockout's branch, whatever its offset. -/
theorem busyLockoutDropsWritesAndSetsHaz : Obligations.BusyLockoutDropsWritesAndSetsHaz := by
  intro s off n w v hb
  refine ⟨fun aligned inside => csrWrite_busy (csrAccessOk_iff.mpr ⟨rfl, aligned, inside⟩) hb v,
    fun width aligned inside => ?_⟩
  obtain rfl := eq_widthBytes width
  have hok := bufAccessOk_iff.mpr ⟨aligned, inside⟩
  exact ⟨bufWrite_busy hok hb v, bufRead_busy hok hb⟩

/-- Settles O24: the write is the start step, whose latch matches the registers it is taken from. -/
theorem cmdWriteWhileIdleStartsTheCommand : Obligations.CmdWriteWhileIdleStartsTheCommand := by
  intro s w hp
  have latched := latch_matches w s
  exact ⟨(s.latch w).iv, s.draws + 4, csrWrite_idle rfl hp w, latched.iv0, latched.iv1, latched.iv2,
    latched.iv3⟩

/-! ### The engine's move -/

theorem engineStep_of_decoded {s : State} {lat : Latched} {i : Instr} (hp : s.phase = .busy lat .started)
    (hd : decode lat.word = .ok i) : engineStep s = exec i s := by
  simp only [engineStep, hp, hd]

theorem step_of_no_agenda {s : State} (hag : s.agenda = []) : step s = engineStep s := by
  simp only [step, hag]

/-- Settles O4: either agenda makes the step the engine's, which does not look at the agenda. -/
theorem engineStepRunsTheDecodedCommand : Obligations.EngineStepRunsTheDecodedCommand := by
  intro s lat i hp hd
  refine ⟨fun hag => ?_, fun rest hag => ?_⟩
  · rw [step_of_no_agenda hag, engineStep_of_decoded hp hd]
  · rw [step_of_engine_next hag, engineStep_of_decoded (s := { s with agenda := rest }) hp hd]

/-- The engine waits for the port (40_host_and_command.md R136). -/
theorem engineStep_of_request {s : State} {lat : Latched} {run : CbcRun} {r : BcpRequest}
    (hp : s.phase = .busy lat (.cbc run)) (hreq : s.bcpReq = some r) : engineStep s = .next s := by
  simp only [engineStep, hp, cbcStep, hreq]

/-- A state that steps to itself stays as it is for ever. -/
theorem run_of_step_self {s : State} (h : step s = .next s) (n : Nat) :
    Host.Core.run Sys2Proof.core n s = .next s := by
  induction n with
  | zero => rfl
  | succ n ih =>
    have stepSelf : Sys2Proof.core.step s = .next s := h
    simp only [Host.Core.run, stepSelf, ih]

/-- Settles O7: the waiting engine is the only agent that moves, so the state steps to itself. -/
theorem unansweredRequestHangsTheCommand : Obligations.UnansweredRequestHangsTheCommand := by
  intro s lat run r n hp hreq hag
  exact run_of_step_self ((step_of_no_agenda hag).trans (engineStep_of_request hp hreq)) n

end Sys2Proof.Machine
end

section
/-! The operand checks with which every command begins (40_host_and_command.md R137, R138). They are one
function of the operands its row lists (`operandChecks`), and an error of theirs is how the command ends
(`fails_of_operandChecks`), so each rule about them is a fact about that one function. -/

namespace Sys2Proof.Machine

/-- The range checks of SRC, AUX and DST and then the overlap checks, for the operands the command uses
(30_encoding.md R95; 60_exceptions.md R296). -/
def operandChecks (i : Instr) (s : State) (lat : Latched) : Res Unit := do
  let _ ← srcBuf s lat
  let _ ← if usesAux i then auxBuf s lat else .ok []
  if usesDst i then
    dstCheck s lat
    overlapCheck lat (usesAux i)
  else .ok ()

/-! ### The checks come first -/

/-- After one and the same check, another continuation that ends in `e` whenever the first one does keeps an
error `e` of the whole. -/
theorem res_bind_error_mono {α β γ : Type} {x : Res α} {f : α → Res β} {g : α → Res γ} {e : CmdError}
    (h : (x >>= f) = .error e) (hfg : ∀ a, f a = .error e → g a = .error e) : (x >>= g) = .error e := by
  cases x with
  | ok a => exact hfg a h
  | error _ =>
    cases h
    rfl

theorem res_bind_of_error {α β : Type} {x : Res α} {e : CmdError} (h : x = .error e) (f : α → Res β) :
    (x >>= f) = .error e := by
  rw [h, res_bind_error]

/-- A function that checks SRC, DST and their overlap first ends with an error of these checks. -/
theorem srcDst_checks_first {i : Instr} {s : State} {lat : Latched} {e : CmdError} {α : Type}
    (haux : usesAux i = false) (hdst : usesDst i = true) (h : operandChecks i s lat = .error e)
    (rest : Bytes → Res α) :
    (do let b ← srcBuf s lat
        dstCheck s lat
        overlapCheck lat false
        rest b) = .error e := by
  simp only [operandChecks, haux, hdst, if_true, Bool.false_eq_true, if_false, res_bind_ok] at h
  exact res_bind_error_mono h fun _ h => res_bind_error_mono h fun _ h => res_bind_of_error h _

/-- A function that checks SRC, AUX, DST and the overlaps first ends with an error of these checks. -/
theorem srcAuxDst_checks_first {i : Instr} {s : State} {lat : Latched} {e : CmdError} {α : Type}
    (haux : usesAux i = true) (hdst : usesDst i = true) (h : operandChecks i s lat = .error e)
    (rest : Bytes → Bytes → Res α) :
    (do let b ← srcBuf s lat
        let a ← auxBuf s lat
        dstCheck s lat
        overlapCheck lat true
        rest b a) = .error e := by
  simp only [operandChecks, haux, hdst, if_true] at h
  exact res_bind_error_mono h fun _ h => res_bind_error_mono h fun _ h => res_bind_error_mono h
    fun _ h => res_bind_of_error h _

/-- A function that checks SRC and AUX first and uses no DST ends with an error of these checks. -/
theorem srcAux_checks_first {i : Instr} {s : State} {lat : Latched} {e : CmdError} {α : Type}
    (haux : usesAux i = true) (hdst : usesDst i = false) (h : operandChecks i s lat = .error e)
    (rest : Bytes → Bytes → Res α) :
    (do let b ← srcBuf s lat
        let a ← auxBuf s lat
        rest b a) = .error e := by
  simp only [operandChecks, haux, hdst, if_true, Bool.false_eq_true, if_false] at h
  exact res_bind_error_mono h fun _ h => res_bind_error_mono h nofun

/-- A command fails with an error of its operand checks, whatever the data. -/
theorem fails_of_operandChecks {i : Instr} {s : State} {lat : Latched} {progress : Progress} {e : CmdError}
    (hp : s.phase = .busy lat progress) (h : operandChecks i s lat = .error e) :
    Fails i s e.code.number e.info.number := by
  cases i with
  | hexEnc | hexDec | b64Enc | b64Dec | hexToB64 | b64ToHex | pad | unpad =>
    exact fails_of_err rfl hp (congrArg outcomeOf (srcDst_checks_first rfl rfl h _))
  | xorFixed | xorRepeat =>
    exact fails_of_err rfl hp (congrArg outcomeOf (srcAuxDst_checks_first rfl rfl h _))
  | hamming => exact fails_of_err rfl hp (congrArg outcomeOf (srcAux_checks_first rfl rfl h _))
  | cbcEnc | cbcDec => exact fails_of_cbc_error rfl hp (srcAuxDst_checks_first rfl rfl h _)

/-! ### What the checks answer -/

section
variable {i : Instr} {s : State} {lat : Latched}

theorem operandChecks_src (src : ¬InRange s lat.srcAddr lat.srcLen) :
    operandChecks i s lat = .error ⟨.addressRange, .src⟩ := by
  rw [operandChecks, srcBuf_error src, res_bind_error]

theorem operandChecks_aux (src : InRange s lat.srcAddr lat.srcLen) (haux : usesAux i = true)
    (aux : ¬InRange s lat.auxAddr lat.auxLen) : operandChecks i s lat = .error ⟨.addressRange, .aux⟩ := by
  rw [operandChecks, srcBuf_ok src, res_bind_ok, if_pos haux, auxBuf_error aux, res_bind_error]

/-- With SRC and a used AUX in range, the checks of DST are left. -/
theorem operandChecks_of_sources (src : InRange s lat.srcAddr lat.srcLen)
    (aux : usesAux i = true → InRange s lat.auxAddr lat.auxLen) (hdst : usesDst i = true) :
    operandChecks i s lat = (do dstCheck s lat; overlapCheck lat (usesAux i)) := by
  rw [operandChecks, srcBuf_ok src, res_bind_ok, if_pos hdst]
  cases haux : usesAux i with
  | false => rfl
  | true =>
    rw [if_pos rfl, auxBuf_ok (aux haux)]
    rfl

end

/-- Settles O26: the three range checks are the first of `operandChecks`, in this order. -/
theorem operandOutOfRangeIsAddressRange : Obligations.OperandOutOfRangeIsAddressRange := by
  intro i s lat hp
  refine ⟨fun src => fails_of_operandChecks hp (operandChecks_src src),
    fun src haux aux => fails_of_operandChecks hp (operandChecks_aux src haux aux),
    fun src aux hdst dst => ?_⟩
  have checks : operandChecks i s lat = .error ⟨.addressRange, .dst⟩ := by
    rw [operandChecks_of_sources src aux hdst, dstCheck_error dst, res_bind_error]
  exact fails_of_operandChecks hp checks

/-- Settles O27: with the ranges in order, `operandChecks` comes down to the overlap checks. -/
theorem destinationOverlapIsRefused : Obligations.DestinationOverlapIsRefused := by
  intro i s lat hp hdst src dst aux
  have checks : operandChecks i s lat = overlapCheck lat (usesAux i) := by
    rw [operandChecks_of_sources src aux hdst, dstCheck_ok dst, res_bind_ok]
  refine ⟨fun overlap => ?_, fun apart haux overlap => ?_⟩
  · exact fails_of_operandChecks hp (checks.trans (overlapCheck_src overlap))
  · rw [haux] at checks
    exact fails_of_operandChecks hp (checks.trans (overlapCheck_aux apart overlap))

end Sys2Proof.Machine
end

section
/-! Functions that can raise one error only, so that what they do not accept is that error. -/

namespace Sys2Proof.Machine

/-- The one error that `x` can raise is `e`. -/
def OnlyError {α : Type} (x : Res α) (e : CmdError) : Prop := ∀ e', x = .error e' → e' = e

theorem OnlyError.ok {α : Type} (a : α) (e : CmdError) : OnlyError (.ok a) e := nofun

theorem OnlyError.failIf (p : Prop) [Decidable p] (code : ErrCode) (info : Operand) :
    OnlyError (failIf p code info) ⟨code, info⟩ := fun _ h => (failIf_eq_error.mp h).2

theorem OnlyError.bind {α β : Type} {x : Res α} {f : α → Res β} {e : CmdError} (hx : OnlyError x e)
    (hf : ∀ a, OnlyError (f a) e) : OnlyError (x >>= f) e := by
  cases x with
  | ok a => exact hf a
  | error e' =>
    intro e'' h
    cases h
    exact hx e' rfl

theorem OnlyError.eq_error {α : Type} {x : Res α} {e : CmdError} (h : OnlyError x e) (hx : ∀ a, x ≠ .ok a) :
    x = .error e := by
  cases x with
  | ok a => exact absurd rfl (hx a)
  | error e' => rw [h e' rfl]

end Sys2Proof.Machine
end

section
/-! Hexadecimal text (41_codec.md R160 to R164). -/

namespace Sys2Proof.Machine

/-! ### Digits -/

theorem hexVal_hexChar {d : Nat} (h : d < 16) : hexVal (hexChar d) = some d := by
  interval_cases d <;> rfl

theorem lowerHex_hexChar {d : Nat} (h : d < 16) : lowerHex (hexChar d) = hexChar d := by
  interval_cases d <;> rfl

theorem lowerHex_toNat (c : Byte) :
    (lowerHex c).toNat = if 0x41 ≤ c.toNat ∧ c.toNat ≤ 0x46 then c.toNat + 0x20 else c.toNat := by
  unfold lowerHex
  split
  · have plus : (c + 0x20).toNat = (c.toNat + 0x20) % 256 := BitVec.toNat_add c 0x20
    omega
  · rfl

theorem hexVal_lowerHex (c : Byte) : hexVal (lowerHex c) = hexVal c := by
  simp only [hexVal, lowerHex_toNat]
  grind

theorem hexChar_toNat {d : Nat} (h : d < 16) : (hexChar d).toNat = if d ≤ 9 then 0x30 + d else 0x57 + d := by
  interval_cases d <;> rfl

/-- The characters of value d are the digit itself and, for a letter, its uppercase form (R160, R161). -/
theorem hexVal_eq_some_iff {c : Byte} {d : Nat} : hexVal c = some d ↔ d < 16 ∧ lowerHex c = hexChar d := by
  constructor
  · intro h
    have small : d < 16 := by
      unfold hexVal at h
      grind
    refine ⟨small, BitVec.eq_of_toNat_eq ?_⟩
    rw [lowerHex_toNat, hexChar_toNat small]
    unfold hexVal at h
    grind
  · rintro ⟨small, h⟩
    rw [← hexVal_lowerHex, h, hexVal_hexChar small]

theorem shiftRight_four_toNat (x : Byte) : (x >>> 4).toNat = x.toNat / 16 := by
  rw [BitVec.toNat_ushiftRight, Nat.shiftRight_eq_div_pow]

theorem and_low_nibble_toNat (x : Byte) : (x &&& 0x0F).toNat = x.toNat % 16 := by
  rw [BitVec.toNat_and]
  exact Nat.and_two_pow_sub_one_eq_mod x.toNat 4

/-! ### The text -/

@[simp] theorem hexEncode_nil : hexEncode [] = [] := rfl

@[simp] theorem hexEncode_cons (x : Byte) (rest : Bytes) :
    hexEncode (x :: rest) = hexChar (x.toNat / 16) :: hexChar (x.toNat % 16) :: hexEncode rest := by
  simp only [hexEncode, List.flatMap_cons, shiftRight_four_toNat, and_low_nibble_toNat, List.cons_append,
    List.nil_append]

@[simp] theorem hexEncode_length (b : Bytes) : (hexEncode b).length = 2 * b.length := by
  induction b with
  | nil => rfl
  | cons x rest ih =>
    simp only [hexEncode_cons, List.length_cons, ih]
    omega

theorem hexEncode_digits {b : Bytes} {i : Nat} {x : Byte} (h : b[i]? = some x) :
    (hexEncode b)[2 * i]? = some (hexChar (x.toNat / 16)) ∧
      (hexEncode b)[2 * i + 1]? = some (hexChar (x.toNat % 16)) := by
  induction b generalizing i with
  | nil => simp at h
  | cons y rest ih =>
    cases i with
    | zero =>
      obtain rfl : y = x := by simpa using h
      simp
    | succ i =>
      have tail := ih (i := i) (by simpa using h)
      simpa [Nat.mul_succ] using tail

theorem map_lowerHex_hexEncode (b : Bytes) : (hexEncode b).map lowerHex = hexEncode b := by
  induction b with
  | nil => rfl
  | cons x rest ih =>
    have high : x.toNat / 16 < 16 := by omega
    have low : x.toNat % 16 < 16 := by omega
    simp only [hexEncode_cons, List.map_cons, lowerHex_hexChar high, lowerHex_hexChar low, ih]

/-! ### Decoding -/

/-- The decoder's checks, one by one (R164). -/
theorem hexDecode_eq_ok_iff_pairs {t b : Bytes} {id : Operand} :
    hexDecode t id = .ok b ↔ t.length % 2 = 0 ∧ (∀ c ∈ t, (hexVal c).isSome) ∧ hexPairs t = b := by
  simp only [hexDecode, res_bind_eq_ok, failIf_eq_ok, res_pure, Except.ok.injEq, exists_const,
    Nat.mod_two_not_eq_one, List.any_eq_true, not_exists, not_and, Option.isNone_iff_eq_none,
    ← Option.isSome_iff_ne_none]

theorem hexDecode_onlyError (t : Bytes) (id : Operand) : OnlyError (hexDecode t id) ⟨.malformedInput, id⟩ :=
  (OnlyError.failIf _ _ _).bind fun _ => (OnlyError.failIf _ _ _).bind fun _ => OnlyError.ok _ _

theorem ofNat_nibbles_eq_iff {h l : Nat} (hh : h < 16) (hl : l < 16) (x : Byte) :
    BitVec.ofNat 8 (h <<< 4 ||| l) = x ↔ h = x.toNat / 16 ∧ l = x.toNat % 16 := by
  rw [← Nat.shiftLeft_add_eq_or_of_lt hl, Nat.shiftLeft_eq, ← BitVec.toNat_inj, BitVec.toNat_ofNat]
  omega

theorem hexDecode_cons_cons {hi lo x : Byte} {rest b : Bytes} {id : Operand} :
    hexDecode (hi :: lo :: rest) id = .ok (x :: b) ↔
      hexVal hi = some (x.toNat / 16) ∧ hexVal lo = some (x.toNat % 16) ∧ hexDecode rest id = .ok b := by
  simp only [hexDecode_eq_ok_iff_pairs, hexPairs, List.cons.injEq, List.length_cons, List.forall_mem_cons]
  cases hh : hexVal hi with
  | none => simp
  | some h =>
    cases hl : hexVal lo with
    | none => simp
    | some l =>
      obtain ⟨h16, -⟩ := hexVal_eq_some_iff.mp hh
      obtain ⟨l16, -⟩ := hexVal_eq_some_iff.mp hl
      simp only [Option.getD_some, Option.isSome_some, ofNat_nibbles_eq_iff h16 l16, Option.some.injEq,
        Nat.add_assoc, Nat.add_mod_right, true_and]
      tauto

/-- The decoder accepts exactly what the encoder writes, in either case (R163, R164). -/
theorem hexDecode_eq_ok_iff {t b : Bytes} {id : Operand} :
    hexDecode t id = .ok b ↔ t.map lowerHex = hexEncode b := by
  match t, b with
  | [], [] => simp [hexDecode_eq_ok_iff_pairs, hexPairs]
  | [], _ :: _ => simp [hexDecode_eq_ok_iff_pairs, hexPairs]
  | [_], [] => simp [hexDecode_eq_ok_iff_pairs]
  | [_], _ :: _ => simp [hexDecode_eq_ok_iff_pairs]
  | _ :: _ :: _, [] => simp [hexDecode_eq_ok_iff_pairs, hexPairs]
  | hi :: lo :: rest, x :: b =>
    have high : x.toNat / 16 < 16 := by omega
    have low : x.toNat % 16 < 16 := by omega
    simp only [hexDecode_cons_cons, hexVal_eq_some_iff, hexDecode_eq_ok_iff (t := rest), high, low, true_and,
      List.map_cons, hexEncode_cons, List.cons.injEq]

theorem hexDecode_malformed {t : Bytes} (h : ∀ b, t.map lowerHex ≠ hexEncode b) (id : Operand) :
    hexDecode t id = .error ⟨.malformedInput, id⟩ :=
  (hexDecode_onlyError t id).eq_error fun b hb => h b (hexDecode_eq_ok_iff.mp hb)

theorem hexDecode_hexEncode (b : Bytes) (id : Operand) : hexDecode (hexEncode b) id = .ok b :=
  hexDecode_eq_ok_iff.mpr (map_lowerHex_hexEncode b)

/-- Settles O29: decoding is the inverse of encoding digit by digit (`hexVal_eq_some_iff`), and the decoder
has no other error than MalformedInput. -/
theorem hexDecodeInvertsHexEncodeUpToCase : Obligations.HexDecodeInvertsHexEncodeUpToCase :=
  fun _ id => ⟨fun _ => hexDecode_eq_ok_iff, fun h => hexDecode_malformed h id⟩

end Sys2Proof.Machine
end

section
/-! Base64 text (41_codec.md R162, R165, R166). -/

namespace Sys2Proof.Machine

/-! ### The alphabet -/

theorem b64Val_b64Char {v : Nat} (h : v < 64) : b64Val (b64Char v) = some v := by
  interval_cases v <;> rfl

theorem b64Char_ne_pad {v : Nat} (h : v < 64) : b64Char v ≠ b64Pad := by
  interval_cases v <;> decide

theorem b64Val_lt {c : Byte} {v : Nat} (h : b64Val c = some v) : v < 64 := by
  unfold b64Val at h
  grind

theorem b64Char_toNat {v : Nat} (h : v < 64) :
    (b64Char v).toNat = if v ≤ 25 then 0x41 + v else if v ≤ 51 then 0x47 + v else if v ≤ 61 then v - 4
      else if v = 62 then 0x2B else 0x2F := by
  interval_cases v <;> rfl

theorem b64Char_of_b64Val {c : Byte} {v : Nat} (h : b64Val c = some v) : b64Char v = c := by
  apply BitVec.eq_of_toNat_eq
  rw [b64Char_toNat (b64Val_lt h)]
  unfold b64Val at h
  grind

/-! ### The accumulator -/

theorem sextet_eq (acc : BitVec 24) (lo : Nat) : sextet acc lo = acc.toNat / 2 ^ lo % 64 := by
  rw [sextet, BitVec.extractLsb'_toNat, Nat.shiftRight_eq_div_pow]

theorem append_bytes_toNat (x y z : Byte) :
    (x ++ y ++ z : BitVec 24).toNat = x.toNat * 65536 + y.toNat * 256 + z.toNat := by
  simp only [BitVec.toNat_append]
  rw [← Nat.shiftLeft_add_eq_or_of_lt z.isLt, ← Nat.shiftLeft_add_eq_or_of_lt y.isLt]
  simp only [Nat.shiftLeft_eq]
  omega

/-- The accumulator of four 6-bit values (R166). -/
def b64Acc (g0 g1 g2 g3 : Nat) : BitVec 24 :=
  BitVec.ofNat 24 ((g0 <<< 18) ||| (g1 <<< 12) ||| (g2 <<< 6) ||| g3)

theorem shiftLeft_or_shiftLeft (a : Nat) {b : Nat} (h : b < 64) (k : Nat) :
    a <<< (k + 6) ||| b <<< k = (a * 64 + b) <<< k := by
  rw [Nat.add_comm k, Nat.shiftLeft_add, ← Nat.shiftLeft_or_distrib,
    ← Nat.shiftLeft_add_eq_or_of_lt (i := 6) h, Nat.shiftLeft_eq a]

theorem b64Acc_toNat {g0 g1 g2 g3 : Nat} (h0 : g0 < 64) (h1 : g1 < 64) (h2 : g2 < 64) (h3 : g3 < 64) :
    (b64Acc g0 g1 g2 g3).toNat = g0 * 262144 + g1 * 4096 + g2 * 64 + g3 := by
  have acc : g0 <<< 18 ||| g1 <<< 12 ||| g2 <<< 6 ||| g3 = ((g0 * 64 + g1) * 64 + g2) * 64 + g3 := by
    rw [shiftLeft_or_shiftLeft g0 h1 12, shiftLeft_or_shiftLeft _ h2 6, ← Nat.shiftLeft_add_eq_or_of_lt (i := 6) h3,
      Nat.shiftLeft_eq]
  rw [b64Acc, acc, BitVec.toNat_ofNat]
  omega

theorem extract_byte_toNat (acc : BitVec 24) (lo : Nat) : (acc.extractLsb' lo 8).toNat = acc.toNat / 2 ^ lo % 256 := by
  rw [BitVec.extractLsb'_toNat, Nat.shiftRight_eq_div_pow]

theorem extract_byte_eq_iff (acc : BitVec 24) (lo : Nat) (x : Byte) :
    acc.extractLsb' lo 8 = x ↔ acc.toNat / 2 ^ lo % 256 = x.toNat := by
  rw [← BitVec.toNat_inj, extract_byte_toNat]

section
variable {g0 g1 g2 g3 : Nat} (h0 : g0 < 64) (h1 : g1 < 64)
include h0 h1

/-- The bytes of an accumulator have its values, so the encoder writes them back. -/
theorem sextets_of_three_bytes (h2 : g2 < 64) (h3 : g3 < 64) :
    let acc := (b64Acc g0 g1 g2 g3).extractLsb' 16 8 ++ (b64Acc g0 g1 g2 g3).extractLsb' 8 8 ++
      (b64Acc g0 g1 g2 g3).extractLsb' 0 8
    sextet acc 18 = g0 ∧ sextet acc 12 = g1 ∧ sextet acc 6 = g2 ∧ sextet acc 0 = g3 := by
  simp only [sextet_eq, append_bytes_toNat, extract_byte_toNat, b64Acc_toNat h0 h1 h2 h3]
  omega

/-- With its last byte 0, the first two bytes of an accumulator have its first three values. -/
theorem sextets_of_two_bytes (h2 : g2 < 64) (unused : g2 % 4 = 0) :
    let acc := (b64Acc g0 g1 g2 0).extractLsb' 16 8 ++ (b64Acc g0 g1 g2 0).extractLsb' 8 8 ++ 0#8
    sextet acc 18 = g0 ∧ sextet acc 12 = g1 ∧ sextet acc 6 = g2 := by
  have zero : (0#8).toNat = 0 := rfl
  simp only [sextet_eq, append_bytes_toNat, extract_byte_toNat, zero, b64Acc_toNat h0 h1 h2 Nat.ofNat_pos]
  omega

/-- With its last two bytes 0, the first byte of an accumulator has its first two values. -/
theorem sextets_of_one_byte (unused : g1 % 16 = 0) :
    let acc := (b64Acc g0 g1 0 0).extractLsb' 16 8 ++ 0#8 ++ 0#8
    sextet acc 18 = g0 ∧ sextet acc 12 = g1 := by
  have zero : (0#8).toNat = 0 := rfl
  simp only [sextet_eq, append_bytes_toNat, extract_byte_toNat, zero, b64Acc_toNat h0 h1 Nat.ofNat_pos Nat.ofNat_pos]
  omega

end

/-- The accumulator of the 6-bit values of three bytes, zero-extended or not, has these bytes. -/
theorem bytes_of_b64Acc (x y z : Byte) :
    let acc := b64Acc (x.toNat / 4) (x.toNat % 4 * 16 + y.toNat / 16) (y.toNat % 16 * 4 + z.toNat / 64)
      (z.toNat % 64)
    acc.extractLsb' 16 8 = x ∧ acc.extractLsb' 8 8 = y ∧ acc.extractLsb' 0 8 = z := by
  have h0 : x.toNat / 4 < 64 := by omega
  have h1 : x.toNat % 4 * 16 + y.toNat / 16 < 64 := by omega
  have h2 : y.toNat % 16 * 4 + z.toNat / 64 < 64 := by omega
  have h3 : z.toNat % 64 < 64 := by omega
  simp only [extract_byte_eq_iff, b64Acc_toNat h0 h1 h2 h3]
  omega

/-! ### Text and bytes group by group -/

theorem b64Encode_cons_cons_cons (x y z : Byte) (rest : Bytes) :
    b64Encode (x :: y :: z :: rest) =
      [sextet (x ++ y ++ z) 18, sextet (x ++ y ++ z) 12, sextet (x ++ y ++ z) 6, sextet (x ++ y ++ z) 0].map b64Char
        ++ b64Encode rest := rfl

theorem b64Quads_four (g0 g1 g2 g3 : Nat) (rest : List Nat) :
    b64Quads (g0 :: g1 :: g2 :: g3 :: rest) = (b64Acc g0 g1 g2 g3).extractLsb' 16 8 ::
      (b64Acc g0 g1 g2 g3).extractLsb' 8 8 :: (b64Acc g0 g1 g2 g3).extractLsb' 0 8 :: b64Quads rest := rfl

/-- The text of 6-bit values and p padding characters. -/
def b64Text (vals : List Nat) (p : Nat) : Bytes := vals.map b64Char ++ List.replicate p b64Pad

/-- The bytes that R166's loop makes of 6-bit values, with 0 for each of p padding characters. -/
def b64Bytes (vals : List Nat) (p : Nat) : Bytes :=
  (b64Quads (vals ++ List.replicate p 0)).take (3 * (vals.length + p) / 4 - p)

/-- The last of the values, 0 if there is none. -/
def lastVal (vals : List Nat) : Nat := vals.getD (vals.length - 1) 0

/-- What R166 asks of a text of 6-bit values and p padding characters. The last value has 2 p bits beyond the
last byte, and they are 0 (decision D12). -/
structure B64Canonical (vals : List Nat) (p : Nat) : Prop where
  small : ∀ v ∈ vals, v < 64
  groups : (vals.length + p) % 4 = 0
  pad_le : p ≤ 2
  unused : lastVal vals % 4 ^ p = 0

theorem lastVal_four (g0 g1 g2 g3 v : Nat) (rest : List Nat) :
    lastVal (g0 :: g1 :: g2 :: g3 :: v :: rest) = lastVal (v :: rest) := by
  simp [lastVal]

theorem b64Canonical_four {g0 g1 g2 g3 p : Nat} {rest : List Nat} :
    B64Canonical (g0 :: g1 :: g2 :: g3 :: rest) p ↔
      (g0 < 64 ∧ g1 < 64 ∧ g2 < 64 ∧ g3 < 64) ∧ B64Canonical rest p := by
  have groups : ((g0 :: g1 :: g2 :: g3 :: rest).length + p) % 4 = (rest.length + p) % 4 := by
    simp only [List.length_cons]
    omega
  have small : (∀ v ∈ g0 :: g1 :: g2 :: g3 :: rest, v < 64) ↔
      (g0 < 64 ∧ g1 < 64 ∧ g2 < 64 ∧ g3 < 64) ∧ ∀ v ∈ rest, v < 64 := by
    simp only [List.forall_mem_cons, and_assoc]
  have unused (hg : (rest.length + p) % 4 = 0) (hp : p ≤ 2) :
      lastVal (g0 :: g1 :: g2 :: g3 :: rest) % 4 ^ p = lastVal rest % 4 ^ p := by
    cases rest with
    | nil =>
      obtain rfl : p = 0 := by rw [List.length_nil] at hg; omega
      simp only [pow_zero, Nat.mod_one]
    | cons v rest => rw [lastVal_four]
  constructor
  · rintro ⟨hs, hg, hp, hu⟩
    rw [groups] at hg
    exact ⟨(small.mp hs).1, (small.mp hs).2, hg, hp, unused hg hp ▸ hu⟩
  · rintro ⟨first, hs, hg, hp, hu⟩
    exact ⟨small.mpr ⟨first, hs⟩, groups ▸ hg, hp, unused hg hp ▸ hu⟩

theorem b64Text_four (g0 g1 g2 g3 p : Nat) (rest : List Nat) :
    b64Text (g0 :: g1 :: g2 :: g3 :: rest) p = [g0, g1, g2, g3].map b64Char ++ b64Text rest p := rfl

theorem b64Bytes_four {p : Nat} {rest : List Nat} (h : B64Canonical rest p) (g0 g1 g2 g3 : Nat) :
    b64Bytes (g0 :: g1 :: g2 :: g3 :: rest) p = (b64Acc g0 g1 g2 g3).extractLsb' 16 8 ::
      (b64Acc g0 g1 g2 g3).extractLsb' 8 8 :: (b64Acc g0 g1 g2 g3).extractLsb' 0 8 :: b64Bytes rest p := by
  have groups := h.groups
  have pad_le := h.pad_le
  have count : 3 * ((g0 :: g1 :: g2 :: g3 :: rest).length + p) / 4 - p = 3 * (rest.length + p) / 4 - p + 3 := by
    simp only [List.length_cons]
    omega
  rw [b64Bytes, count]
  rfl

/-- The encoder writes a canonical text back. -/
theorem b64Encode_b64Bytes {vals : List Nat} {p : Nat} (h : B64Canonical vals p) :
    b64Encode (b64Bytes vals p) = b64Text vals p := by
  obtain ⟨small, groups, pad_le, unused⟩ := h
  match vals with
  | [] =>
    obtain rfl : p = 0 := by rw [List.length_nil] at groups; omega
    rfl
  | [_] =>
    rw [List.length_singleton] at groups
    omega
  | [a, b] =>
    obtain rfl : p = 2 := by simp only [List.length_cons, List.length_nil] at groups; omega
    obtain ⟨ha, hb⟩ : a < 64 ∧ b < 64 := by simpa using small
    obtain ⟨ea, eb⟩ := sextets_of_one_byte ha hb unused
    have bytes : b64Bytes [a, b] 2 = [(b64Acc a b 0 0).extractLsb' 16 8] := by
      simp [b64Bytes, b64Quads_four]
    simp only [bytes, b64Encode, ea, eb]
    rfl
  | [a, b, c] =>
    obtain rfl : p = 1 := by simp only [List.length_cons, List.length_nil] at groups; omega
    obtain ⟨ha, hb, hc⟩ : a < 64 ∧ b < 64 ∧ c < 64 := by simpa using small
    obtain ⟨ea, eb, ec⟩ := sextets_of_two_bytes ha hb hc unused
    have bytes : b64Bytes [a, b, c] 1 =
        [(b64Acc a b c 0).extractLsb' 16 8, (b64Acc a b c 0).extractLsb' 8 8] := by
      simp [b64Bytes, b64Quads_four]
    simp only [bytes, b64Encode, ea, eb, ec]
    rfl
  | g0 :: g1 :: g2 :: g3 :: rest =>
    obtain ⟨⟨h0, h1, h2, h3⟩, hrest⟩ := b64Canonical_four.mp ⟨small, groups, pad_le, unused⟩
    obtain ⟨e0, e1, e2, e3⟩ := sextets_of_three_bytes h0 h1 h2 h3
    rw [b64Bytes_four hrest, b64Encode_cons_cons_cons, e0, e1, e2, e3, b64Encode_b64Bytes hrest, b64Text_four]

/-- All bytes are those of a canonical text. -/
theorem exists_canonical_of_bytes (b : Bytes) : ∃ vals p, B64Canonical vals p ∧ b64Bytes vals p = b := by
  match b with
  | [] => exact ⟨[], 0, ⟨nofun, rfl, by decide, rfl⟩, rfl⟩
  | [x] =>
    obtain ⟨ex, -⟩ := bytes_of_b64Acc x 0 0
    refine ⟨[x.toNat / 4, x.toNat % 4 * 16], 2, ⟨by simp; omega, by simp, by decide, ?_⟩, ?_⟩
    · exact Nat.mul_mod_left _ 16
    · simpa [b64Bytes, b64Quads_four] using ex
  | [x, y] =>
    obtain ⟨ex, ey, -⟩ := bytes_of_b64Acc x y 0
    refine ⟨[x.toNat / 4, x.toNat % 4 * 16 + y.toNat / 16, y.toNat % 16 * 4], 1,
      ⟨by simp; omega, by simp, by decide, ?_⟩, ?_⟩
    · exact Nat.mul_mod_left _ 4
    · simpa [b64Bytes, b64Quads_four] using ⟨ex, ey⟩
  | x :: y :: z :: rest =>
    obtain ⟨vals, p, canonical, rfl⟩ := exists_canonical_of_bytes rest
    obtain ⟨ex, ey, ez⟩ := bytes_of_b64Acc x y z
    refine ⟨x.toNat / 4 :: (x.toNat % 4 * 16 + y.toNat / 16) :: (y.toNat % 16 * 4 + z.toNat / 64) ::
      z.toNat % 64 :: vals, p, b64Canonical_four.mpr ⟨by omega, canonical⟩, ?_⟩
    rw [b64Bytes_four canonical, ex, ey, ez]

/-! ### The decoder on a text of 6-bit values -/

theorem take_append_padding (t : Bytes) :
    t.take (t.length - b64PadCount t) ++ List.replicate (b64PadCount t) b64Pad = t := by
  have padding : t.reverse.takeWhile (· == b64Pad) = List.replicate (b64PadCount t) b64Pad :=
    List.eq_replicate_iff.mpr ⟨rfl, fun c hc => by simpa using List.mem_takeWhile_imp hc⟩
  have split : t = (t.reverse.dropWhile (· == b64Pad)).reverse ++ List.replicate (b64PadCount t) b64Pad := by
    rw [← List.reverse_inj, List.reverse_append, List.reverse_reverse, List.reverse_replicate, ← padding,
      List.takeWhile_append_dropWhile]
  generalize b64PadCount t = p at split ⊢
  rw [split]
  simp

section
variable {vals : List Nat} {p : Nat} (small : ∀ v ∈ vals, v < 64)
include small

theorem b64PadCount_b64Text : b64PadCount (b64Text vals p) = p := by
  have noPad : (vals.map b64Char).reverse.takeWhile (· == b64Pad) = [] := by
    cases h : (vals.map b64Char).reverse with
    | nil => rfl
    | cons c rest =>
      have hc : c ∈ vals.map b64Char := List.mem_reverse.mp (h ▸ List.mem_cons_self)
      obtain ⟨v, hv, rfl⟩ := List.mem_map.mp hc
      simp [b64Char_ne_pad (small v hv)]
  rw [b64PadCount, b64Text, List.reverse_append, List.reverse_replicate,
    List.takeWhile_append_of_pos (by simp), noPad, List.append_nil, List.length_replicate]

theorem b64ValAt_b64Text (j : Nat) : b64ValAt (b64Text vals p) j = vals.getD j 0 := by
  unfold b64ValAt b64Text
  by_cases hj : j < vals.length
  · have hv := b64Val_b64Char (small _ (List.getElem_mem hj))
    rw [List.getD_append _ _ _ _ (by simpa using hj)]
    simp [hj, hv]
  · rw [List.getD_append_right _ _ _ _ (by simpa using hj), List.getD_eq_getElem?_getD,
      List.getElem?_getD_replicate_default_eq, List.getD_eq_default _ _ (by omega)]
    rfl

theorem map_b64ValAt_range : (List.range (vals.length + p)).map (fun j =>
    if j < vals.length + p - p then b64ValAt (b64Text vals p) j else 0) = vals ++ List.replicate p 0 := by
  apply List.ext_getElem
  · simp
  · intro j h1 h2
    by_cases hj : j < vals.length <;> simp [b64ValAt_b64Text small, List.getElem_append, hj]

theorem b64Text_unused_iff (hp : p ≤ 2) :
    (¬(p = 2 ∧ b64ValAt (b64Text vals p) (vals.length + p - 3) &&& 0x0F ≠ 0) ∧
      ¬(p = 1 ∧ b64ValAt (b64Text vals p) (vals.length + p - 2) &&& 0x03 ≠ 0)) ↔ lastVal vals % 4 ^ p = 0 := by
  simp only [b64ValAt_b64Text small]
  interval_cases p
  · simp [Nat.mod_one]
  · simp [lastVal, Nat.and_two_pow_sub_one_eq_mod _ 2]
  · simp [lastVal, Nat.and_two_pow_sub_one_eq_mod _ 4]

theorem b64Decode_b64Text {b : Bytes} {id : Operand} :
    b64Decode (b64Text vals p) id = .ok b ↔ B64Canonical vals p ∧ b64Bytes vals p = b := by
  have length : (b64Text vals p).length = vals.length + p := by simp [b64Text]
  have digits : ¬((b64Text vals p).take (vals.length + p - p)).any (fun c => (b64Val c).isNone) = true := by
    rw [b64Text, Nat.add_sub_cancel, List.take_left' (by simp)]
    simp only [List.any_map, List.any_eq_true, Function.comp_apply, not_exists, not_and]
    intro v hv
    simp [b64Val_b64Char (small v hv)]
  simp only [b64Decode, res_bind_eq_ok, failIf_eq_ok, res_pure, Except.ok.injEq, exists_const,
    b64PadCount_b64Text small, length, map_b64ValAt_range small, b64Bytes, Nat.not_lt, gt_iff_lt,
    not_ne_iff]
  constructor
  · rintro ⟨groups, pad_le, -, four, two, bytes⟩
    exact ⟨⟨small, groups, pad_le, (b64Text_unused_iff small pad_le).mp ⟨four, two⟩⟩, bytes⟩
  · rintro ⟨⟨-, groups, pad_le, unused⟩, bytes⟩
    obtain ⟨four, two⟩ := (b64Text_unused_iff small pad_le).mpr unused
    exact ⟨groups, pad_le, digits, four, two, bytes⟩
end

theorem exists_b64Text_of_decoded {t b : Bytes} {id : Operand} (h : b64Decode t id = .ok b) :
    ∃ vals p, (∀ v ∈ vals, v < 64) ∧ b64Text vals p = t := by
  simp only [b64Decode, res_bind_eq_ok, failIf_eq_ok, List.any_eq_true, not_exists, not_and,
    Option.isNone_iff_eq_none, Option.eq_none_iff_forall_ne_some, not_forall, not_not] at h
  obtain ⟨_, -, _, -, _, digits, -⟩ := h
  generalize hs : t.take (t.length - b64PadCount t) = s at digits
  refine ⟨s.map fun c => (b64Val c).getD 0, b64PadCount t, ?_, ?_⟩
  · intro v hv
    obtain ⟨c, hc, rfl⟩ := List.mem_map.mp hv
    obtain ⟨v, hv⟩ := digits c hc
    simpa [hv] using b64Val_lt hv
  · have text : s.map (b64Char ∘ fun c => (b64Val c).getD 0) = s := by
      refine (List.map_congr_left fun c hc => ?_).trans (List.map_id s)
      obtain ⟨v, hv⟩ := digits c hc
      simpa [hv] using b64Char_of_b64Val hv
    rw [b64Text, List.map_map, text, ← hs, take_append_padding]

/-- The decoder accepts exactly what the encoder writes (R165, R166). -/
theorem b64Decode_eq_ok_iff {t b : Bytes} {id : Operand} : b64Decode t id = .ok b ↔ t = b64Encode b := by
  constructor
  · intro h
    obtain ⟨vals, p, small, rfl⟩ := exists_b64Text_of_decoded h
    obtain ⟨canonical, rfl⟩ := (b64Decode_b64Text small).mp h
    exact (b64Encode_b64Bytes canonical).symm
  · rintro rfl
    obtain ⟨vals, p, canonical, rfl⟩ := exists_canonical_of_bytes b
    rw [b64Encode_b64Bytes canonical, b64Decode_b64Text canonical.small]
    exact ⟨canonical, rfl⟩

theorem b64Decode_onlyError (t : Bytes) (id : Operand) : OnlyError (b64Decode t id) ⟨.malformedInput, id⟩ :=
  (OnlyError.failIf _ _ _).bind fun _ => (OnlyError.failIf _ _ _).bind fun _ =>
    (OnlyError.failIf _ _ _).bind fun _ => (OnlyError.failIf _ _ _).bind fun _ =>
      (OnlyError.failIf _ _ _).bind fun _ => OnlyError.ok _ _

theorem b64Decode_malformed {t : Bytes} (h : ∀ b, t ≠ b64Encode b) (id : Operand) :
    b64Decode t id = .error ⟨.malformedInput, id⟩ :=
  (b64Decode_onlyError t id).eq_error fun b hb => h b (b64Decode_eq_ok_iff.mp hb)

/-- Settles O30: a text that is decoded is its values and its padding, and these are canonical; so are those of
an encoded text. -/
theorem b64DecodeAcceptsExactlyCanonicalText : Obligations.B64DecodeAcceptsExactlyCanonicalText :=
  fun _ id => ⟨fun _ => b64Decode_eq_ok_iff, fun h => b64Decode_malformed h id⟩

/-- Settles O28: both decoders accept what their encoder writes, as what it was written for. -/
theorem codecRoundTrips : Obligations.CodecRoundTrips :=
  fun b id => ⟨hexDecode_hexEncode b id, b64Decode_eq_ok_iff.mpr rfl⟩

/-! ### The characters of each group -/

theorem b64Encode_length (b : Bytes) : (b64Encode b).length = 4 * ((b.length + 2) / 3) := by
  match b with
  | [] => rfl
  | [_] | [_, _] => simp [b64Encode]
  | x :: y :: z :: rest =>
    simp only [b64Encode, List.length_cons, b64Encode_length rest]
    omega

/-- The accumulator of group q, zero-extended (R165). -/
def groupAcc (b : Bytes) (q : Nat) : BitVec 24 := b.getD (3 * q) 0 ++ b.getD (3 * q + 1) 0 ++ b.getD (3 * q + 2) 0

theorem groupAcc_succ (x y z : Byte) (rest : Bytes) (q : Nat) :
    groupAcc (x :: y :: z :: rest) (q + 1) = groupAcc rest q := rfl

theorem b64Encode_group {b : Bytes} {q : Nat} (h : 3 * q < b.length) :
    (b64Encode b)[4 * q]? = some (b64Char (sextet (groupAcc b q) 18)) ∧
      (b64Encode b)[4 * q + 1]? = some (b64Char (sextet (groupAcc b q) 12)) ∧
      (b64Encode b)[4 * q + 2]? =
        some (if 3 * q + 1 < b.length then b64Char (sextet (groupAcc b q) 6) else b64Pad) ∧
      (b64Encode b)[4 * q + 3]? =
        some (if 3 * q + 2 < b.length then b64Char (sextet (groupAcc b q) 0) else b64Pad) := by
  induction q generalizing b with
  | zero =>
    match b, h with
    | [x], _ => exact ⟨rfl, rfl, rfl, rfl⟩
    | [x, y], _ => exact ⟨rfl, rfl, rfl, rfl⟩
    | x :: y :: z :: rest, _ => simp [b64Encode, groupAcc]
  | succ q ih =>
    match b, h with
    | [x], h | [x, y], h =>
      simp only [List.length_cons, List.length_nil] at h
      omega
    | x :: y :: z :: rest, h =>
      have tail := ih (b := rest) (by simp only [List.length_cons] at h; omega)
      have third : 3 * (q + 1) + 1 < (x :: y :: z :: rest).length ↔ 3 * q + 1 < rest.length := by
        simp only [List.length_cons]
        omega
      have fourth : 3 * (q + 1) + 2 < (x :: y :: z :: rest).length ↔ 3 * q + 2 < rest.length := by
        simp only [List.length_cons]
        omega
      simp only [third, fourth, groupAcc_succ]
      exact tail

theorem groupAcc_toNat (b : Bytes) (q : Nat) : (groupAcc b q).toNat =
    (b.getD (3 * q) 0).toNat * 65536 + (b.getD (3 * q + 1) 0).toNat * 256 + (b.getD (3 * q + 2) 0).toNat :=
  append_bytes_toNat _ _ _

/-- The alphabet with the codes summed before the subtraction (R162). -/
theorem b64Char_eq (i : Nat) : b64Char i =
    if i ≤ 25 then BitVec.ofNat 8 (0x41 + i)
    else if i ≤ 51 then BitVec.ofNat 8 (0x61 + i - 26)
    else if i ≤ 61 then BitVec.ofNat 8 (0x30 + i - 52)
    else if i = 62 then 0x2B
    else 0x2F := by
  unfold b64Char
  by_cases upper : i ≤ 25
  · simp only [if_pos upper]
  · have lower : 0x61 + (i - 26) = 0x61 + i - 26 := by omega
    simp only [if_neg upper, lower]
    by_cases h : i ≤ 51
    · simp only [if_pos h]
    · have digit : 0x30 + (i - 52) = 0x30 + i - 52 := by omega
      simp only [if_neg h, digit]

/-- Settles O31: the characters of each group, by the value of its accumulator. -/
theorem b64EncodeSlicesTheAccumulator : Obligations.B64EncodeSlicesTheAccumulator := by
  intro b
  simp only [← b64Char_eq]
  refine ⟨b64Encode_length b, fun q h => ?_⟩
  obtain ⟨c0, c1, c2, c3⟩ := b64Encode_group h
  have top : (groupAcc b q).toNat / 2 ^ 18 % 64 = (groupAcc b q).toNat / 2 ^ 18 := by omega
  simp only [sextet_eq, top, Nat.pow_zero, Nat.div_one] at c0 c1 c2 c3
  rw [groupAcc_toNat] at c0 c1 c2 c3
  exact ⟨c0, c1, c2, c3⟩

end Sys2Proof.Machine
end

section
/-! Padding (41_codec.md R168, R169). -/

namespace Sys2Proof.Machine

theorem padBlock_ok {b : Bytes} {t : Nat} (hlow : b.length ≤ t) (hhigh : t ≤ b.length + 255) (id : Operand) :
    padBlock b t id = .ok (b ++ List.replicate (t - b.length) (BitVec.ofNat 8 (t - b.length))) := by
  have low : ¬t < b.length := by omega
  have high : ¬t - b.length > 255 := by omega
  simp only [padBlock, failIf_neg low, failIf_neg high, res_bind_ok, res_pure]

theorem padBlock_error {b : Bytes} {t : Nat} (h : t < b.length ∨ b.length + 255 < t) (id : Operand) :
    padBlock b t id = .error ⟨.invalidLength, id⟩ := by
  by_cases low : t < b.length
  · simp only [padBlock, failIf_pos low, res_bind_error]
  · have high : t - b.length > 255 := by omega
    simp only [padBlock, failIf_neg low, failIf_pos high, res_bind_ok, res_bind_error]

theorem lastByte_append_singleton (init : Bytes) (p : Byte) : lastByte (init ++ [p]) = p.toNat := by
  simp [lastByte]

theorem lastByte_append_run (out : Bytes) {k : Nat} (hk : 1 ≤ k) (h255 : k ≤ 255) :
    lastByte (out ++ List.replicate k (BitVec.ofNat 8 k)) = k := by
  obtain ⟨j, rfl⟩ := Nat.exists_eq_add_of_le' hk
  rw [List.replicate_succ', ← List.append_assoc, lastByte_append_singleton, BitVec.toNat_ofNat]
  omega

theorem unpad_true_onlyError (b : Bytes) (limit : Nat) (id : Operand) :
    OnlyError (unpad b true limit id) ⟨.invalidPadding, id⟩ :=
  (OnlyError.failIf _ _ _).bind fun _ => (OnlyError.failIf _ _ _).bind fun _ =>
    (OnlyError.failIf _ _ _).bind fun _ => OnlyError.ok _ _

/-- Validated un-padding removes exactly a run of k bytes of value k (R169, V = 1). -/
theorem unpad_true_eq_ok_iff {b out : Bytes} {limit : Nat} {id : Operand} :
    unpad b true limit id = .ok out ↔
      ∃ k, 1 ≤ k ∧ k ≤ limit ∧ k ≤ 255 ∧ b = out ++ List.replicate k (BitVec.ofNat 8 k) := by
  simp only [unpad, if_true, res_bind_eq_ok, failIf_eq_ok, res_pure, Except.ok.injEq, exists_const, List.any_eq_true,
    bne_iff_ne, not_exists, not_and, not_or, not_lt, gt_iff_lt, not_ne_iff]
  constructor
  · rintro ⟨-, ⟨pos, le_length, le_limit⟩, run, rfl⟩
    refine ⟨lastByte b, by omega, le_limit, by unfold lastByte; omega, ?_⟩
    have drop : b.drop (b.length - lastByte b) = List.replicate (lastByte b) (BitVec.ofNat 8 (lastByte b)) := by
      refine List.eq_replicate_iff.mpr ⟨by rw [List.length_drop]; omega, fun x hx => ?_⟩
      rw [← run x hx, BitVec.ofNat_toNat, BitVec.setWidth_eq]
    rw [← drop, List.take_append_drop]
  · rintro ⟨k, pos, le_limit, le_255, rfl⟩
    have start : (out ++ List.replicate k (BitVec.ofNat 8 k)).length - k = out.length := by simp
    rw [lastByte_append_run out pos le_255, start, List.drop_left, List.take_left]
    refine ⟨?_, ⟨by omega, by simp, le_limit⟩, fun x hx => ?_, rfl⟩
    · simp
      omega
    · rw [List.eq_of_mem_replicate hx, BitVec.toNat_ofNat]
      omega

theorem unpad_true_invalid {b : Bytes} {limit : Nat}
    (h : ∀ out k, 1 ≤ k → k ≤ limit → k ≤ 255 → b ≠ out ++ List.replicate k (BitVec.ofNat 8 k)) (id : Operand) :
    unpad b true limit id = .error ⟨.invalidPadding, id⟩ := by
  refine (unpad_true_onlyError b limit id).eq_error fun out hok => ?_
  obtain ⟨k, pos, le_limit, le_255, run⟩ := unpad_true_eq_ok_iff.mp hok
  exact h out k pos le_limit le_255 run

theorem unpad_false_nil (limit : Nat) (id : Operand) : unpad [] false limit id = .ok [] := rfl

section
variable {b init : Bytes} {p : Byte} (text : b = init ++ [p])
include text

theorem unpad_false_ok (h : p.toNat ≤ b.length) (limit : Nat) (id : Operand) :
    unpad b false limit id = .ok (b.take (b.length - p.toNat)) := by
  have last : lastByte b = p.toNat := text ▸ lastByte_append_singleton init p
  simp only [unpad, Bool.false_eq_true, if_false, last, failIf_neg (Nat.not_lt.mpr h), res_bind_ok, res_pure]

theorem unpad_false_error (h : b.length < p.toNat) (limit : Nat) (id : Operand) :
    unpad b false limit id = .error ⟨.invalidLength, id⟩ := by
  have last : lastByte b = p.toNat := text ▸ lastByte_append_singleton init p
  simp only [unpad, Bool.false_eq_true, if_false, last, failIf_pos h, res_bind_error]

end

/-- Settles O32: with V = 1 the last byte is the run's count (`unpad_true_eq_ok_iff`), with V = 0 it is the only
thing looked at. -/
theorem unpadRemovesTheClaimedBytes : Obligations.UnpadRemovesTheClaimedBytes :=
  fun _ limit id =>
    ⟨fun _ => unpad_true_eq_ok_iff, fun h => unpad_true_invalid h id, unpad_false_nil limit id,
      fun _ _ text => ⟨fun h => unpad_false_ok text h limit id, fun h => unpad_false_error text h limit id⟩⟩

end Sys2Proof.Machine
end

section
/-! The codec commands (41_codec.md R170 to R177). They differ only in what they make of the SRC bytes, so how
they end is said once, for `codecF`; each command's statement follows from what its function answers. -/

namespace Sys2Proof.Machine

/-! ### The shape of a codec command -/

/-- A command that checks SRC and DST, makes its output of the SRC bytes by `f`, and stores it at DST. -/
def codecF (f : Latched → Bytes → Res Bytes) (s : State) (lat : Latched) : CmdOutcome := outcomeOf do
  let b ← srcBuf s lat
  dstCheck s lat
  overlapCheck lat false
  let out ← f lat b
  capCheck lat out.length
  return ⟨out, 0, none⟩

/-- With SRC and DST ready, the data and then the capacity decide (R139). -/
theorem codecF_of_ready {s : State} {lat : Latched} (ready : SrcDstReady s lat) (f : Latched → Bytes → Res Bytes) :
    codecF f s lat = outcomeOf (do
      let out ← f lat (srcBytes s lat)
      capCheck lat out.length
      return ⟨out, 0, none⟩) := by
  have apart : overlapCheck lat false = .ok () := overlapCheck_ok ready.apart (by simp)
  simp only [codecF, srcBuf_ok ready.src, dstCheck_ok ready.dst, apart, res_bind_ok]

section
variable {i : Instr} {s : State} {lat : Latched} {progress : Progress} {f : Latched → Bytes → Res Bytes}
  (hi : exec i s = runCommand false (codecF f) s) (hp : s.phase = .busy lat progress) (ready : SrcDstReady s lat)
include hi hp ready

/-- With an output made, the command ends by the capacity check. -/
theorem codec_completes {out : Bytes} (hf : f lat (srcBytes s lat) = .ok out) :
    (out.length ≤ lat.dstCap.toNat → Succeeds i s lat.dstAddr.toNat out 0) ∧
      (lat.dstCap.toNat < out.length → Fails i s 0x13 3) := by
  refine ⟨fun fits => succeeds_of_ok hi hp ?_,
    fun overflow => fails_of_err (e := ⟨.dstOverflow, .dst⟩) hi hp ?_⟩
  · simp only [codecF_of_ready ready, hf, capCheck_ok fits, res_bind_ok, res_pure, outcomeOf]
  · simp only [codecF_of_ready ready, hf, capCheck_error overflow, res_bind_ok, res_bind_error, outcomeOf]

/-- The command fails with the error of its data. -/
theorem codec_fails {e : CmdError} (hf : f lat (srcBytes s lat) = .error e) :
    Fails i s e.code.number e.info.number := by
  refine fails_of_err hi hp ?_
  simp only [codecF_of_ready ready, hf, res_bind_error, outcomeOf]

end

/-! ### Each command's function -/

theorem exec_hexEnc_eq (s : State) : exec .hexEnc s = runCommand false (codecF fun _ b => .ok (hexEncode b)) s := rfl

theorem exec_hexDec_eq (s : State) : exec .hexDec s = runCommand false (codecF fun _ t => hexDecode t .src) s := rfl

theorem exec_b64Enc_eq (s : State) : exec .b64Enc s = runCommand false (codecF fun _ b => .ok (b64Encode b)) s := rfl

theorem exec_b64Dec_eq (s : State) : exec .b64Dec s = runCommand false (codecF fun _ t => b64Decode t .src) s := rfl

theorem exec_pad_eq (s : State) :
    exec .pad s = runCommand false (codecF fun lat b => padBlock b lat.param.toNat .param) s := rfl

theorem exec_unpad_eq (v : Bool) (s : State) :
    exec (.unpad v) s = runCommand false (codecF fun _ b => unpad b v 255 .src) s := rfl

/-- HEX_TO_B64 goes through bytes that are never stored (R174). -/
theorem exec_hexToB64_eq (s : State) : exec .hexToB64 s =
    runCommand false (codecF fun _ t => hexDecode t .src >>= fun b => .ok (b64Encode b)) s := by
  have body : hexToB64F = codecF fun _ t => hexDecode t .src >>= fun b => .ok (b64Encode b) := by
    funext s lat
    simp only [hexToB64F, codecF, bind_assoc, res_bind_ok]
  exact congrArg (runCommand false · s) body

/-- B64_TO_HEX goes through bytes that are never stored (R175). -/
theorem exec_b64ToHex_eq (s : State) : exec .b64ToHex s =
    runCommand false (codecF fun _ t => b64Decode t .src >>= fun b => .ok (hexEncode b)) s := by
  have body : b64ToHexF = codecF fun _ t => b64Decode t .src >>= fun b => .ok (hexEncode b) := by
    funext s lat
    simp only [b64ToHexF, codecF, bind_assoc, res_bind_ok]
  exact congrArg (runCommand false · s) body

/-! ### How each command ends -/

theorem hexChar_eq (d : Nat) :
    hexChar d = if d < 10 then BitVec.ofNat 8 (0x30 + d) else BitVec.ofNat 8 (0x61 + d - 10) := by
  simp only [hexChar, Nat.lt_succ_iff]

/-- Settles O33: two digits a byte (`hexEncode_digits`), whose number the length of SRC gives. -/
theorem hexEncWritesLowercaseDigits : Obligations.HexEncWritesLowercaseDigits := by
  intro s lat hp ready
  obtain ⟨fits, overflow⟩ := codec_completes (exec_hexEnc_eq s) hp ready rfl
  have length : (hexEncode (srcBytes s lat)).length = 2 * lat.srcLen.toNat := by
    rw [hexEncode_length, srcBytes_length]
  rw [length] at fits overflow
  refine ⟨fun h => ⟨_, fits h, length, fun i b hb => ?_⟩, overflow⟩
  have digits := hexEncode_digits hb
  simpa only [hexChar_eq] using digits

/-- Settles O34: what `hexDecode` answers for a text and for none is what the command ends with. -/
theorem hexDecWritesTheBytesOfTheText : Obligations.HexDecWritesTheBytesOfTheText := fun s _ hp ready =>
  ⟨fun _ text => codec_completes (exec_hexDec_eq s) hp ready (hexDecode_eq_ok_iff.mpr text),
    fun noText => codec_fails (exec_hexDec_eq s) hp ready (hexDecode_malformed noText .src)⟩

/-- Settles O35: the length of the text is that of `b64Encode_length`. -/
theorem b64EncWritesTheText : Obligations.B64EncWritesTheText := by
  intro s lat hp ready
  have ends := codec_completes (exec_b64Enc_eq s) hp ready rfl
  rwa [b64Encode_length, srcBytes_length] at ends

/-- Settles O36: what `b64Decode` answers for a text and for none is what the command ends with. -/
theorem b64DecWritesTheBytesOfTheText : Obligations.B64DecWritesTheBytesOfTheText := fun s _ hp ready =>
  ⟨fun _ text => codec_completes (exec_b64Dec_eq s) hp ready (b64Decode_eq_ok_iff.mpr text),
    fun noText => codec_fails (exec_b64Dec_eq s) hp ready (b64Decode_malformed noText .src)⟩

/-- Settles O37: the output is `b64Encode` of what `hexDecode` answers. -/
theorem hexToB64ComposesThroughBytes : Obligations.HexToB64ComposesThroughBytes := by
  intro s lat hp ready
  refine ⟨fun b text => codec_completes (exec_hexToB64_eq s) hp ready ?_,
    fun noText => codec_fails (e := ⟨.malformedInput, .src⟩) (exec_hexToB64_eq s) hp ready ?_⟩
  · rw [hexDecode_eq_ok_iff.mpr text, res_bind_ok]
  · rw [hexDecode_malformed noText, res_bind_error]

/-- Settles O38: the output is `hexEncode` of what `b64Decode` answers, two digits a byte. -/
theorem b64ToHexComposesThroughBytes : Obligations.B64ToHexComposesThroughBytes := by
  intro s lat hp ready
  refine ⟨fun b text => ?_,
    fun noText => codec_fails (e := ⟨.malformedInput, .src⟩) (exec_b64ToHex_eq s) hp ready ?_⟩
  · rw [← hexEncode_length]
    refine codec_completes (exec_b64ToHex_eq s) hp ready ?_
    rw [b64Decode_eq_ok_iff.mpr text, res_bind_ok]
  · rw [b64Decode_malformed noText, res_bind_error]

/-- Settles O39: the count decides between `padBlock_ok` and `padBlock_error`, before the capacity. -/
theorem padWritesSourceAndCount : Obligations.PadWritesSourceAndCount := by
  intro s lat hp ready
  have length := srcBytes_length s lat
  refine ⟨fun low high => ?_, fun outside => ?_⟩
  · have ends := codec_completes (exec_pad_eq s) hp ready
      (padBlock_ok (by rwa [length]) (by rwa [length]) .param)
    rwa [List.length_append, List.length_replicate, length, Nat.add_sub_cancel' low] at ends
  · exact codec_fails (exec_pad_eq s) hp ready (padBlock_error (by rwa [length]) .param)

/-- Settles O40: a run of 1 to 255 bytes is what un-padding with limit 255 removes. -/
theorem validatedUnpadWritesTheRest : Obligations.ValidatedUnpadWritesTheRest := by
  intro s lat hp ready
  refine ⟨fun out k pos le_255 run => ?_, fun noRun => ?_⟩
  · exact codec_completes (exec_unpad_eq true s) hp ready
      (unpad_true_eq_ok_iff.mpr ⟨k, pos, le_255, le_255, run⟩)
  · exact codec_fails (exec_unpad_eq true s) hp ready
      (unpad_true_invalid (fun out k pos le_255 _ => noRun out k pos le_255) .src)

/-- Settles O41: an empty SRC, a count within SRC and one beyond it are the cases of `unpad` with V = 0. -/
theorem unvalidatedUnpadDropsTheClaimedCount : Obligations.UnvalidatedUnpadDropsTheClaimedCount := by
  intro s lat hp ready
  have length := srcBytes_length s lat
  refine ⟨fun empty => ?_, fun init p text => ⟨fun le => ?_, fun gt => ?_⟩⟩
  · have nil : srcBytes s lat = [] := List.length_eq_zero_iff.mp (length.trans empty)
    have output : unpad (srcBytes s lat) false 255 .src = .ok [] := nil ▸ unpad_false_nil 255 .src
    exact (codec_completes (exec_unpad_eq false s) hp ready output).1 (Nat.zero_le _)
  · have ends := codec_completes (exec_unpad_eq false s) hp ready
      (unpad_false_ok text (by rwa [length]) 255 .src)
    rwa [List.length_take_of_le (Nat.sub_le _ _), length] at ends
  · exact codec_fails (exec_unpad_eq false s) hp ready (unpad_false_error text (by rwa [length]) 255 .src)

end Sys2Proof.Machine
end

section
/-! The XOR functions (42_xor.md R221 to R223). The two XORs are `xorBytes` of a text with a sequence as long as
it, and the Hamming distance counts the 1 bits of `xorBytes`, so their laws come from those of `xorBytes`. -/

namespace Sys2Proof.Machine

/-! ### Byte by byte -/

theorem xorBytes_length {a b : Bytes} (h : a.length = b.length) : (xorBytes a b).length = a.length := by
  rw [xorBytes, List.length_zipWith, h, Nat.min_self]

theorem xorBytes_getElem? {a b : Bytes} (h : a.length = b.length) {i : Nat} (hi : i < a.length) :
    (xorBytes a b)[i]? = some (a.getD i 0 ^^^ b.getD i 0) := by
  have hb : i < b.length := h ▸ hi
  simp [xorBytes, hi, hb]

theorem xorBytes_getD {a b : Bytes} (h : a.length = b.length) (i : Nat) :
    (xorBytes a b).getD i 0 = a.getD i 0 ^^^ b.getD i 0 := by
  by_cases hi : i < a.length
  · rw [List.getD_eq_getElem?_getD, xorBytes_getElem? h hi, Option.getD_some]
  · have outside {l : Bytes} (hl : l.length = a.length) : l.getD i 0 = 0 :=
      List.getD_eq_default _ _ (by omega)
    rw [outside (xorBytes_length h), outside rfl, outside h.symm]
    rfl

theorem xorBytes_comm (a b : Bytes) : xorBytes a b = xorBytes b a :=
  List.zipWith_comm_of_comm BitVec.xor_comm

theorem xorBytes_xorBytes {a b : Bytes} (h : a.length = b.length) : xorBytes (xorBytes a b) b = a := by
  apply List.ext_getElem <;> simp [xorBytes, h]

theorem xorBytes_all_zero_iff {a b : Bytes} (h : a.length = b.length) : (∀ z ∈ xorBytes a b, z = 0) ↔ a = b := by
  induction a generalizing b with
  | nil => simp [xorBytes, List.length_eq_zero_iff.mp h.symm]
  | cons x a ih =>
    match b, h with
    | y :: b, h =>
      have tail := ih (Nat.succ.inj h)
      simp only [xorBytes] at tail
      simp only [xorBytes, List.zipWith_cons_cons, List.forall_mem_cons, List.cons.injEq, tail]
      exact and_congr_left' BitVec.xor_eq_zero_iff

/-! ### The two XORs -/

theorem fixedXor_ok {a b : Bytes} (h : a.length = b.length) (id : Operand) :
    fixedXor a b id = .ok (xorBytes a b) := by
  rw [fixedXor, failIf_neg (not_not.mpr h), res_bind_ok, res_pure]

theorem fixedXor_error {a b : Bytes} (h : a.length ≠ b.length) (id : Operand) :
    fixedXor a b id = .error ⟨.lengthMismatch, id⟩ := by
  rw [fixedXor, failIf_pos h, res_bind_error]

/-- The key `k`, repeated to n bytes (R222). -/
def repeatKey (k : Bytes) (n : Nat) : Bytes := (List.range n).map fun i => k.getD (i % k.length) 0

theorem repeatKey_length (k : Bytes) (n : Nat) : (repeatKey k n).length = n := by
  rw [repeatKey, List.length_map, List.length_range]

theorem repeatKey_getD (k : Bytes) {n i : Nat} (h : i < n) : (repeatKey k n).getD i 0 = k.getD (i % k.length) 0 := by
  simp [repeatKey, h]

theorem repeatingKeyXor_ok (t : Bytes) {k : Bytes} (h : k ≠ []) (id : Operand) :
    repeatingKeyXor t k id = .ok (xorBytes t (repeatKey k t.length)) := by
  have body : (List.range t.length).map (fun i => t.getD i 0 ^^^ k.getD (i % k.length) 0) =
      xorBytes t (repeatKey k t.length) := by
    apply List.ext_getElem <;> simp +contextual [xorBytes, repeatKey]
  rw [repeatingKeyXor, failIf_neg (by simpa using h), res_bind_ok, res_pure, body]

theorem repeatingKeyXor_error (t : Bytes) (id : Operand) : repeatingKeyXor t [] id = .error ⟨.emptyKey, id⟩ := rfl

/-! ### The Hamming distance -/

theorem hamming_ok {a b : Bytes} (h : a.length = b.length) (id : Operand) :
    hamming a b id = .ok ((xorBytes a b).map popcount).sum := by
  rw [hamming, fixedXor_ok h, res_bind_ok, res_pure]

theorem hamming_error {a b : Bytes} (h : a.length ≠ b.length) (id : Operand) :
    hamming a b id = .error ⟨.lengthMismatch, id⟩ := by
  rw [hamming, fixedXor_error h, res_bind_error]

theorem hamming_comm (a b : Bytes) (id : Operand) : hamming a b id = hamming b a id := by
  by_cases h : a.length = b.length
  · rw [hamming_ok h, hamming_ok h.symm, xorBytes_comm]
  · rw [hamming_error h, hamming_error (Ne.symm h)]

theorem popcount_eq_zero_iff (x : Byte) : popcount x = 0 ↔ x = 0 := by
  constructor
  · intro h
    have bits : ∀ i ∈ List.range 8, ¬x.getLsbD i = true := List.countP_eq_zero.mp h
    refine BitVec.eq_of_getLsbD_eq fun i hi => ?_
    simpa using bits i (List.mem_range.mpr hi)
  · rintro rfl
    rfl

theorem hamming_eq_zero_iff {a b : Bytes} {id : Operand} : hamming a b id = .ok 0 ↔ a = b := by
  by_cases h : a.length = b.length
  · rw [hamming_ok h, ← xorBytes_all_zero_iff h, Except.ok.injEq, List.sum_eq_zero_iff]
    simp only [List.forall_mem_map, popcount_eq_zero_iff]
  · rw [hamming_error h]
    refine iff_of_false nofun ?_
    rintro rfl
    exact h rfl

/-- Bit j of a sequence is bit j mod 8 of byte j div 8; the popcounts add up to the number of 1 bits. -/
theorem countP_bits_eq_sum_popcount (r : Bytes) :
    (List.range (8 * r.length)).countP (fun j => (r.getD (j / 8) 0).getLsbD (j % 8)) = (r.map popcount).sum := by
  induction r with
  | nil => rfl
  | cons x r ih =>
    have head : (List.range 8).countP (fun j => ((x :: r).getD (j / 8) 0).getLsbD (j % 8)) = popcount x := by
      refine List.countP_congr fun j hj => ?_
      have low : j < 8 := List.mem_range.mp hj
      rw [Nat.div_eq_of_lt low, Nat.mod_eq_of_lt low, List.getD_cons_zero]
    have tail (j : Nat) : ((x :: r).getD ((8 + j) / 8) 0).getLsbD ((8 + j) % 8) =
        (r.getD (j / 8) 0).getLsbD (j % 8) := by
      rw [Nat.add_div_left j (by decide), Nat.add_mod_left, List.getD_cons_succ]
    rw [List.length_cons, Nat.mul_succ, Nat.add_comm, List.range_add, List.countP_append, head, List.countP_map]
    simp only [Function.comp_def, tail, ih, List.map_cons, List.sum_cons]

/-- The distance is the number of bit positions where the sequences differ (R223). -/
theorem length_filter_differing_bits {a b : Bytes} (h : a.length = b.length) :
    ((List.range (8 * a.length)).filter fun j =>
      (a.getD (j / 8) 0).getLsbD (j % 8) != (b.getD (j / 8) 0).getLsbD (j % 8)).length =
        ((xorBytes a b).map popcount).sum := by
  rw [← List.countP_eq_length_filter, ← countP_bits_eq_sum_popcount, xorBytes_length h]
  simp only [xorBytes_getD h, BitVec.getLsbD_xor, Bool.bne_eq_xor]

/-- Settles O46: the involutions are `xorBytes_xorBytes`, and a distance is 0 when every byte of the XOR is. -/
theorem xorLaws : Obligations.XorLaws := by
  refine ⟨fun a b id h => ⟨_, fixedXor_ok h id, ?_⟩, fun t k id h => ⟨_, repeatingKeyXor_ok t h id, ?_⟩,
    fun a b id => ⟨hamming_comm a b id, hamming_eq_zero_iff⟩⟩
  · rw [fixedXor_ok ((xorBytes_length h).trans h), xorBytes_xorBytes h]
  · have length : t.length = (repeatKey k t.length).length := (repeatKey_length k _).symm
    rw [repeatingKeyXor_ok _ h, xorBytes_length length, xorBytes_xorBytes length]

end Sys2Proof.Machine
end

section
/-! The encoding of an XOR command's operands (42_xor.md R220): what `decodeAs` accepts and how long a text is. -/

namespace Sys2Proof.Machine

theorem decodeAs_eq_ok_iff {enc : Enc} {t b : Bytes} {id : Operand} :
    decodeAs enc t id = .ok b ↔ Represents enc t b := by
  cases enc with
  | raw => exact ⟨Except.ok.inj, congrArg Except.ok⟩
  | hex => exact hexDecode_eq_ok_iff
  | b64 => exact b64Decode_eq_ok_iff

theorem decodeAs_malformed {enc : Enc} {t : Bytes} (h : ∀ b, ¬Represents enc t b) (id : Operand) :
    decodeAs enc t id = .error ⟨.malformedInput, id⟩ := by
  cases enc with
  | raw => exact absurd rfl (h t)
  | hex => exact hexDecode_malformed h id
  | b64 => exact b64Decode_malformed h id

theorem encodeAs_length_congr (enc : Enc) {a b : Bytes} (h : a.length = b.length) :
    (encodeAs enc a).length = (encodeAs enc b).length := by
  cases enc with
  | raw => exact h
  | hex => simp only [encodeAs, hexEncode_length, h]
  | b64 => simp only [encodeAs, b64Encode_length, h]

theorem length_le_encodeAs_length (enc : Enc) (b : Bytes) : b.length ≤ (encodeAs enc b).length := by
  cases enc with
  | raw => exact Nat.le_refl _
  | hex =>
    simp only [encodeAs, hexEncode_length]
    omega
  | b64 =>
    simp only [encodeAs, b64Encode_length]
    omega

theorem Represents.length_eq {enc : Enc} {t b : Bytes} (h : Represents enc t b) :
    t.length = (encodeAs enc b).length := by
  cases enc with
  | raw | b64 => exact congrArg List.length h
  | hex => exact (List.length_map lowerHex).symm.trans (congrArg List.length h)

end Sys2Proof.Machine
end

section
/-! The XOR commands (42_xor.md R224 to R226). With the operands in order each is its function on the decoded
bytes (`onDecoded`), so a malformed operand ends them alike; XOR_FIXED and XOR_REPEAT differ only in that
function (`xorF`), and HAMMING stores nothing. -/

namespace Sys2Proof.Machine

/-! ### On the decoded operands -/

/-- What is left of an XOR command after its operand checks: SRC is decoded, then AUX, and the rest works on
their bytes. -/
def onDecoded (enc : Enc) (s : State) (lat : Latched) (rest : Bytes → Bytes → Res CmdOk) : CmdOutcome := outcomeOf do
  let x ← decodeAs enc (srcBytes s lat) .src
  let y ← decodeAs enc (auxBytes s lat) .aux
  rest x y

/-- A command that checks SRC, AUX and DST, makes its result of the decoded operands by `f`, and stores it at DST
in their encoding. -/
def xorF (f : Bytes → Bytes → Res Bytes) (enc : Enc) (s : State) (lat : Latched) : CmdOutcome := outcomeOf do
  let b ← srcBuf s lat
  let a ← auxBuf s lat
  dstCheck s lat
  overlapCheck lat true
  let x ← decodeAs enc b .src
  let y ← decodeAs enc a .aux
  let r ← f x y
  capCheck lat (encodeAs enc r).length
  return ⟨encodeAs enc r, 0, none⟩

theorem exec_xorFixed_eq (enc : Enc) (s : State) :
    exec (.xorFixed enc) s = runCommand true (xorF (fixedXor · · .aux) enc) s := rfl

theorem exec_xorRepeat_eq (enc : Enc) (s : State) :
    exec (.xorRepeat enc) s = runCommand true (xorF (repeatingKeyXor · · .aux) enc) s := rfl

theorem exec_hamming_eq (enc : Enc) (s : State) : exec (.hamming enc) s = runCommand true (hammingF enc) s := rfl

section
variable {enc : Enc} {s : State} {lat : Latched}

theorem xorF_of_ready (ready : AllReady s lat) (f : Bytes → Bytes → Res Bytes) :
    xorF f enc s lat = onDecoded enc s lat fun x y => do
      let r ← f x y
      capCheck lat (encodeAs enc r).length
      return ⟨encodeAs enc r, 0, none⟩ := by
  have apart : overlapCheck lat true = .ok () := overlapCheck_ok ready.apart fun _ => ready.apartAux
  simp only [xorF, onDecoded, srcBuf_ok ready.src, auxBuf_ok ready.aux, dstCheck_ok ready.dst, apart, res_bind_ok]

theorem hammingF_of_inRange (src : InRange s lat.srcAddr lat.srcLen) (aux : InRange s lat.auxAddr lat.auxLen) :
    hammingF enc s lat = onDecoded enc s lat fun x y => do
      let d ← hamming x y .aux
      return ⟨[], d, none⟩ := by
  simp only [hammingF, onDecoded, srcBuf_ok src, auxBuf_ok aux, res_bind_ok]

theorem onDecoded_of_texts {x y : Bytes} (hx : Represents enc (srcBytes s lat) x)
    (hy : Represents enc (auxBytes s lat) y) (rest : Bytes → Bytes → Res CmdOk) :
    onDecoded enc s lat rest = outcomeOf (rest x y) := by
  simp only [onDecoded, decodeAs_eq_ok_iff.mpr hx, decodeAs_eq_ok_iff.mpr hy, res_bind_ok]

theorem onDecoded_malformed_src (h : ∀ x, ¬Represents enc (srcBytes s lat) x) (rest : Bytes → Bytes → Res CmdOk) :
    onDecoded enc s lat rest = .err ⟨.malformedInput, .src⟩ none none := by
  rw [onDecoded, decodeAs_malformed h, res_bind_error, outcomeOf]

theorem onDecoded_malformed_aux {x : Bytes} (hx : Represents enc (srcBytes s lat) x)
    (h : ∀ y, ¬Represents enc (auxBytes s lat) y) (rest : Bytes → Bytes → Res CmdOk) :
    onDecoded enc s lat rest = .err ⟨.malformedInput, .aux⟩ none none := by
  rw [onDecoded, decodeAs_eq_ok_iff.mpr hx, res_bind_ok, decodeAs_malformed h, res_bind_error, outcomeOf]

/-- An XOR command that works on its decoded operands reports a malformed one, SRC first. -/
theorem malformed_operand_fails {i : Instr} {progress : Progress} {f : State → Latched → CmdOutcome}
    {rest : Bytes → Bytes → Res CmdOk} (hi : exec i s = runCommand true f s) (hp : s.phase = .busy lat progress)
    (hf : f s lat = onDecoded enc s lat rest) :
    ((∀ x, ¬Represents enc (srcBytes s lat) x) → Fails i s 1 1) ∧
    (∀ x, Represents enc (srcBytes s lat) x → (∀ y, ¬Represents enc (auxBytes s lat) y) → Fails i s 1 2) :=
  ⟨fun noSrc => fails_of_err hi hp (hf.trans (onDecoded_malformed_src noSrc rest)),
    fun _ hx noAux => fails_of_err hi hp (hf.trans (onDecoded_malformed_aux hx noAux rest))⟩

end

/-- Settles O45: with its ranges in order, each of the three commands works on its decoded operands. -/
theorem malformedXorOperandsReportInOrder : Obligations.MalformedXorOperandsReportInOrder := by
  rintro enc s lat i hp (⟨rfl, src, aux⟩ | ⟨rfl | rfl, ready⟩)
  · exact malformed_operand_fails (exec_hamming_eq enc s) hp (hammingF_of_inRange src aux)
  · exact malformed_operand_fails (exec_xorFixed_eq enc s) hp (xorF_of_ready ready _)
  · exact malformed_operand_fails (exec_xorRepeat_eq enc s) hp (xorF_of_ready ready _)

/-! ### How each command ends -/

section
variable {enc : Enc} {i : Instr} {s : State} {lat : Latched} {progress : Progress} {f : Bytes → Bytes → Res Bytes}
  {x y : Bytes} (hi : exec i s = runCommand true (xorF f enc) s) (hp : s.phase = .busy lat progress)
  (ready : AllReady s lat) (hx : Represents enc (srcBytes s lat) x) (hy : Represents enc (auxBytes s lat) y)
include hi hp ready hx hy

/-- With a result as long as SRC's bytes, its text is as long as SRC, and the command ends by the capacity check. -/
theorem xor_completes {r : Bytes} (hf : f x y = .ok r) (length : r.length = x.length) :
    (encodeAs enc r).length = lat.srcLen.toNat ∧
      (lat.srcLen.toNat ≤ lat.dstCap.toNat → Succeeds i s lat.dstAddr.toNat (encodeAs enc r) 0) ∧
      (lat.dstCap.toNat < lat.srcLen.toNat → Fails i s 0x13 3) := by
  have text : (encodeAs enc r).length = lat.srcLen.toNat := by
    rw [encodeAs_length_congr enc length, ← hx.length_eq, srcBytes_length]
  refine ⟨text, fun fits => succeeds_of_ok hi hp ?_,
    fun overflow => fails_of_err (e := ⟨.dstOverflow, .dst⟩) hi hp ?_⟩
  · simp only [xorF_of_ready ready, onDecoded_of_texts hx hy, hf, text, capCheck_ok fits, res_bind_ok, res_pure,
      outcomeOf]
  · simp only [xorF_of_ready ready, onDecoded_of_texts hx hy, hf, text, capCheck_error overflow, res_bind_ok,
      res_bind_error, outcomeOf]

/-- The command fails with the error of its function. -/
theorem xor_fails {e : CmdError} (hf : f x y = .error e) : Fails i s e.code.number e.info.number := by
  refine fails_of_err hi hp ?_
  simp only [xorF_of_ready ready, onDecoded_of_texts hx hy, hf, res_bind_error, outcomeOf]

end

/-- Settles O42: the lengths decide between `fixedXor_ok` and `fixedXor_error`, before the capacity. -/
theorem xorFixedWritesTheBytewiseXor : Obligations.XorFixedWritesTheBytewiseXor := by
  intro enc s lat x y hp ready hx hy
  refine ⟨fun h => ⟨xorBytes x y, fun i hi => xorBytes_getElem? h hi, xorBytes_length h, ?_⟩, fun h => ?_⟩
  · exact xor_completes (exec_xorFixed_eq enc s) hp ready hx hy (fixedXor_ok h .aux) (xorBytes_length h)
  · exact xor_fails (exec_xorFixed_eq enc s) hp ready hx hy (fixedXor_error h .aux)

/-- Settles O43: a key that is not empty is repeated to the length of the text. -/
theorem xorRepeatCyclesTheKey : Obligations.XorRepeatCyclesTheKey := by
  intro enc s lat t k hp ready ht hk
  have length : t.length = (repeatKey k t.length).length := (repeatKey_length k _).symm
  refine ⟨fun h => ⟨xorBytes t (repeatKey k t.length), fun i hi => ?_, xorBytes_length length, ?_⟩, ?_⟩
  · rw [xorBytes_getElem? length hi, repeatKey_getD k hi]
  · exact xor_completes (exec_xorRepeat_eq enc s) hp ready ht hk (repeatingKeyXor_ok t h .aux)
      (xorBytes_length length)
  · rintro rfl
    exact xor_fails (exec_xorRepeat_eq enc s) hp ready ht hk (repeatingKeyXor_error t .aux)

/-- Settles O44: the differing bits are the 1 bits of the XOR, at most eight for each byte of SRC. -/
theorem hammingCountsDifferingBits : Obligations.HammingCountsDifferingBits := by
  intro enc s lat x y hp memSize src aux hx hy
  refine ⟨fun h => ⟨?_, succeeds_of_ok (exec_hamming_eq enc s) hp ?_⟩,
    fun h => fails_of_err (e := ⟨.lengthMismatch, .aux⟩) (exec_hamming_eq enc s) hp ?_⟩
  · have short : x.length ≤ lat.srcLen.toNat := by
      rw [← srcBytes_length s lat, hx.length_eq]
      exact length_le_encodeAs_length enc x
    unfold InRange at src
    refine (List.length_filter_le _ _).trans_lt ?_
    rw [List.length_range]
    omega
  · rw [hammingF_of_inRange src aux, onDecoded_of_texts hx hy, hamming_ok h, length_filter_differing_bits h]
    rfl
  · rw [hammingF_of_inRange src aux, onDecoded_of_texts hx hy, hamming_error h]
    rfl

end Sys2Proof.Machine
end

section
/-! The CBC padding and the 16-byte blocks (43_cbc.md R254 to R256, R259): un-padding undoes padding, cutting into
blocks undoes joining them, and the decryption pass undoes the encryption pass. -/

namespace Sys2Proof.Machine

/-! ### The padding -/

theorem cbcPadLen_bounds (n : Nat) : 1 ≤ cbcPadLen n ∧ cbcPadLen n ≤ 16 := by
  unfold cbcPadLen
  omega

theorem add_cbcPadLen (n : Nat) : n + cbcPadLen n = 16 * (n / 16 + 1) := by
  unfold cbcPadLen
  omega

theorem cbcPadded_length_blocks (p : Bytes) : (cbcPadded p).length = 16 * (p.length / 16 + 1) := by
  rw [cbcPadded_length, add_cbcPadLen]

theorem padBlock_cbcPadLen (p : Bytes) (id : Operand) :
    padBlock p (p.length + cbcPadLen p.length) id = .ok (cbcPadded p) := by
  obtain ⟨-, le_16⟩ := cbcPadLen_bounds p.length
  rw [padBlock_ok (Nat.le_add_right _ _) (by omega), Nat.add_sub_cancel_left, cbcPadded]

/-- Settles O47: `padBlock` appends the `cbcPadLen` bytes that are missing to the next block. -/
theorem cbcPaddingReachesTheNextBlock : Obligations.CbcPaddingReachesTheNextBlock := by
  intro p
  obtain ⟨pos, le_16⟩ := cbcPadLen_bounds p.length
  refine ⟨pos, le_16, add_cbcPadLen _, fun aligned => ?_, cbcPadded_length_blocks p, padBlock_cbcPadLen p .param⟩
  rw [cbcPadLen, aligned]

/-- With either V, un-padding removes a run of k bytes of value k (R169). -/
theorem unpad_append_run (out : Bytes) {k limit : Nat} (pos : 1 ≤ k) (le_limit : k ≤ limit) (le_255 : k ≤ 255)
    (v : Bool) (id : Operand) : unpad (out ++ List.replicate k (BitVec.ofNat 8 k)) v limit id = .ok out := by
  cases v with
  | true => exact unpad_true_eq_ok_iff.mpr ⟨k, pos, le_limit, le_255, rfl⟩
  | false =>
    have value : (BitVec.ofNat 8 k).toNat = k := Nat.mod_eq_of_lt (by omega)
    have text : out ++ List.replicate k (BitVec.ofNat 8 k) =
        (out ++ List.replicate (k - 1) (BitVec.ofNat 8 k)) ++ [BitVec.ofNat 8 k] := by
      rw [List.append_assoc, ← List.replicate_succ', Nat.sub_add_cancel pos]
    rw [unpad_false_ok text (by simp [value]), value]
    simp

theorem unpad_cbcPadded (p : Bytes) (v : Bool) (id : Operand) : unpad (cbcPadded p) v 16 id = .ok p := by
  obtain ⟨pos, le_16⟩ := cbcPadLen_bounds p.length
  exact unpad_append_run p pos le_16 (by omega) v id

theorem unpad_false_onlyError (b : Bytes) (limit : Nat) (id : Operand) :
    OnlyError (unpad b false limit id) ⟨.invalidLength, id⟩ :=
  (OnlyError.failIf _ _ _).bind fun _ => OnlyError.ok _ _

/-- The one error that un-padding raises, by V (R169). -/
theorem unpad_error {b : Bytes} {v : Bool} {limit : Nat} {id : Operand} {e : CmdError}
    (h : unpad b v limit id = .error e) : e = ⟨if v then .invalidPadding else .invalidLength, id⟩ := by
  cases v with
  | true => exact unpad_true_onlyError b limit id e h
  | false => exact unpad_false_onlyError b limit id e h

/-! ### Blocks -/

theorem blockOfBytes_append (c : Block) (r : Bytes) : blockOfBytes (c.bytes ++ r) = c := by
  obtain ⟨bytes, size⟩ := c
  rw [blockOfBytes, Block.mk.injEq, List.append_assoc, List.take_left' size]

theorem toBlocks_nil : toBlocks [] = [] := rfl

theorem toBlocks_append (c : Block) (r : Bytes) : toBlocks (c.bytes ++ r) = c :: toBlocks r := by
  have count : (c.bytes ++ r).length / 16 = r.length / 16 + 1 := by
    rw [List.length_append, c.size_eq]
    omega
  have later (i : Nat) : (c.bytes ++ r).drop (16 * (i + 1)) = r.drop (16 * i) := by
    rw [Nat.mul_succ, Nat.add_comm, ← List.drop_drop, List.drop_left' c.size_eq]
  unfold toBlocks
  rw [count, List.range_succ_eq_map, List.map_cons, List.map_map, Nat.mul_zero, List.drop_zero, blockOfBytes_append]
  simp only [Function.comp_def, later]

/-- Bytes that fill their blocks are the blocks joined. -/
theorem flatMap_toBlocks {m : Nat} {b : Bytes} (h : b.length = 16 * m) : (toBlocks b).flatMap Block.bytes = b := by
  induction m generalizing b with
  | zero => rw [List.length_eq_zero_iff.mp h]; rfl
  | succ m ih =>
    have head : (b.take 16).length = 16 := by rw [List.length_take]; omega
    have tail : (b.drop 16).length = 16 * m := by rw [List.length_drop]; omega
    have split := toBlocks_append ⟨b.take 16, head⟩ (b.drop 16)
    rw [List.take_append_drop] at split
    rw [split, List.flatMap_cons, ih tail, List.take_append_drop]

theorem Block.xor_xor (a b : Block) : Block.xor (Block.xor a b) b = a := by
  have sizes : a.bytes.length = b.bytes.length := a.size_eq.trans b.size_eq.symm
  obtain ⟨bytes, size⟩ := a
  exact Block.mk.injEq .. ▸ xorBytes_xorBytes sizes

/-! ### The two passes -/

theorem cbcEncryptBlocks_length (e : Block → Block) (chain : Block) (ps : List Block) :
    (cbcEncryptBlocks e chain ps).1.length = 16 * ps.length := by
  induction ps generalizing chain with
  | nil => rfl
  | cons p rest ih =>
    rw [cbcEncryptBlocks, List.length_append, Block.size_eq, ih, List.length_cons]
    omega

theorem cbcDecryptBlocks_length (d : Block → Block) (chain : Block) (cs : List Block) :
    (cbcDecryptBlocks d chain cs).1.length = 16 * cs.length := by
  induction cs generalizing chain with
  | nil => rfl
  | cons c rest ih =>
    rw [cbcDecryptBlocks, List.length_append, Block.size_eq, ih, List.length_cons]
    omega

/-- Decryption leaves the last ciphertext block as the chaining value (R256). -/
theorem cbcDecryptBlocks_chain (d : Block → Block) (chain : Block) (cs : List Block) :
    (cbcDecryptBlocks d chain cs).2 = cs.getLast?.getD chain := by
  induction cs generalizing chain with
  | nil => rfl
  | cons c rest ih => rw [cbcDecryptBlocks, ih, List.getLast?_cons, Option.getD_some]

/-- Decrypting the blocks of a ciphertext gives back the blocks it came from, and the same last chaining value. -/
theorem cbcDecryptBlocks_cbcEncryptBlocks {e d : Block → Block} (inverse : ∀ x, d (e x) = x) (chain : Block)
    (ps : List Block) : cbcDecryptBlocks d chain (toBlocks (cbcEncryptBlocks e chain ps).1) =
      (ps.flatMap Block.bytes, (cbcEncryptBlocks e chain ps).2) := by
  induction ps generalizing chain with
  | nil => rw [cbcEncryptBlocks, toBlocks_nil, cbcDecryptBlocks, List.flatMap_nil]
  | cons p rest ih =>
    rw [cbcEncryptBlocks, toBlocks_append, cbcDecryptBlocks, ih, inverse, Block.xor_xor, List.flatMap_cons]

theorem toBlocks_cbcPadded_length (p : Bytes) : (toBlocks (cbcPadded p)).length = p.length / 16 + 1 := by
  rw [toBlocks_length, cbcPadded_length_blocks]
  omega

/-- Settles O48: the passes undo each other block by block, which leaves the padded plaintext to un-pad. -/
theorem cbcRoundTrip : Obligations.CbcRoundTrip := by
  intro e d iv p v inverse
  refine ⟨?_, cbcPadded p, ?_, unpad_cbcPadded p v .dst⟩
  · rw [cbcEncryptBlocks_length, toBlocks_cbcPadded_length]
  · rw [cbcDecryptBlocks_cbcEncryptBlocks inverse, flatMap_toBlocks (cbcPadded_length_blocks p)]

end Sys2Proof.Machine
end

section
/-! The block-cipher port (43_cbc.md R250, R251). -/

namespace Sys2Proof.Machine

theorem blockDecrypt_blockEncrypt {lens : KeyLens} {k : Bytes} (h : lens.accepts k.length = true) (x : Block) :
    Config.blockDecrypt lens k (Config.blockEncrypt lens k x) = x := by
  rw [Config.blockDecrypt, Config.blockEncrypt, if_pos h, if_pos h, Equiv.symm_apply_apply]

section
variable {s : State} {rest : List Event} (hag : s.agenda = .bcp :: rest)
include hag

theorem step_of_bcp_request {r : BcpRequest} (h : s.bcpReq = some r) :
    step s = .next
      { s with agenda := rest, bcpReq := none, bcpAnswer := some (bcpFunction s.platform.keyLens r) } := by
  simp only [step, hag, agentStep, bcpStep, h]

theorem step_of_bcp_no_request (h : s.bcpReq = none) : step s = .next { s with agenda := rest } := by
  simp only [step, hag, agentStep, bcpStep, h]

end

/-- Settles O8: the port's move by the request in flight, and the inverse law of an accepted key. -/
theorem portAnswersTheRequestInFlight : Obligations.PortAnswersTheRequestInFlight := fun _ _ hag =>
  ⟨fun _ _ h => step_of_bcp_request hag h, fun _ _ h => step_of_bcp_request hag h, step_of_bcp_no_request hag,
    fun _ x accepted => blockDecrypt_blockEncrypt accepted x⟩

end Sys2Proof.Machine
end

section
/-! The pre-checks of the CBC commands (43_cbc.md R252, R257, R258). -/

namespace Sys2Proof.Machine

theorem exec_cbcEnc_eq (s : State) : exec .cbcEnc s = runCbc cbcEncPre s := rfl

theorem exec_cbcDec_eq (v : Bool) (s : State) : exec (.cbcDec v) s = runCbc (cbcDecPre v) s := rfl

theorem sixteen_le_of_blockKeyOk {s : State} {n : Nat} (h : blockKeyOk s n = true) : 16 ≤ n := by
  simp only [blockKeyOk, KeyLens.accepts, Bool.and_eq_true, decide_eq_true_eq] at h
  exact h.1

/-- What both CBC commands check last, the key length and then the room for n bytes, before they begin `run`. -/
def keyAndRoom (s : State) (lat : Latched) (n : Nat) (run : CbcRun) : Res CbcRun := do
  failIf (blockKeyOk s lat.auxLen.toNat = false) .invalidLength .aux
  capCheck lat n
  return run

section
variable {s : State} {lat : Latched} {n : Nat} {run : CbcRun}

theorem keyAndRoom_of_bad_key (key : ¬blockKeyOk s lat.auxLen.toNat = true) :
    keyAndRoom s lat n run = .error ⟨.invalidLength, .aux⟩ := by
  rw [keyAndRoom, failIf_pos (Bool.eq_false_of_not_eq_true key), res_bind_error]

theorem keyAndRoom_of_no_room (key : blockKeyOk s lat.auxLen.toNat = true) (room : lat.dstCap.toNat < n) :
    keyAndRoom s lat n run = .error ⟨.dstOverflow, .dst⟩ := by
  rw [keyAndRoom, failIf_neg (by simp [key]), res_bind_ok, capCheck_error room, res_bind_error]

theorem keyAndRoom_ok (key : blockKeyOk s lat.auxLen.toNat = true) (room : n ≤ lat.dstCap.toNat) :
    keyAndRoom s lat n run = .ok run := by
  rw [keyAndRoom, failIf_neg (by simp [key]), res_bind_ok, capCheck_ok room, res_bind_ok, res_pure]

variable (ready : AllReady s lat)
include ready

theorem overlapCheck_of_ready : overlapCheck lat true = .ok () := overlapCheck_ok ready.apart fun _ => ready.apartAux

/-- With its operands ready, CBC_ENC needs room for the padded plaintext (R257). -/
theorem cbcEncPre_of_ready : cbcEncPre s lat = keyAndRoom s lat (16 * (lat.srcLen.toNat / 16 + 1))
    ⟨.enc, false, auxBytes s lat, toBlocks (cbcPadded (srcBytes s lat)), 0, []⟩ := by
  simp only [cbcEncPre, keyAndRoom, srcBuf_ok ready.src, auxBuf_ok ready.aux, dstCheck_ok ready.dst,
    overlapCheck_of_ready ready, res_bind_ok, srcBytes_length, auxBytes_length, add_cbcPadLen]

/-- With its operands ready, CBC_DEC needs whole blocks and room for the ciphertext (R258). -/
theorem cbcDecPre_of_ready (v : Bool) (aligned : lat.srcLen.toNat % 16 = 0) :
    cbcDecPre v s lat = keyAndRoom s lat lat.srcLen.toNat
      ⟨.dec, v, auxBytes s lat, toBlocks (srcBytes s lat), 0, []⟩ := by
  simp only [cbcDecPre, keyAndRoom, srcBuf_ok ready.src, auxBuf_ok ready.aux, dstCheck_ok ready.dst,
    overlapCheck_of_ready ready, res_bind_ok, srcBytes_length, auxBytes_length, failIf_neg (not_not.mpr aligned)]

theorem cbcDecPre_unaligned (v : Bool) (unaligned : lat.srcLen.toNat % 16 ≠ 0) :
    cbcDecPre v s lat = .error ⟨.invalidLength, .src⟩ := by
  simp only [cbcDecPre, srcBuf_ok ready.src, auxBuf_ok ready.aux, dstCheck_ok ready.dst,
    overlapCheck_of_ready ready, res_bind_ok, srcBytes_length, failIf_pos unaligned, res_bind_error]

end

/-- Settles O51: with the operands ready, CBC_DEC checks whole blocks, and then both commands end by
`keyAndRoom`. -/
theorem cbcPreChecksReportInOrder : Obligations.CbcPreChecksReportInOrder := by
  intro s lat hp ready
  have enc := cbcEncPre_of_ready ready
  have dec := cbcDecPre_of_ready ready
  refine ⟨fun short key => ?_, fun key => ?_, fun key room => ?_, fun v =>
    ⟨fun unaligned => ?_, fun aligned key => ?_, fun aligned key room => ?_⟩⟩
  · exact absurd (sixteen_le_of_blockKeyOk key) (Nat.not_le.mpr short)
  · exact fails_of_cbc_error (exec_cbcEnc_eq s) hp (enc.trans (keyAndRoom_of_bad_key key))
  · exact fails_of_cbc_error (exec_cbcEnc_eq s) hp (enc.trans (keyAndRoom_of_no_room key room))
  · exact fails_of_cbc_error (exec_cbcDec_eq v s) hp (cbcDecPre_unaligned ready v unaligned)
  · exact fails_of_cbc_error (exec_cbcDec_eq v s) hp ((dec v aligned).trans (keyAndRoom_of_bad_key key))
  · exact fails_of_cbc_error (exec_cbcDec_eq v s) hp ((dec v aligned).trans (keyAndRoom_of_no_room key room))

end Sys2Proof.Machine
end

section
/-! The CBC commands from their first engine step to their completion (43_cbc.md R251 to R258), when the port answers
every request. Both run one pass over their blocks; CBC_DEC then un-pads what the pass put out. -/

namespace Sys2Proof.Machine

/-- A completion does not look at the agenda. -/
theorem complete_agenda (lat : Latched) (o : CmdOutcome) (s : State) (agenda : List Event) :
    { s.complete lat o with agenda := agenda } = ({ s with agenda := agenda } : State).complete lat o := by
  cases o <;> rfl

/-- How a command that sets CHAIN ends with an output (R132). -/
theorem complete_ok_eq (lat : Latched) (s : State) (out : Bytes) (result : Nat) (chain : Block) :
    s.complete lat (.ok ⟨out, result, some chain⟩) =
      { s with
        buf := s.buf.writeBytes lat.dstAddr.toNat out
        outLen := BitVec.ofNat 32 out.length
        result := BitVec.ofNat 32 result
        chain := chain
        chainWritten := true
        err := false
        errcode := 0
        errinfo := 0
        done := true
        phase := .idle } := by
  simp [State.complete, State.succeed]

/-- How a command that sets CHAIN ends with an error and a havoc range (R132). -/
theorem complete_err_eq (lat : Latched) (s : State) (e : CmdError) (a n : Nat) (chain : Block) :
    s.complete lat (.err e (some (a, n)) (some chain)) =
      { s with
        buf := s.buf.forget a n
        chain := chain
        chainWritten := true
        err := true
        errcode := e.code.number
        errinfo := e.info.number
        done := true
        phase := .idle } := by
  simp [State.complete, State.havoc, State.setChain, State.errorEntry]

/-- The state in which a CBC command's pass begins: its operands have been read and CHAIN is the IV (R253). -/
def passBegun (s : State) (lat : Latched) : State :=
  { s with chain := lat.iv, chainWritten := true, draws := (s.drawOperands true lat).draws }

/-- The state in which a CBC command completes: the port has answered every request, the rounds listed on the agenda
are over, and CHAIN is the last chaining value (R253). -/
def passEnded (s : State) (lat : Latched) (chain : Block) : State :=
  { s with
    agenda := []
    bcpReq := none
    bcpAnswer := none
    chain := chain
    chainWritten := true
    draws := (s.drawOperands true lat).draws }

theorem cbcBegin_eq (lat : Latched) (run : CbcRun) (s : State) :
    cbcBegin lat run (s.drawOperands true lat) = cbcAdvance lat run (passBegun s lat) := rfl

theorem exec_of_cbcPre {i : Instr} {pre : State → Latched → Res CbcRun} {s : State} {lat : Latched}
    {progress : Progress} {run : CbcRun} (hi : exec i s = runCbc pre s) (hp : s.phase = .busy lat progress)
    (hpre : pre s lat = .ok run) : exec i s = .next (cbcAdvance lat run (passBegun s lat)) := by
  rw [hi, runCbc, hp]
  simp only [hpre, cbcBegin_eq]

/-- A pass begun before block 0, with one round of the port and the engine for each block, completes its command
with the output and the chaining value of the whole pass. -/
theorem cbc_served_from_start (lat : Latched) {run : CbcRun} {s : State} (index : run.index = 0) (out : run.out = [])
    (chain : s.chain = lat.iv) :
    let p := cbcPass s.platform.keyLens run.op run.key lat.iv run.blocks
    Host.Core.run Sys2Proof.core (2 * run.blocks.length)
        { cbcAdvance lat run s with agenda := cbcRounds run.blocks.length } = .next
      (({ s with agenda := [], bcpReq := none, bcpAnswer := none, chain := p.2 } : State).complete lat
        (cbcOutcome lat { run with index := run.blocks.length, out := p.1 } p.2)) := by
  obtain ⟨op, v, key, blocks, _, _⟩ := run
  obtain rfl := index
  obtain rfl := out
  cases blocks with
  | nil =>
    rw [cbcAdvance_complete rfl, complete_agenda, cbcPass_nil, ← chain]
    rfl
  | cons b rest =>
    have begun : cbcPass s.platform.keyLens op key lat.iv [] = ([], s.chain) := by rw [cbcPass_nil, chain]
    have length : (b :: rest).length = 0 + rest.length + 1 := by rw [List.length_cons, Nat.zero_add]
    rw [cbcAdvance_request rfl]
    refine (cbc_served lat rest.length _ _ b rfl length rfl rfl rfl begun rfl).trans ?_
    exact congrArg Host.Outcome.next (complete_phase lat _ { s with
      agenda := []
      bcpReq := none
      bcpAnswer := none
      chain := (cbcPass s.platform.keyLens op key lat.iv (b :: rest)).2 } _)

/-- A CBC command that passes its pre-checks sends the request for its first block, if it has one, and completes
when every request has been answered. -/
theorem cbc_command_served {i : Instr} {pre : State → Latched → Res CbcRun} {s : State} {lat : Latched}
    {progress : Progress} {run : CbcRun} (hi : exec i s = runCbc pre s) (hp : s.phase = .busy lat progress)
    (hpre : pre s lat = .ok run) (index : run.index = 0) (out : run.out = []) :
    let p := cbcPass s.platform.keyLens run.op run.key lat.iv run.blocks
    ∃ t, exec i s = .next t ∧
      (∀ b ∈ run.blocks.head?, t =
        { passBegun s lat with
          phase := .busy lat (.cbc run)
          bcpReq := some ⟨run.op, run.key, cbcInput run.op b lat.iv⟩
          bcpAnswer := none }) ∧
      Host.Core.run Sys2Proof.core (2 * run.blocks.length) { t with agenda := cbcRounds run.blocks.length } = .next
        ((passEnded s lat p.2).complete lat
          (cbcOutcome lat { run with index := run.blocks.length, out := p.1 } p.2)) := by
  refine ⟨_, exec_of_cbcPre hi hp hpre, fun b hb => ?_, cbc_served_from_start lat index out rfl⟩
  have first : run.blocks[run.index]? = some b := by rw [index, ← List.head?_eq_getElem?, hb]
  exact cbcAdvance_request first

section
variable {run : CbcRun} (decrypts : run.op = .dec)
include decrypts

theorem cbcOutcome_of_unpadded {out : Bytes} (h : unpad run.out run.validate 16 .dst = .ok out) (lat : Latched)
    (chain : Block) : cbcOutcome lat run chain = .ok ⟨out, 0, some chain⟩ := by
  simp only [cbcOutcome, decrypts, h]

theorem cbcOutcome_of_unpad_error {e : CmdError} (h : unpad run.out run.validate 16 .dst = .error e) (lat : Latched)
    (chain : Block) :
    cbcOutcome lat run chain = .err e (some (lat.dstAddr.toNat, run.out.length)) (some chain) := by
  simp only [cbcOutcome, decrypts, h]

end

/-- Settles O49: the pass over the padded blocks is `cbcEncryptBlocks`, and its output is stored as it is. -/
theorem cbcEncWritesTheChainedCiphertext : Obligations.CbcEncWritesTheChainedCiphertext := by
  intro s lat hp ready key k ps m c room
  have blocks : ps.length = m := by rw [toBlocks_cbcPadded_length, srcBytes_length]
  have length : c.1.length = 16 * m := by rw [cbcEncryptBlocks_length, blocks]
  have pre := (cbcEncPre_of_ready ready).trans (keyAndRoom_ok key room)
  obtain ⟨t, started, request, served⟩ := cbc_command_served (exec_cbcEnc_eq s) hp pre rfl rfl
  have nonempty : ps ≠ [] := List.ne_nil_of_length_eq_add_one blocks
  have first : ps.head nonempty ∈ ps.head? := List.head?_eq_some_head nonempty
  refine ⟨t, started, ⟨_, _, first, request _ first⟩, _, (passEnded s lat c.2).draws, stored_writeBytes _ _ c.1,
    length, ?_⟩
  rw [← blocks, served, blocks, ← length]
  rfl

/-- Settles O50: the pass over the ciphertext blocks is `cbcDecryptBlocks`; whether its output un-pads decides what
becomes of DST. -/
theorem cbcDecWritesThePlaintextOrHavoc : Obligations.CbcDecWritesThePlaintextOrHavoc := by
  intro v s lat hp ready noRequest noAnswer key aligned room cs m p
  have blocks : cs.length = m := by rw [toBlocks_length, srcBytes_length]
  have length : p.1.length = lat.srcLen.toNat := by
    rw [cbcDecryptBlocks_length, blocks]
    omega
  have pre := (cbcDecPre_of_ready ready v aligned).trans (keyAndRoom_ok key room)
  obtain ⟨t, started, request, served⟩ := cbc_command_served (exec_cbcDec_eq v s) hp pre rfl rfl
  have ends : Host.Core.run Sys2Proof.core (2 * m) { t with agenda := cbcRounds m } = .next
      ((passEnded s lat p.2).complete lat
        (cbcOutcome lat ⟨.dec, v, auxBytes s lat, cs, cs.length, p.1⟩ p.2)) := blocks ▸ served
  have chain : p.2 = cs.getLast?.getD lat.iv := cbcDecryptBlocks_chain _ _ _
  refine ⟨t, started, fun c hc => ⟨_, request c hc⟩, ?_, fun out unpadded => ?_, fun e failed => ?_⟩
  · rw [List.head?_eq_none_iff, ← List.length_eq_zero_iff, blocks]
  · refine ⟨_, (passEnded s lat p.2).draws, stored_writeBytes _ _ out, ?_⟩
    rw [ends, cbcOutcome_of_unpadded rfl unpadded, noRequest, noAnswer, ← chain, complete_ok_eq]
    rfl
  · refine ⟨s.buf.forget lat.dstAddr.toNat p.1.length, (passEnded s lat p.2).draws,
      fun x outside => Memory.byte?_forget_outside _ (by rwa [length]),
      fun x low high => Memory.byte?_forget_inside _ ⟨low, by rwa [length]⟩, ?_⟩
    rw [ends, cbcOutcome_of_unpad_error rfl failed, noRequest, noAnswer, ← chain, unpad_error failed, complete_err_eq]
    cases v <;> rfl

end Sys2Proof.Machine
end

section
/-! No move of any agent stops the device (60_exceptions.md R290): `exec` answers a next state for every command,
and so does the engine in every phase. -/

namespace Sys2Proof.Machine

theorem exec_has_next (i : Instr) (s : State) : ∃ t, exec i s = .next t := by
  rcases exec_cases i s with ⟨-, idle⟩ | ⟨_, _, -, ⟨_, _, -, completed⟩ | ⟨_, -, -, begun⟩⟩
  · exact ⟨_, idle⟩
  · exact ⟨_, completed⟩
  · exact ⟨_, begun⟩

theorem engineStep_has_next (s : State) : ∃ t, engineStep s = .next t := by
  rcases engineStep_cases s with ⟨-, idle⟩ | ⟨_, _, -, -, illegal⟩ | ⟨_, i, -, -, legal⟩ | ⟨_, _, -, pass⟩
  · exact ⟨_, idle⟩
  · exact ⟨_, illegal⟩
  · rw [legal]
    exact exec_has_next i s
  · exact ⟨_, pass⟩

/-- Only the engine's move has arms that could stop: the other agents' moves are functions on states. -/
theorem agentStep_has_next (e : Event) (s : State) : ∃ t, agentStep e s = .next t := by
  cases e with
  | host op => exact ⟨hostStep op s, rfl⟩
  | engine => exact engineStep_has_next s
  | bcp => exact ⟨bcpStep s, rfl⟩
  | reset => exact ⟨s.applyReset, rfl⟩

/-- Settles O6, agent by agent: the step is the engine's move or the move of the agenda's head. -/
theorem everyStepHasANextState : Obligations.EveryStepHasANextState := by
  intro s
  rcases step_cases s with ⟨-, moved⟩ | ⟨e, rest, -, moved⟩
  · rw [moved]
    exact engineStep_has_next s
  · rw [moved]
    exact agentStep_has_next e { s with agenda := rest }

end Sys2Proof.Machine
end

section
/-! The reset input, in either phase (70_reset_and_hazards.md R330, R331): what the host reads after it is what it
reads of the reset state of R49, at the draw count the reset leaves as it is. -/

namespace Sys2Proof.Machine

theorem step_of_reset {s : State} {rest : List Event} (hag : s.agenda = .reset :: rest) :
    step s = .next (State.applyReset { s with agenda := rest }) := by
  simp only [step, hag, agentStep]

/-- The registers whose value after reset is unspecified (10_state.md R50). -/
def unspecifiedCsrs : List Csr := [.iv0, .iv1, .iv2, .iv3, .chain0, .chain1, .chain2, .chain3]

/-- Of what the reset leaves as it is, a read depends on the draw count alone. -/
theorem csrValue_applyReset (c : Csr) (s : State) :
    s.applyReset.csrValue c = ({ State.reset with draws := s.draws } : State).csrValue c := rfl

/-- Only a read of an unspecified register draws. -/
theorem csrValue_draws {c : Csr} (hc : c ∉ unspecifiedCsrs) (s : State) (d : Nat) :
    ({ s with draws := d } : State).csrValue c = s.csrValue c := by
  cases c with
  | iv0 | iv1 | iv2 | iv3 | chain0 | chain1 | chain2 | chain3 => exact absurd (by decide) hc
  | _ => rfl

theorem csrValue_applyReset_of_specified {c : Csr} (hc : c ∉ unspecifiedCsrs) (s : State) :
    s.applyReset.csrValue c = State.reset.csrValue c :=
  (csrValue_applyReset c s).trans (csrValue_draws hc _ _)

/-- Settles O10: the registers read as O9 lists them of the reset state, and the reset input takes no other
field from the old state than the three that stay. -/
theorem resetClearsTheDeviceInEitherPhase : Obligations.ResetClearsTheDeviceInEitherPhase := by
  intro s rest hag
  obtain ⟨-, ctrl, status, cmd, zeros, free, unwritten, idle, noRequest, -⟩ := resetStateIsAsListed
  refine ⟨_, step_of_reset hag, idle, noRequest, rfl, (csrValue_applyReset_of_specified (by decide) _).trans ctrl,
    (csrValue_applyReset_of_specified (by decide) _).trans status,
    (csrValue_applyReset_of_specified (by decide) _).trans cmd, fun c hc => ?_,
    fun c hc => (csrValue_applyReset c _).trans (free c hc _), unwritten, rfl, rfl, rfl⟩
  have specified : c ∉ unspecifiedCsrs := by
    revert c
    decide
  exact (csrValue_applyReset_of_specified specified _).trans (zeros c hc)

end Sys2Proof.Machine
end
